-- ==== Sys2Proof/Word.lean ====
section
/-! DEFINITION. The widths of SCP's data (spec 00_scope.md §5, R5, R6; 30_encoding.md R61, R73). -/

namespace Sys2Proof

/-- A command word (R61): every command is one 32-bit word, bit 0 least significant (R6). -/
abbrev Word := BitVec 32

/-- One byte of the device register space (R41). -/
abbrev Byte := BitVec 8

/-- A 7-bit device address (00_scope.md §5). -/
abbrev DevAddr := BitVec 7

/-- An 8-bit register address within a device (R41). -/
abbrev RegAddr := BitVec 8

/-- The DATA field of a response (R73). -/
abbrev Data := BitVec 64

/-- The pattern of a 32-bit intermediate register (R26). -/
abbrev Reg32 := BitVec 32

end Sys2Proof
end

