-- ==== Sys2Proof/Syntax.lean ====
section
/-! DEFINITION. The command set SCP-CMD v1: one constructor per row of spec/opcode_table.json (30_encoding.md R66). -/

namespace Sys2Proof

/-- The twenty commands (R66). Each constructor holds the fields its row lists as used, at their widths (R63 to R65);
every operand is an immediate field. BEGIN and END are `busBegin` and `busEnd` here, because `end` is a Lean keyword. -/
inductive Instr where
  /-- BEGIN addr (R81). -/
  | busBegin (addr : DevAddr)
  /-- END (R86). -/
  | busEnd
  /-- RDB reg (R89). -/
  | rdb (reg : RegAddr)
  /-- RDW reg, flip (R91); flip = 1 is low byte first. -/
  | rdw (reg : RegAddr) (flip : BitVec 1)
  /-- WRB reg, data (R93). -/
  | wrb (reg : RegAddr) (data : Byte)
  /-- LDCFG addr, reg (R95). -/
  | ldcfg (addr : DevAddr) (reg : RegAddr)
  /-- STCFG addr, reg, data (R96). -/
  | stcfg (addr : DevAddr) (reg : RegAddr) (data : Byte)
  /-- ACQCAL (R103). -/
  | acqcal
  /-- SETOSS mode (R106). -/
  | setoss (mode : BitVec 2)
  /-- RDTEMP (R116). -/
  | rdtemp
  /-- RDPRES (R126). -/
  | rdpres
  /-- WRCAL sel, imm (R105). -/
  | wrcal (sel : BitVec 5) (imm : BitVec 16)
  /-- SETSRC src (R108). -/
  | setsrc (src : BitVec 1)
  /-- INJUT imm (R109). -/
  | injut (imm : BitVec 16)
  /-- INJUP imm (R110). -/
  | injup (imm : BitVec 19)
  /-- RDREG sel (R111). -/
  | rdreg (sel : BitVec 5)
  /-- ACCCFG data (R151). -/
  | acccfg (data : Byte)
  /-- MAGCFG sel, data (R153). -/
  | magcfg (sel : BitVec 5) (data : Byte)
  /-- RDACC (R155). -/
  | rdacc
  /-- RDMAG (R157). -/
  | rdmag
  deriving DecidableEq, Repr

end Sys2Proof
end

