-- ==== Sys2Proof/WellFormed.lean ====
section
/-! DEFINITION. The value conditions on operands that a field's width does not express (30_encoding.md R66 "extra", R69). -/

namespace Sys2Proof

/-- WRCAL takes SEL <= 10, RDREG SEL <= 28 and MAGCFG SEL <= 2 (R66, R69). Every other command takes every value of its
fields. -/
def Instr.wellFormed : Instr → Bool
  | .wrcal sel _ => sel.toNat ≤ 10
  | .rdreg sel => sel.toNat ≤ 28
  | .magcfg sel _ => sel.toNat ≤ 2
  | .busBegin _ | .busEnd | .rdb _ | .rdw _ _ | .wrb _ _ | .ldcfg _ _ | .stcfg _ _ _ => true
  | .acqcal | .setoss _ | .rdtemp | .rdpres | .setsrc _ | .injut _ | .injup _ => true
  | .acccfg _ | .rdacc | .rdmag => true

end Sys2Proof
end

