-- ==== Sys2Proof/Decode.lean ====
section
/-! DEFINITION. The decoder (30_encoding.md R62 to R69), total on every word and rejecting by name, and after it the
encoder (R63, R64, R70). -/

namespace Sys2Proof

/-- The two classes of port a word can arrive on (R62). -/
inductive PortClass where
  /-- A bus port: format B, opcodes 0x01..0x07. -/
  | bus
  /-- The engine command port: format E, opcodes 0x10..0x1C. -/
  | engine
  deriving DecidableEq, Repr

/-- Why a word selects no command on a port (R68, R69). Every reason is answered with the one status ILLEGAL (R167). -/
inductive Illegal where
  /-- The opcode is not in the opcode map (R69). -/
  | reservedOpcode
  /-- The opcode's format is not the port's format (R62). -/
  | wrongPort
  /-- A bit of an unused field or of a Z field is nonzero (R67). -/
  | mustBeZero
  /-- SEL is out of the command's range (R69). -/
  | selOutOfRange
  deriving DecidableEq, Repr

/-! The fields of R63, R64 and R65: unsigned bit slices, never extended, scaled or shifted. -/

def fieldOpc (w : Word) : BitVec 5 := w.extractLsb' 27 5
def fieldAddr (w : Word) : DevAddr := w.extractLsb' 20 7
def fieldReg (w : Word) : RegAddr := w.extractLsb' 12 8
def fieldData (w : Word) : Byte := w.extractLsb' 4 8
def fieldF (w : Word) : BitVec 1 := w.extractLsb' 3 1
def fieldSel (w : Word) : BitVec 5 := w.extractLsb' 22 5

/-- IMM[n-1:0], the low slice of IMM that R66 names for the command. -/
def fieldImm (n : Nat) (w : Word) : BitVec n := w.extractLsb' 0 n

/-- One row of R66's map: the port class of its format, its match and mask, and the command read from the fields. -/
structure OpcodeRow where
  cls : PortClass
  fixed : Word
  mask : Word
  instr : Word → Instr

/-- The opcode map of R66, in the spec's order, with its match and mask columns. -/
def opcodeMap : List (Nat × OpcodeRow) := [
  (0x01, ⟨.bus, 0x08000000, 0xF80FFFFF, fun w => .busBegin (fieldAddr w)⟩),
  (0x02, ⟨.bus, 0x10000000, 0xFFFFFFFF, fun _ => .busEnd⟩),
  (0x03, ⟨.bus, 0x18000000, 0xFFF00FFF, fun w => .rdb (fieldReg w)⟩),
  (0x04, ⟨.bus, 0x20000000, 0xFFF00FF7, fun w => .rdw (fieldReg w) (fieldF w)⟩),
  (0x05, ⟨.bus, 0x28000000, 0xFFF0000F, fun w => .wrb (fieldReg w) (fieldData w)⟩),
  (0x06, ⟨.bus, 0x30000000, 0xF8000FFF, fun w => .ldcfg (fieldAddr w) (fieldReg w)⟩),
  (0x07, ⟨.bus, 0x38000000, 0xF800000F, fun w => .stcfg (fieldAddr w) (fieldReg w) (fieldData w)⟩),
  (0x10, ⟨.engine, 0x80000000, 0xFFFFFFFF, fun _ => .acqcal⟩),
  (0x11, ⟨.engine, 0x88000000, 0xFFFFFFFC, fun w => .setoss (fieldImm 2 w)⟩),
  (0x12, ⟨.engine, 0x90000000, 0xFFFFFFFF, fun _ => .rdtemp⟩),
  (0x13, ⟨.engine, 0x98000000, 0xFFFFFFFF, fun _ => .rdpres⟩),
  (0x14, ⟨.engine, 0xA0000000, 0xF83F0000, fun w => .wrcal (fieldSel w) (fieldImm 16 w)⟩),
  (0x15, ⟨.engine, 0xA8000000, 0xFFFFFFFE, fun w => .setsrc (fieldImm 1 w)⟩),
  (0x16, ⟨.engine, 0xB0000000, 0xFFFF0000, fun w => .injut (fieldImm 16 w)⟩),
  (0x17, ⟨.engine, 0xB8000000, 0xFFF80000, fun w => .injup (fieldImm 19 w)⟩),
  (0x18, ⟨.engine, 0xC0000000, 0xF83FFFFF, fun w => .rdreg (fieldSel w)⟩),
  (0x19, ⟨.engine, 0xC8000000, 0xFFFFFF00, fun w => .acccfg (fieldImm 8 w)⟩),
  (0x1A, ⟨.engine, 0xD0000000, 0xF83FFF00, fun w => .magcfg (fieldSel w) (fieldImm 8 w)⟩),
  (0x1B, ⟨.engine, 0xD8000000, 0xFFFFFFFF, fun _ => .rdacc⟩),
  (0x1C, ⟨.engine, 0xE0000000, 0xFFFFFFFF, fun _ => .rdmag⟩)]

/-- The row of an opcode; none for the reserved ones (R69). -/
def opcodeRow (opc : BitVec 5) : Option OpcodeRow := opcodeMap.lookup opc.toNat

/-- `decode(w, K)` of R68, with the checks in its order. -/
def decode (k : PortClass) (w : Word) : Except Illegal Instr :=
  match opcodeRow (fieldOpc w) with
  | none => .error .reservedOpcode
  | some r =>
    if r.cls ≠ k then .error .wrongPort
    else if w &&& r.mask ≠ r.fixed then .error .mustBeZero
    else if (r.instr w).wellFormed then .ok (r.instr w)
    else .error .selOutOfRange

/-! The encoder. -/

/-- Format B (R63), with its three Z bits zero. -/
def formatB (opc : BitVec 5) (addr : DevAddr) (reg : RegAddr) (data : Byte) (f : BitVec 1) : Word :=
  opc ++ addr ++ reg ++ data ++ f ++ 0#3

/-- Format E (R64), with its three Z bits zero. -/
def formatE (opc : BitVec 5) (sel : BitVec 5) (imm : BitVec 19) : Word :=
  opc ++ sel ++ 0#3 ++ imm

/-- The word of a command (R63, R64, R70); fields the command does not use are zero (R67). -/
def encode : Instr → Word
  | .busBegin addr => formatB 0x01 addr 0 0 0
  | .busEnd => formatB 0x02 0 0 0 0
  | .rdb reg => formatB 0x03 0 reg 0 0
  | .rdw reg flip => formatB 0x04 0 reg 0 flip
  | .wrb reg data => formatB 0x05 0 reg data 0
  | .ldcfg addr reg => formatB 0x06 addr reg 0 0
  | .stcfg addr reg data => formatB 0x07 addr reg data 0
  | .acqcal => formatE 0x10 0 0
  | .setoss mode => formatE 0x11 0 (mode.setWidth 19)
  | .rdtemp => formatE 0x12 0 0
  | .rdpres => formatE 0x13 0 0
  | .wrcal sel imm => formatE 0x14 sel (imm.setWidth 19)
  | .setsrc src => formatE 0x15 0 (src.setWidth 19)
  | .injut imm => formatE 0x16 0 (imm.setWidth 19)
  | .injup imm => formatE 0x17 0 imm
  | .rdreg sel => formatE 0x18 sel 0
  | .acccfg data => formatE 0x19 0 (data.setWidth 19)
  | .magcfg sel data => formatE 0x1A sel (data.setWidth 19)
  | .rdacc => formatE 0x1B 0 0
  | .rdmag => formatE 0x1C 0 0

/-- The port class a command is accepted on (R62, R66). -/
def Instr.portClass : Instr → PortClass
  | .busBegin _ | .busEnd | .rdb _ | .rdw _ _ | .wrb _ _ | .ldcfg _ _ | .stcfg _ _ _ => .bus
  | .acqcal | .setoss _ | .rdtemp | .rdpres | .wrcal _ _ | .setsrc _ | .injut _ | .injup _ => .engine
  | .rdreg _ | .acccfg _ | .magcfg _ _ | .rdacc | .rdmag => .engine

/-- The opcode of a command (R66). -/
def Instr.opcode : Instr → BitVec 5
  | .busBegin _ => 0x01
  | .busEnd => 0x02
  | .rdb _ => 0x03
  | .rdw _ _ => 0x04
  | .wrb _ _ => 0x05
  | .ldcfg _ _ => 0x06
  | .stcfg _ _ _ => 0x07
  | .acqcal => 0x10
  | .setoss _ => 0x11
  | .rdtemp => 0x12
  | .rdpres => 0x13
  | .wrcal _ _ => 0x14
  | .setsrc _ => 0x15
  | .injut _ => 0x16
  | .injup _ => 0x17
  | .rdreg _ => 0x18
  | .acccfg _ => 0x19
  | .magcfg _ _ => 0x1A
  | .rdacc => 0x1B
  | .rdmag => 0x1C

/-- The port class whose format a word's opcode belongs to: opcodes below 0x10 are format B (R62, R69). -/
def homeClass (w : Word) : PortClass := if w.getLsbD 31 then .engine else .bus

/-- The 32-bit word whose low `nbits` bits are `w`'s and whose other bits are zero; SCP's words have no byte order, they
are delivered whole on a port (R61, R55). -/
def tableWord (nbits w : Nat) : Word := BitVec.ofNat 32 (w % 2 ^ nbits)

/-- The host's question about a table row: the command the decoder reads from the row's word on a port of the word's own
class. -/
def decodeTableWord (nbits w : Nat) : Option Instr :=
  match decode (homeClass (tableWord nbits w)) (tableWord nbits w) with
  | .ok i => some i
  | .error _ => none

end Sys2Proof
end

