-- ==== Sys2Proof/Machine/Agents.lean ====
section
/-! DEFINITION. SCP's agents and what they say to each other: requesters, ports, transport primitives and their answers,
and the events by which an agent moves (00_scope.md R1, R5; 60_exceptions.md R168, R176). -/

namespace Sys2Proof.Machine

/-- A requester on the arbiter (R1, R184). Its number is n for `port n` and N_PORTS for SEQ; ports with n >= N_PORTS do
not exist. -/
inductive Requester where
  /-- External bus port n. -/
  | port (n : Nat)
  /-- The sequencer SEQ, requester number N_PORTS (R99). -/
  | seq
  deriving DecidableEq, Repr, Inhabited

/-- The key by which the model keeps WAITQ in one canonical order. R14's WAITQ is a set, so no meaning hangs on it. -/
def Requester.key : Requester → Nat
  | .seq => 0
  | .port n => n + 1

/-- A place words arrive at and responses leave from (R62). -/
inductive Port where
  /-- Bus port n. -/
  | bus (n : Nat)
  /-- The host's engine command port. -/
  | engine
  deriving DecidableEq, Repr, Inhabited

/-- The kind of a waiting requester (R14). -/
inductive WaitKind where
  /-- A BEGIN, LDCFG, STCFG or SEQ transaction to address a. -/
  | explicit (a : DevAddr)
  /-- An auto-begin, whose address is read at grant time (R77). -/
  | auto
  deriving DecidableEq, Repr

/-- A transport primitive (R5). -/
inductive Prim where
  /-- TRead(dev, reg). -/
  | read (dev : DevAddr) (reg : RegAddr)
  /-- TWrite(dev, reg, v). -/
  | write (dev : DevAddr) (reg : RegAddr) (v : Byte)
  deriving DecidableEq, Repr

/-- The device a primitive is addressed to. -/
def Prim.dev : Prim → DevAddr
  | .read d _ => d
  | .write d _ _ => d

/-- The kind of a transport failure, as the transport classifies it (R168). -/
inductive FailKind where
  | fatal
  | retryable
  deriving DecidableEq, Repr, Inhabited

/-- The transport's answer to one primitive (R168). The byte of `ok` means something for TRead only. -/
inductive Answer where
  | ok (b : Byte)
  | fail (kind : FailKind) (code : Byte)
  deriving DecidableEq, Repr, Inhabited

/-- An entry of the transport order (R53) and of the ownership changes around it: what the source's instrumented
transport sees (R185). -/
inductive BusEvent where
  /-- The arbiter granted the bus to `c` at `a` (R77). -/
  | grant (c : Requester) (a : DevAddr)
  /-- The owner `c` began again at `a` (R76). -/
  | retarget (c : Requester) (a : DevAddr)
  /-- `c` gave the bus up, by END or release (R86, R98). -/
  | release (c : Requester)
  /-- The transport performed `p` for `c` (R48). -/
  | prim (c : Requester) (p : Prim) (r : Answer)
  /-- Reset (R226). -/
  | reset
  deriving DecidableEq, Repr

/-- One move of one agent (R1, R176). The schedule of these moves is the environment's: SCP fixes no order among agents. -/
inductive Event where
  /-- A requester, or the host, offers a command word to a port (R72, R101). -/
  | issue (p : Port) (w : Word)
  /-- The command of this requester takes its next step. -/
  | advance (c : Requester)
  /-- The arbiter's grant step, choosing this member of WAITQ (R77). -/
  | grant (c : Requester)
  /-- The host asserts reset (R226). -/
  | reset
  deriving DecidableEq, Repr, Inhabited

/-- The magnetometer axis order, parameter MAG_AXIS_ORDER (R158). -/
inductive AxisOrder where
  | xyz
  | xzy
  deriving DecidableEq, Repr, Inhabited

end Sys2Proof.Machine
end

