-- ==== Sys2Proof/Config.lean ====
section
/-! DEFINITION. What an implementation fixes (the OPEN parameters of 00_scope.md R4) and the free values (the transport's
answers, the environment's schedule, the draws of R29). An `opaque` constant has no body: no proof can see its value, so a
statement about it holds for every value. -/

namespace Sys2Proof

open Sys2Proof.Machine

/-- N_PORTS - 1: OPEN, and N_PORTS is at least 1 (R4, D4). -/
opaque Config.morePorts : Nat

/-- N_PORTS, the number of external bus ports; SEQ's requester number (R1, R4). -/
def Config.nPorts : Nat := Config.morePorts + 1

/-- BARO_ADDR, OPEN (R4, D26). -/
opaque Config.baroAddr : DevAddr

/-- ACC_ADDR, OPEN (R4, D26). -/
opaque Config.accAddr : DevAddr

/-- MAG_ADDR, OPEN (R4, D26). -/
opaque Config.magAddr : DevAddr

/-- ACC_CTRL_DEFAULT, the reset value of ACC_CTRL, OPEN (R4, R27, D34). -/
opaque Config.accCtrlDefault : Byte

/-- MAG_AXIS_ORDER, OPEN (R4, R158, D35). -/
opaque Config.magAxisOrder : AxisOrder

/-- The transport oracle: the answer to the n-th primitive the model draws an answer for (R5, R168; free value). -/
opaque Config.transport : Nat → Answer

/-- The environment: which agent moves at the n-th step the model draws a move for (R1, R176; free value). -/
opaque Config.environment : Nat → Event

/-- The n-th arbitrary pattern, for a RDREG of a register not written since reset (R29; free value). -/
opaque Config.freeWord : Nat → Reg32

end Sys2Proof
end

