-- ==== Sys2Proof/Machine/Calib.lean ====
section
/-! DEFINITION. The calibration LUT (10_state.md R16 to R19): eleven 16-bit patterns, their integer readings and the default
set. -/

namespace Sys2Proof.Machine

/-- CAL[0..10] (R16), each entry under its name, as the 16-bit pattern it holds. -/
structure Calib where
  ac1 : BitVec 16
  ac2 : BitVec 16
  ac3 : BitVec 16
  ac4 : BitVec 16
  ac5 : BitVec 16
  ac6 : BitVec 16
  b1 : BitVec 16
  b2 : BitVec 16
  mb : BitVec 16
  mc : BitVec 16
  md : BitVec 16
  deriving DecidableEq, Repr

/-- CAL_DEFAULT, the reset contents of the LUT (R19). -/
def calDefault : Calib where
  ac1 := 0x0198
  ac2 := 0xFFB8
  ac3 := 0xC7D1
  ac4 := 0x7FE5
  ac5 := 0x7FF5
  ac6 := 0x5A71
  b1 := 0x182E
  b2 := 0x0004
  mb := 0x8000
  mc := 0xDDF9
  md := 0x0B34

/-! The integer a formula reads under each name (R16, R17): AC4, AC5 and AC6 unsigned, the rest signed. -/

def Calib.AC1 (c : Calib) : Int := c.ac1.toInt
def Calib.AC2 (c : Calib) : Int := c.ac2.toInt
def Calib.AC3 (c : Calib) : Int := c.ac3.toInt
def Calib.AC4 (c : Calib) : Int := (c.ac4.toNat : Int)
def Calib.AC5 (c : Calib) : Int := (c.ac5.toNat : Int)
def Calib.AC6 (c : Calib) : Int := (c.ac6.toNat : Int)
def Calib.B1 (c : Calib) : Int := c.b1.toInt
def Calib.B2 (c : Calib) : Int := c.b2.toInt
def Calib.MC (c : Calib) : Int := c.mc.toInt
def Calib.MD (c : Calib) : Int := c.md.toInt

/-- The pattern of entry i (R16); none for an index with no entry. -/
def Calib.get (c : Calib) : Nat → Option (BitVec 16)
  | 0 => some c.ac1
  | 1 => some c.ac2
  | 2 => some c.ac3
  | 3 => some c.ac4
  | 4 => some c.ac5
  | 5 => some c.ac6
  | 6 => some c.b1
  | 7 => some c.b2
  | 8 => some c.mb
  | 9 => some c.mc
  | 10 => some c.md
  | _ => none

/-- Entry i replaced by a pattern; an index with no entry names nothing to replace. -/
def Calib.set (c : Calib) (i : Nat) (v : BitVec 16) : Calib :=
  match i with
  | 0 => { c with ac1 := v }
  | 1 => { c with ac2 := v }
  | 2 => { c with ac3 := v }
  | 3 => { c with ac4 := v }
  | 4 => { c with ac5 := v }
  | 5 => { c with ac6 := v }
  | 6 => { c with b1 := v }
  | 7 => { c with b2 := v }
  | 8 => { c with mb := v }
  | 9 => { c with mc := v }
  | 10 => { c with md := v }
  | _ => c

/-- Whether entry i is read as unsigned (R16). -/
def Calib.unsigned (i : Nat) : Bool := i = 3 || i = 4 || i = 5

/-- What RDREG shows of entry i (R28): sign-extended for a signed entry, zero-extended for an unsigned one. -/
def Calib.view (c : Calib) (i : Nat) : Option Reg32 :=
  (c.get i).map fun v => if Calib.unsigned i then v.setWidth 32 else v.signExtend 32

/-- The LUT whose entry i is `f i` (R103's commit loop). -/
def Calib.ofFun (f : Nat → BitVec 16) : Calib :=
  ⟨f 0, f 1, f 2, f 3, f 4, f 5, f 6, f 7, f 8, f 9, f 10⟩

end Sys2Proof.Machine
end

