-- ==== Sys2Proof/Machine/State.lean ====
section
/-! DEFINITION. The state of SCP as plain data (10_state.md R11 to R31), its reset value (70_reset_and_hazards.md R227), and
the names of the reasons a step can stop. The state is grouped by what it belongs to: the arbiter, the ports, the engine,
and the record of the outside world. -/

namespace Sys2Proof.Machine

/-- The response STATUS codes (60_exceptions.md R166). -/
inductive Status where
  | ok
  | illegal
  | xportFatal
  | xportRetry
  | notOwner
  | noTarget
  | stageOrder
  | divZero
  /-- CONFIG, reserved: no rule produces it (R97). -/
  | config
  /-- TIMEOUT, reserved: no rule produces it (R100). -/
  | timeout
  deriving DecidableEq, Repr

/-- A response (R73) and the port it went to. -/
structure Response where
  port : Port
  status : Status
  data : Data
  deriving DecidableEq, Repr

/-- The states of the reading cycle, and the codes of STAGE (R21). Codes 6 and 7 are never written, so they have no constructor. -/
inductive Stage where
  | idle
  | temperatureRequested
  | temperatureRead
  | pressureRequested
  | pressureRead
  | compensated
  deriving DecidableEq, Repr

/-- A member of WAITQ (R14). -/
structure Waiter where
  who : Requester
  kind : WaitKind
  deriving DecidableEq, Repr

/-- R31(c): where a bus port's pending command stands. -/
inductive Phase where
  /-- Accepted; none of its steps is taken. -/
  | issued
  /-- At its `await R[OWNER] = c` (R76): in WAITQ, or granted and not yet gone on. -/
  | awaiting
  /-- RDW between its two primitives, holding the first byte (R91). -/
  | firstByte (b0 : Byte)
  /-- Its last primitive is answered; its response is to be given. -/
  | done (status : Status) (data : Data)
  deriving DecidableEq, Repr

/-- PEND[n] of a bus port (R15): the command word and where the command stands (R31(c)). -/
structure Slot where
  port : Nat
  word : Word
  phase : Phase
  deriving DecidableEq, Repr

/-- What a pressure computation writes (R132), as 32-bit patterns (R8). -/
structure PresRegs where
  b6 : Reg32
  b3 : Reg32
  b4 : Reg32
  b7 : Reg32
  x1 : Reg32
  x2 : Reg32
  x3 : Reg32
  p : Reg32
  deriving DecidableEq, Repr

/-- What a temperature computation writes (R117), as 32-bit patterns (R8). -/
structure TempRegs where
  x1 : Reg32
  x2 : Reg32
  b5 : Reg32
  t : Reg32
  deriving DecidableEq, Repr

/-- Where SEQ's command stands (R31(b)). -/
inductive SeqPhase where
  /-- At its `await R[OWNER] = SEQ` (R76). -/
  | awaiting
  /-- Owner of the bus, inside its list of primitives and waits (R99). -/
  | running
  /-- The bus is released; the arithmetic and the commit are left (R123). -/
  | offBus
  /-- RDPRES only: the pressure is computed and not committed (R101, R126). -/
  | computed (r : PresRegs)
  deriving DecidableEq, Repr

/-- PEND[N_PORTS] (R15) and R31(b): SEQ's command in progress (its word is the one in PEND_ENG), its step, and its
temporaries before commit. -/
structure Job where
  phase : SeqPhase
  /-- How many primitives and waits of its list are performed. -/
  step : Nat
  /-- The bytes read so far, each with its register address, newest first. -/
  reads : List (RegAddr × Byte)
  /-- The error of a failed primitive, to be answered after the release (R102). -/
  failure : Option (Status × Data)
  /-- RDPRES: the mode m sampled at the start (R127). -/
  mode : BitVec 2
  /-- RDPRES: B5 as read at the start (R126). -/
  b5 : Reg32
  /-- RDPRES: the raw pressure `up` (R126). -/
  up : BitVec 19
  /-- RDTEMP and RDPRES: where the walk of the reading cycle stands (R21, R116, R127), of which only the end is committed to
  STAGE (R101, R127); none for a command that is no reading. -/
  walk : Option Stage
  deriving DecidableEq, Repr

/-- Arbiter state (R11 to R14). -/
structure Arbiter where
  /-- OWNER (R11). -/
  owner : Option Requester
  /-- ACTIVE_V (R12). -/
  activeV : Bool
  /-- ACTIVE_ADDR (R12). -/
  activeAddr : DevAddr
  /-- LAST_V (R13). -/
  lastV : Bool
  /-- LAST_ADDR (R13). -/
  lastAddr : DevAddr
  /-- WAITQ (R14), a set, kept strictly rising by `Requester.key`. -/
  waitq : List Waiter
  deriving DecidableEq, Repr

/-- The ports' slots and SEQ's hidden state (R15, R31). -/
structure Ports where
  /-- PEND[0 .. N_PORTS-1] (R15): the ports whose slot is not none, strictly rising by port number. -/
  pend : List Slot
  /-- PEND_ENG (R15). -/
  pendEng : Option Word
  /-- ENG_BUSY (R31). -/
  engBusy : Bool
  /-- PEND[N_PORTS], SEQ's step and temporaries (R15, R31). -/
  seq : Option Job
  deriving DecidableEq, Repr

/-- Engine registers (R16 to R27). -/
structure Engine where
  cal : Calib
  oss : BitVec 2
  /-- STAGE (R21), as committed (R101): the walk of a running RDTEMP or RDPRES is in its `Job`. -/
  stage : Stage
  src : BitVec 1
  injUt : BitVec 16
  injUp : BitVec 19
  ut : BitVec 16
  up : BitVec 19
  x1 : Reg32
  x2 : Reg32
  x3 : Reg32
  b5 : Reg32
  t : Reg32
  b6 : Reg32
  b3 : Reg32
  b4 : Reg32
  b7 : Reg32
  p : Reg32
  accCtrl : Byte
  /-- The model's own (R29): RDTEMP has written UT, X1, X2, B5 and T since reset. -/
  tempWritten : Bool
  /-- The model's own (R29): RDPRES has written UP, X1 to X3, B3, B4, B6, B7 and P since reset. -/
  presWritten : Bool
  deriving DecidableEq, Repr

/-- The model's own record of the outside world: what is still to come from it, and what SCP has shown it. No field is a
register of SCP, and reset does not clear it (R226, R228). -/
structure Outside where
  /-- The moves the environment is going to make; when none is listed, `Config.environment` makes them. -/
  events : List Event
  /-- How many moves were drawn from `Config.environment`. -/
  ticks : Nat
  /-- The answers the transport is going to give; when none is listed, `Config.transport` gives them. -/
  answers : List Answer
  /-- How many free values were drawn from `Config.transport` and `Config.freeWord`. -/
  draws : Nat
  /-- The transport order (R53, R185), newest first. -/
  order : List BusEvent
  /-- The responses given (R72), newest first. -/
  responses : List Response
  /-- The bus port whose command the current step carries out (`c` of 40_bus_arbiter.md). -/
  actPort : Nat
  deriving DecidableEq, Repr

/-- The state of the machine. -/
structure State where
  arb : Arbiter
  ports : Ports
  eng : Engine
  out : Outside
  deriving DecidableEq, Repr

/-- Reasons the machine stops. SCP itself stops for no reason: every error of the spec is a response (R177). -/
inductive Fault where
  /-- A primitive was to be performed for a requester that is not OWNER, against R88's "requires R[OWNER] = c". Raised by
  the second read of RDW and by SEQ's primitives, only in states no run reaches. Safe. -/
  | unownedTransfer
  deriving DecidableEq, Repr

/-- Reasons an instruction is refused. -/
inductive Refusal where
  /-- `exec` has no meaning for the instruction; raised by no arm of this model. Safe. -/
  | notModelled (mnemonic : String)
  deriving DecidableEq, Repr

/-- Arbiter state after reset (R227). -/
def Arbiter.reset : Arbiter where
  owner := none
  activeV := false
  activeAddr := 0
  lastV := false
  lastAddr := 0
  waitq := []

/-- The slots after reset (R227). -/
def Ports.reset : Ports where
  pend := []
  pendEng := none
  engBusy := false
  seq := none

/-- Engine registers after reset (R227). DESIGN CHOICE (log entry 1, unsafe): UT, UP and the registers of R26 are unspecified
there; their fields hold zero and no command shows it, since RDREG answers a free value until their first write (R29). -/
def Engine.reset : Engine where
  cal := calDefault
  oss := 0
  stage := .idle
  src := 0
  injUt := 0x6CFA
  injUp := 0x05D23
  ut := 0
  up := 0
  x1 := 0
  x2 := 0
  x3 := 0
  b5 := 0
  t := 0
  b6 := 0
  b3 := 0
  b4 := 0
  b7 := 0
  p := 0
  accCtrl := Config.accCtrlDefault
  tempWritten := false
  presWritten := false

/-- The record of the outside world at power-on: nothing listed, nothing drawn, nothing shown. -/
def Outside.start : Outside where
  events := []
  ticks := 0
  answers := []
  draws := 0
  order := []
  responses := []
  actPort := 0

/-- The machine right after power-on reset (R226, R227). -/
def State.reset : State where
  arb := .reset
  ports := .reset
  eng := .reset
  out := .start

end Sys2Proof.Machine
end

