-- ==== Sys2Proof/Machine/Operands.lean ====
section
/-! DEFINITION. The forms values take: the arithmetic of 00_scope.md R7 to R9, the byte orders of 20_memory.md R44 and R45,
and the register addresses of R43. -/

namespace Sys2Proof.Machine

/-! Arithmetic: expressions are exact over the integers and wrap at assignment only (R9). -/

/-- `fdiv(a, b)`: floor(a / b), for b != 0 (R7). -/
def fdiv (a b : Int) : Int := Int.fdiv a b

/-- `w32(x)`: the signed 32-bit wrap (R8). -/
def w32 (x : Int) : Int := (x + 2147483648) % 4294967296 - 2147483648

/-- `u32(x)`: the unsigned 32-bit wrap (R8). -/
def u32 (x : Int) : Int := x % 4294967296

/-- `sq(x)` (R7). -/
def sq (x : Int) : Int := x * x

/-- The 32-bit pattern of w32(x) or u32(x) (R8). -/
def pattern32 (x : Int) : Reg32 := BitVec.ofInt 32 x

/-- `x << m` on the integers (R7). -/
def shl (x : Int) (m : BitVec 2) : Int := x * ((2 ^ m.toNat : Nat) : Int)

/-! Bytes. -/

/-- `(hi, lo)`, the 16-bit word with `hi` as its high byte (R44). -/
def word16 (hi lo : Byte) : BitVec 16 := hi ++ lo

/-- RDW's composition of the bytes at reg and reg+1: flip = 0 puts the first byte high (R44, R91). -/
def composeWord (flip : BitVec 1) (b0 b1 : Byte) : BitVec 16 :=
  if flip = 0 then word16 b0 b1 else word16 b1 b0

/-- `(reg + 1) mod 256` (R43). -/
def nextReg (reg : RegAddr) : RegAddr := reg + 1

/-- The register address n, an address of R50 or R51. -/
def regAt (n : Nat) : RegAddr := BitVec.ofNat 8 n

/-- `compose_up(msb, lsb, xlsb, m)` (R128). -/
def composeUp (msb lsb xlsb : Byte) (m : BitVec 2) : BitVec 19 :=
  BitVec.ofNat 19 ((msb.toNat * 65536 + lsb.toNat * 256 + xlsb.toNat) / 2 ^ (8 - m.toNat))

/-- The pressure trigger byte `0x34 + (m << 6)` (R126, R136). -/
def pressureTrigger (m : BitVec 2) : Byte := 0x34 + (m.setWidth 8 <<< 6)

/-- WAIT_T_MIN in milliseconds (R4, R233). -/
def waitTMin : Nat := 450

/-- WAIT_P_MIN[m] in milliseconds (R4, R20, R233). -/
def waitPMin (m : BitVec 2) : Nat :=
  match m.toNat with
  | 0 => 45
  | 1 => 75
  | 2 => 135
  | _ => 255

end Sys2Proof.Machine
end

