-- ==== Sys2Proof/Machine/Flags.lean ====
section
/-! DEFINITION. SCP has no flag and no condition code (10_state.md R30). What a command reports instead is computed here: the
STATUS and DATA of its response (30_encoding.md R73, R74; 60_exceptions.md R166, R170), and the code of STAGE with the
predicate B5_VALID (10_state.md R21, R22). -/

namespace Sys2Proof.Machine

/-- The STATUS code (R166). -/
def Status.code : Status → BitVec 4
  | .ok => 0
  | .illegal => 1
  | .xportFatal => 2
  | .xportRetry => 3
  | .notOwner => 4
  | .noTarget => 5
  | .stageOrder => 6
  | .divZero => 7
  | .config => 8
  | .timeout => 9

/-- The STAGE code (R21). -/
def Stage.code : Stage → BitVec 3
  | .idle => 0
  | .temperatureRequested => 1
  | .temperatureRead => 2
  | .pressureRequested => 3
  | .pressureRead => 4
  | .compensated => 5

/-- B5_VALID (R22): STAGE = 2. -/
def Engine.b5Valid (e : Engine) : Bool := e.stage = .temperatureRead

/-- The status of a transport failure (R88): XPORT_FATAL or XPORT_RETRY, as the transport classifies it. -/
def FailKind.status : FailKind → Status
  | .fatal => .xportFatal
  | .retryable => .xportRetry

/-- DATA of a transport failure (R170): code in [7:0], reg in [15:8], dev in [22:16], bit 23 set for a TWrite. -/
def xportData (p : Prim) (code : Byte) : Data :=
  match p with
  | .read dev reg => 0#40 ++ 0#1 ++ dev ++ reg ++ code
  | .write dev reg _ => 0#40 ++ 1#1 ++ dev ++ reg ++ code

/-- DATA of a response that returns a 32-bit pattern, a word, a byte or a code: zero-extended (R74). -/
def zextData {n : Nat} (v : BitVec n) : Data := v.setWidth 64

/-- DATA of RDACC and RDMAG (R74): x in [15:0], y in [31:16], z in [47:32]. -/
def tripleData (x y z : BitVec 16) : Data := 0#16 ++ z ++ y ++ x

end Sys2Proof.Machine
end

