-- ==== Sys2Proof/Machine/Ops.lean ====
section
/-! DEFINITION. The named operations on the state: the keyed sets, the ports and their responses (errors among them), the
ownership of the bus, the transport primitives, the moves of the outside world, and reset. -/

namespace Sys2Proof.Machine

/-! Sets kept as lists strictly rising by a key, so that equal sets are equal lists. -/

/-- The canonical form. -/
abbrev Rising {α : Type} (key : α → Nat) (l : List α) : Prop := l.Pairwise fun a b => key a < key b

/-- The member with key k. -/
def findKey {α : Type} (key : α → Nat) (k : Nat) (l : List α) : Option α := l.find? fun x => key x == k

/-- The set without its member with key k. -/
def eraseKey {α : Type} (key : α → Nat) (k : Nat) (l : List α) : List α := l.filter fun x => key x != k

/-- The set with x as its one member of x's key. -/
def insertKey {α : Type} (key : α → Nat) (x : α) : List α → List α
  | [] => [x]
  | y :: ys =>
    if key x < key y then x :: y :: ys
    else if key x = key y then x :: ys
    else y :: insertKey key x ys

/-! The bus ports and their slots (R15, R72). -/

/-- PEND[n] (R15). -/
def State.slot (s : State) (n : Nat) : Option Slot := findKey Slot.port n s.ports.pend

/-- The requester whose bus command the current step carries out. -/
def State.self (s : State) : Requester := .port s.out.actPort

/-- Where that requester's command stands (R31(c)). -/
def State.phase (s : State) : Phase :=
  match s.slot s.out.actPort with
  | some sl => sl.phase
  | none => .issued

/-- Its command goes on to another point. -/
def State.setPhase (ph : Phase) (s : State) : State :=
  match s.slot s.out.actPort with
  | some sl => { s with ports.pend := insertKey Slot.port { sl with phase := ph } s.ports.pend }
  | none => s

/-- `respond` and `raise` on a bus port (00_scope.md R10; R72, R166, R177): the one response of the command goes to its
port and PEND becomes none. An error is this and nothing else: no state is saved, no mode changes, nothing is jumped to. -/
def State.respondPort (st : Status) (d : Data) (s : State) : State :=
  { s with
    ports.pend := eraseKey Slot.port s.out.actPort s.ports.pend
    out.responses := ⟨.bus s.out.actPort, st, d⟩ :: s.out.responses }

/-- `respond` and `raise` on the engine command port (R10, R72, R101, R177): the response goes to the host, PEND_ENG and
SEQ's slot become none and ENG_BUSY <- 0. -/
def State.respondEngine (st : Status) (d : Data) (s : State) : State :=
  { s with
    ports.pendEng := none
    ports.engBusy := false
    ports.seq := none
    out.responses := ⟨.engine, st, d⟩ :: s.out.responses }

/-! Ownership (R76, R77, R86, R98). -/

/-- A member of WAITQ is known by its requester (R14). -/
def Waiter.key (w : Waiter) : Nat := w.who.key

/-- The kind under which a requester waits, if it is in WAITQ (R14). -/
def State.waitKind (s : State) (c : Requester) : Option WaitKind :=
  (findKey Waiter.key c.key s.arb.waitq).map Waiter.kind

/-- WAITQ <- WAITQ ∪ {(c, kind)} (R76). -/
def State.enqueue (c : Requester) (kind : WaitKind) (s : State) : State :=
  { s with arb.waitq := insertKey Waiter.key ⟨c, kind⟩ s.arb.waitq }

/-- The owner c begins again at a (R76): no wait, no nesting count. -/
def State.retarget (c : Requester) (a : DevAddr) (s : State) : State :=
  { s with
    arb.activeAddr := a
    arb.lastV := true
    arb.lastAddr := a
    out.order := .retarget c a :: s.out.order }

/-- `release(c)` (R98), which is END's state change (R86): LAST is not changed. -/
def State.release (c : Requester) (s : State) : State :=
  { s with
    arb.owner := none
    arb.activeV := false
    arb.activeAddr := 0
    out.order := .release c :: s.out.order }

/-- The address a waiter of this kind is granted at (R77): an auto member's is LAST_ADDR as it stands now. -/
def State.grantAddr (s : State) : WaitKind → DevAddr
  | .explicit a => a
  | .auto => s.arb.lastAddr

/-- The grant of the bus to c at a (R77). -/
def State.takeBus (c : Requester) (a : DevAddr) (s : State) : State :=
  { s with
    arb :=
      { owner := some c
        activeV := true
        activeAddr := a
        lastV := true
        lastAddr := a
        waitq := eraseKey Waiter.key c.key s.arb.waitq }
    out.order := .grant c a :: s.out.order }

/-- The grant step with c as its free choice (R77): enabled when OWNER = none and c is in WAITQ; otherwise the arbiter has
no such step and nothing changes. -/
def State.grant (c : Requester) (s : State) : State :=
  match s.arb.owner, s.waitKind c with
  | none, some kind => s.takeBus c (s.grantAddr kind)
  | _, _ => s

/-! The transport (R5, R48, R49, R168). -/

/-- The transport's answer to the next primitive. -/
def State.nextAnswer (s : State) : Answer :=
  match s.out.answers with
  | r :: _ => r
  | [] => Config.transport s.out.draws

/-- The transport performs p for c, whole and once (R48, R49): its answer is used up and p enters the transport order. -/
def State.transfer (c : Requester) (p : Prim) (s : State) : State :=
  { s with
    out.answers := s.out.answers.tail
    out.draws := if s.out.answers.isEmpty then s.out.draws + 1 else s.out.draws
    out.order := .prim c p s.nextAnswer :: s.out.order }

/-- A primitive is issued by OWNER alone (R78, R88). -/
def requireOwner (c : Requester) (s t : State) : Host.Outcome State Fault Refusal :=
  if s.arb.owner = some c then .next t else .fault .unownedTransfer

/-! The outside world. -/

/-- The next move of the environment. -/
def State.nextEvent (s : State) : Event :=
  match s.out.events with
  | e :: _ => e
  | [] => Config.environment s.out.ticks

/-- The move is used up. -/
def State.dropEvent (s : State) : State :=
  match s.out.events with
  | _ :: es => { s with out.events := es }
  | [] => { s with out.ticks := s.out.ticks + 1 }

/-- A word is offered to a port (R15, R72, R101): it is accepted only when the port exists and its slot is none; otherwise
SCP does not take it and nothing changes. -/
def State.accept (p : Port) (w : Word) (s : State) : State :=
  match p with
  | .bus n =>
    if n < Config.nPorts ∧ s.slot n = none
    then { s with ports.pend := insertKey Slot.port ⟨n, w, .issued⟩ s.ports.pend }
    else s
  | .engine => if s.ports.pendEng = none then { s with ports.pendEng := some w } else s

/-- The state in which bus port n's command is carried out. -/
def State.actAs (n : Nat) (s : State) : State := { s with out.actPort := n }

/-- Reset (R226, R227, R228): every register of SCP at its reset value, every pending or running command discarded with no
response; the devices behind the transport, and what SCP has already shown, are not SCP's to change. -/
def State.resetMachine (s : State) : State :=
  { State.reset with out := { s.out with order := .reset :: s.out.order } }

/-- The word stands in the slot of the port its class names (bus port 0, or the engine command port) with none of its steps
taken, and the environment's next move is that requester's. It stands for a requester's offering the word (R72). -/
def State.deliver (w : Word) (s : State) : State :=
  match homeClass w with
  | .bus =>
    { s with
      ports.pend := insertKey Slot.port ⟨0, w, .issued⟩ s.ports.pend
      out.events := .advance (.port 0) :: s.out.events }
  | .engine =>
    { s with
      ports.pendEng := some w
      ports.engBusy := false
      ports.seq := none
      out.events := .advance .seq :: s.out.events }

/-! `acquire(c, kind)` for a bus port (R76, R80). -/

/-- A bus-family command up to `body`, its part that needs the bus. As owner it goes on at once, an explicit acquire first
retargeting. An auto acquire with no address ever active raises NO_TARGET without waiting (R80). Otherwise the requester
enters WAITQ, free bus or not, and has no step until it is OWNER (R76, R83). -/
def State.withBus (kind : WaitKind) (body : State → State) (s : State) : State :=
  match s.phase with
  | .issued =>
    if s.arb.owner = some s.self then
      match kind with
      | .explicit a => body (s.retarget s.self a)
      | .auto => body s
    else if kind = .auto ∧ s.arb.lastV = false then s.respondPort .noTarget 0
    else (s.enqueue s.self kind).setPhase .awaiting
  | .awaiting => if s.arb.owner = some s.self then body s else s
  | .firstByte _ | .done _ _ => s

/-- A bus port's last primitive, and with it what its response will be (R88, R90): `good` of the byte, or XPORT with the
DATA of R170. -/
def State.lastPrim (p : Prim) (good : Byte → Data) (s : State) : State :=
  match s.nextAnswer with
  | .ok b => (s.transfer s.self p).setPhase (.done .ok (good b))
  | .fail kind code => (s.transfer s.self p).setPhase (.done kind.status (xportData p code))

end Sys2Proof.Machine
end

