-- ==== Sys2Proof/Machine/BusArbiter.lean ====
section
/-! DEFINITION. The bus-family commands (40_bus_arbiter.md R76 to R100), one definition each. -/

namespace Sys2Proof.Machine

/-- BEGIN (R81): `acquire(c, explicit(ADDR))`, then the response. -/
def execBusBegin (addr : DevAddr) (s : State) : Host.Outcome State Fault Refusal :=
  .next (s.withBus (.explicit addr) (State.respondPort .ok 0))

/-- END (R86): NOT_OWNER unless c is the owner; otherwise the release, with LAST kept (R87). -/
def execBusEnd (s : State) : Host.Outcome State Fault Refusal :=
  .next (if s.arb.owner = some s.self then (s.release s.self).respondPort .ok 0 else s.respondPort .notOwner 0)

/-- RDB (R89): one TRead at ACTIVE_ADDR, then its response; ownership is kept (R90, R94). -/
def execRdb (reg : RegAddr) (s : State) : Host.Outcome State Fault Refusal :=
  .next (match s.phase with
    | .done st d => s.respondPort st d
    | _ => s.withBus .auto fun s => s.lastPrim (.read s.arb.activeAddr reg) zextData)

/-- RDW's first read (R91): a failure here is the command's, and no second read is issued. -/
def State.firstRead (reg : RegAddr) (s : State) : State :=
  let p := Prim.read s.arb.activeAddr reg
  match s.nextAnswer with
  | .ok b0 => (s.transfer s.self p).setPhase (.firstByte b0)
  | .fail kind code => (s.transfer s.self p).setPhase (.done kind.status (xportData p code))

/-- RDW (R91, R92): two TReads, at REG and (REG + 1) mod 256, each a step of its own, then the response. -/
def execRdw (reg : RegAddr) (flip : BitVec 1) (s : State) : Host.Outcome State Fault Refusal :=
  match s.phase with
  | .done st d => .next (s.respondPort st d)
  | .firstByte b0 =>
    requireOwner s.self s
      (s.lastPrim (.read s.arb.activeAddr (nextReg reg)) fun b1 => zextData (composeWord flip b0 b1))
  | _ => .next (s.withBus .auto (State.firstRead reg))

/-- WRB (R93): one TWrite at ACTIVE_ADDR, then its response. -/
def execWrb (reg : RegAddr) (data : Byte) (s : State) : Host.Outcome State Fault Refusal :=
  .next (match s.phase with
    | .done st d => s.respondPort st d
    | _ => s.withBus .auto fun s => s.lastPrim (.write s.arb.activeAddr reg data) fun _ => 0)

/-- LDCFG (R95): an explicit transaction of one TRead at ADDR; the release comes before the response, on failure too, and
ends the issuer's own transaction (R98). -/
def execLdcfg (addr : DevAddr) (reg : RegAddr) (s : State) : Host.Outcome State Fault Refusal :=
  .next (match s.phase with
    | .done st d => (s.release s.self).respondPort st d
    | _ => s.withBus (.explicit addr) fun s => s.lastPrim (.read addr reg) zextData)

/-- STCFG (R96): as LDCFG, with one TWrite. -/
def execStcfg (addr : DevAddr) (reg : RegAddr) (data : Byte) (s : State) : Host.Outcome State Fault Refusal :=
  .next (match s.phase with
    | .done st d => (s.release s.self).respondPort st d
    | _ => s.withBus (.explicit addr) fun s => s.lastPrim (.write addr reg data) fun _ => 0)

end Sys2Proof.Machine
end

