-- ==== Sys2Proof/Machine/Sequencer.lean ====
section
/-! DEFINITION. SEQ's bus sequences (40_bus_arbiter.md R99; 41_engine_config.md R101, R102): acquire, a list of primitives and
waits, release on success and on every error, then the work off the bus and the response. -/

namespace Sys2Proof.Machine

/-- One element of SEQ's list (R99). -/
inductive SeqOp where
  /-- xfer_read at a register. -/
  | read (reg : RegAddr)
  /-- xfer_write. -/
  | write (reg : RegAddr) (v : Byte)
  /-- xfer_write that triggers a conversion; the reading cycle walks on when it is performed (R21, R116, R127). -/
  | trigger (reg : RegAddr) (v : Byte) (stage : Stage)
  /-- wait_at_least, in milliseconds: one step with no effect (R10, R232). -/
  | settle (ms : Nat)
  deriving DecidableEq, Repr

/-- SEQ's slot before the first step of a bus sequence. -/
def Job.start : Job where
  phase := .awaiting
  step := 0
  reads := []
  failure := none
  mode := 0
  b5 := 0
  up := 0
  walk := none

/-- The state of the reading cycle at this moment (R21): the walk of a running RDTEMP or RDPRES; else what STAGE holds
(log entry 6). -/
def State.stageNow (s : State) : Stage := (s.ports.seq.bind Job.walk).getD s.eng.stage

/-- The byte read at a register, if it was read. -/
def Job.byte? (j : Job) (reg : RegAddr) : Option Byte := j.reads.lookup reg

/-- The byte read at a register. The zero is never used by a run: a sequence ends well only after all its reads (log
entry 8). -/
def Job.byte (j : Job) (reg : RegAddr) : Byte := (j.byte? reg).getD 0

/-- The 16-bit word read at a register and the next, high byte first (R44). -/
def Job.wordBE (j : Job) (n : Nat) : BitVec 16 := word16 (j.byte (regAt n)) (j.byte (regAt (n + 1)))

/-- SEQ's slot holds j. -/
def State.setJob (j : Job) (s : State) : State := { s with ports.seq := some j }

/-- `acquire(SEQ, explicit(dev))` by a command that begins (R76, R99, R101): ENG_BUSY <- 1, and SEQ enters WAITQ unless it
is the owner already. -/
def State.acquireSeq (dev : DevAddr) (j : Job) (s : State) : State :=
  let s := { s with ports.engBusy := true }
  if s.arb.owner = some .seq then (s.retarget .seq dev).setJob { j with phase := .running }
  else (s.enqueue .seq (.explicit dev)).setJob { j with phase := .awaiting }

/-- One primitive of SEQ, by its answer (R88, R102): on success the list goes on, on failure it ends and the error of R170
is kept for the response. -/
def State.seqPrim (j : Job) (p : Prim) (good : Byte → Job) (s : State) : State :=
  match s.nextAnswer with
  | .ok b => (s.transfer .seq p).setJob (good b)
  | .fail kind code => (s.transfer .seq p).setJob { j with failure := some (kind.status, xportData p code) }

/-- One element of the list (R99). -/
def State.seqOp (dev : DevAddr) (j : Job) (op : SeqOp) (s : State) : State :=
  let j := { j with phase := .running }
  match op with
  | .read reg =>
    s.seqPrim j (.read dev reg) fun b => { j with step := j.step + 1, reads := (reg, b) :: j.reads }
  | .write reg v => s.seqPrim j (.write dev reg v) fun _ => { j with step := j.step + 1 }
  | .trigger reg v st =>
    s.seqPrim j (.write dev reg v) fun _ => { j with step := j.step + 1, walk := some st }
  | .settle _ => s.setJob { j with step := j.step + 1 }

/-- What SEQ does next as owner: the next element of its list, or, when the list is done or a primitive failed, the
release (R99, R102). `onRelease` is what a successful sequence does with the bus just released. -/
def State.seqOnBus (dev : DevAddr) (list : Job → List SeqOp) (onRelease : Job → State → State) (j : Job) (s : State) :
    State :=
  match j.failure with
  | some _ => (s.release .seq).setJob { j with phase := .offBus }
  | none =>
    match (list j)[j.step]? with
    | some op => s.seqOp dev j op
    | none => onRelease { j with phase := .offBus } (s.release .seq)

/-- The next step of a command whose bus sequence has begun. `finish` is the work off the bus; `onFail` is what a failed
sequence writes besides its response (R101). -/
def State.seqStep (dev : DevAddr) (list : Job → List SeqOp) (onRelease finish : Job → State → State)
    (onFail : State → State) (j : Job) (s : State) : Host.Outcome State Fault Refusal :=
  match j.phase with
  | .awaiting => .next (if s.arb.owner = some .seq then s.seqOnBus dev list onRelease j else s)
  | .running => requireOwner .seq s (s.seqOnBus dev list onRelease j)
  | .offBus | .computed _ =>
    match j.failure with
    | some (st, d) => .next ((onFail s).respondEngine st d)
    | none => .next (finish j s)

/-- A failed reading ends the cycle: STAGE <- Idle (R121, R135). -/
def State.endCycle (s : State) : State := { s with eng.stage := .idle }

end Sys2Proof.Machine
end

