-- ==== Sys2Proof/Machine/EngineConfig.lean ====
section
/-! DEFINITION. The engine configuration commands (41_engine_config.md R101 to R112), one definition each. A command that
uses no bus is one step, so ENG_BUSY is set and cleared within it (R101). -/

namespace Sys2Proof.Machine

/-- A word whose SEL is out of range is ILLEGAL at decode (R69, R167); a meaning given such operands answers so too. -/
def State.illegalEngine (i : Instr) (s : State) : State := s.respondEngine .illegal (zextData (encode i))

/-- ACQCAL's list (R103): the 22 reads at 0xAA, 0xAB, ..., 0xBF. -/
def acqcalList : List SeqOp := (List.range 22).map fun k => .read (regAt (0xAA + k))

/-- ACQCAL's commit (R103): the LUT, and STAGE <- Idle. -/
def State.commitCal (cal : Calib) (s : State) : State :=
  { s with eng.cal := cal, eng.stage := .idle }.respondEngine .ok 0

/-- ACQCAL (R103, R104): CAL_DEFAULT with no bus I/O when SRC = 1; otherwise 22 reads in one transaction, each entry
big-endian. On an error neither the LUT nor STAGE is written. -/
def execAcqcal (s : State) : Host.Outcome State Fault Refusal :=
  match s.ports.seq with
  | none =>
    .next (if s.eng.src = 1 then s.commitCal calDefault else s.acquireSeq Config.baroAddr .start)
  | some j =>
    s.seqStep Config.baroAddr (fun _ => acqcalList) State.setJob
      (fun j s => s.commitCal (Calib.ofFun fun i => j.wordBE (0xAA + 2 * i))) id j

/-- SETOSS (R106, R107): OSS <- IMM[1:0]; STAGE is not changed. -/
def execSetoss (mode : BitVec 2) (s : State) : Host.Outcome State Fault Refusal :=
  .next ({ s with eng.oss := mode }.respondEngine .ok 0)

/-- WRCAL (R105): CAL[SEL] <- IMM[15:0]; STAGE <- Idle. -/
def execWrcal (sel : BitVec 5) (imm : BitVec 16) (s : State) : Host.Outcome State Fault Refusal :=
  .next (if sel.toNat ≤ 10
    then { s with eng.cal := s.eng.cal.set sel.toNat imm, eng.stage := .idle }.respondEngine .ok 0
    else s.illegalEngine (.wrcal sel imm))

/-- SETSRC (R108): SRC <- IMM[0]; STAGE <- Idle, also when SRC held the value already. -/
def execSetsrc (src : BitVec 1) (s : State) : Host.Outcome State Fault Refusal :=
  .next ({ s with eng.src := src, eng.stage := .idle }.respondEngine .ok 0)

/-- INJUT (R109): INJ_UT <- IMM[15:0]. -/
def execInjut (imm : BitVec 16) (s : State) : Host.Outcome State Fault Refusal :=
  .next ({ s with eng.injUt := imm }.respondEngine .ok 0)

/-- INJUP (R110): INJ_UP <- IMM[18:0]. -/
def execInjup (imm : BitVec 19) (s : State) : Host.Outcome State Fault Refusal :=
  .next ({ s with eng.injUp := imm }.respondEngine .ok 0)

/-- A register's pattern once it is written, none before (R29). -/
def whenWritten (written : Bool) (v : Reg32) : Option Reg32 := if written then some v else none

/-- The 32-bit pattern of register SEL (R28); none for a register R29 leaves arbitrary, not written since reset. -/
def Engine.view (e : Engine) (sel : Nat) : Option Reg32 :=
  match sel with
  | 11 => some (e.oss.setWidth 32)
  | 12 => some (e.stage.code.setWidth 32)
  | 13 => some (e.src.setWidth 32)
  | 14 => some (e.injUt.setWidth 32)
  | 15 => some (e.injUp.setWidth 32)
  | 16 => whenWritten e.tempWritten (e.ut.setWidth 32)
  | 17 => whenWritten e.presWritten (e.up.setWidth 32)
  | 18 => whenWritten e.tempWritten e.b5
  | 19 => whenWritten e.tempWritten e.t
  | 20 => whenWritten e.presWritten e.b6
  | 21 => whenWritten e.presWritten e.b3
  | 22 => whenWritten e.presWritten e.b4
  | 23 => whenWritten e.presWritten e.b7
  | 24 => whenWritten (e.tempWritten || e.presWritten) e.x1
  | 25 => whenWritten (e.tempWritten || e.presWritten) e.x2
  | 26 => whenWritten e.presWritten e.x3
  | 27 => whenWritten e.presWritten e.p
  | 28 => some (e.accCtrl.setWidth 32)
  | i => e.cal.view i

/-- One free value is drawn. -/
def State.draw (s : State) : State := { s with out.draws := s.out.draws + 1 }

/-- RDREG (R111): the pattern of register SEL, or a free value where R29 gives a draw. No register changes. -/
def execRdreg (sel : BitVec 5) (s : State) : Host.Outcome State Fault Refusal :=
  .next (if sel.toNat ≤ 28
    then
      match s.eng.view sel.toNat with
      | some v => s.respondEngine .ok (zextData v)
      | none => s.draw.respondEngine .ok (zextData (Config.freeWord s.out.draws))
    else s.illegalEngine (.rdreg sel))

end Sys2Proof.Machine
end

