-- ==== Sys2Proof/Machine/MultiAxis.lean ====
section
/-! DEFINITION. The multi-axis client commands (44_multi_axis_client.md R151 to R159). -/

namespace Sys2Proof.Machine

/-- ACCCFG (R151): one TWrite of the control byte to 0x20; ACC_CTRL <- the byte on success only. -/
def execAcccfg (data : Byte) (s : State) : Host.Outcome State Fault Refusal :=
  match s.ports.seq with
  | none => .next (s.acquireSeq Config.accAddr .start)
  | some j =>
    s.seqStep Config.accAddr (fun _ => [.write (regAt 0x20) data]) State.setJob
      (fun _ s => { s with eng.accCtrl := data }.respondEngine .ok 0) id j

/-- MAGCFG (R153, R154): one TWrite of the byte to configuration register SEL, passed through; nothing is cached. -/
def execMagcfg (sel : BitVec 5) (data : Byte) (s : State) : Host.Outcome State Fault Refusal :=
  match s.ports.seq with
  | none =>
    .next (if sel.toNat ≤ 2 then s.acquireSeq Config.magAddr .start else s.illegalEngine (.magcfg sel data))
  | some j =>
    s.seqStep Config.magAddr (fun _ => [.write (regAt sel.toNat) data]) State.setJob
      (fun _ s => s.respondEngine .ok 0) id j

/-- The accelerometer is powered off (R152): the data-rate nibble ACC_CTRL[7:4] is 0. -/
def accPoweredOff (ctrl : Byte) : Bool := ctrl.extractLsb' 4 4 = 0

/-- The two reads of axis a (R155), if its status bit and its enable bit are both set. -/
def axisReads (ctrl status : Byte) (a : Nat) : List SeqOp :=
  if status.getLsbD a && ctrl.getLsbD a then [.read (regAt (0x28 + 2 * a)), .read (regAt (0x29 + 2 * a))] else []

/-- RDACC's list (R155): the status, then the gated axes X, Y, Z, each low byte then high byte. -/
def rdaccList (ctrl : Byte) (j : Job) : List SeqOp :=
  .read (regAt 0x27) ::
    match j.byte? (regAt 0x27) with
    | none => []
    | some status => axisReads ctrl status 0 ++ axisReads ctrl status 1 ++ axisReads ctrl status 2

/-- The value of axis a (R155): zero unless its registers were read, else its word, low byte first. -/
def axisValue (j : Job) (a : Nat) : BitVec 16 :=
  match j.byte? (regAt (0x28 + 2 * a)), j.byte? (regAt (0x29 + 2 * a)) with
  | some lo, some hi => word16 hi lo
  | _, _ => 0

/-- RDACC (R155, R156, R159): powered off, zeros and no bus access; otherwise one transaction at ACC_ADDR, gated by the
cached ACC_CTRL. -/
def execRdacc (s : State) : Host.Outcome State Fault Refusal :=
  match s.ports.seq with
  | none =>
    .next (if accPoweredOff s.eng.accCtrl then s.respondEngine .ok (tripleData 0 0 0)
      else s.acquireSeq Config.accAddr .start)
  | some j =>
    s.seqStep Config.accAddr (rdaccList s.eng.accCtrl) State.setJob
      (fun j s => s.respondEngine .ok (tripleData (axisValue j 0) (axisValue j 1) (axisValue j 2))) id j

/-- RDMAG's list (R157): six reads at 0x03 .. 0x08. -/
def rdmagList : List SeqOp := (List.range 6).map fun k => .read (regAt (0x03 + k))

/-- The triple by MAG_AXIS_ORDER (R157, R158), packed as R74 says. -/
def magData (order : AxisOrder) (w0 w1 w2 : BitVec 16) : Data :=
  match order with
  | .xyz => tripleData w0 w1 w2
  | .xzy => tripleData w0 w2 w1

/-- RDMAG (R157, R159): six reads in one transaction at MAG_ADDR, no gating, high byte first. -/
def execRdmag (s : State) : Host.Outcome State Fault Refusal :=
  match s.ports.seq with
  | none => .next (s.acquireSeq Config.magAddr .start)
  | some j =>
    s.seqStep Config.magAddr (fun _ => rdmagList) State.setJob
      (fun j s => s.respondEngine .ok
        (magData Config.magAxisOrder (j.wordBE 0x03) (j.wordBE 0x05) (j.wordBE 0x07))) id j

end Sys2Proof.Machine
end

