-- ==== Sys2Proof/Machine/Pressure.lean ====
section
/-! DEFINITION. The pressure stage (43_pressure.md R126 to R137). -/

namespace Sys2Proof.Machine

/-- Part 1 (R129): B6 and B3. -/
structure PresPart1 where
  b6 : Int
  b3 : Int
  deriving DecidableEq, Repr

/-- `pressure(b5, up, m)`, part 1 (R129). -/
def presPart1 (c : Calib) (b5 : Int) (m : BitVec 2) : PresPart1 :=
  let b6 := w32 (b5 - 4000)
  let x1 := w32 (fdiv (fdiv (c.B2 * b6 * b6) 4096) 2048)
  let x2 := w32 (fdiv (c.AC2 * b6) 2048)
  let x3 := w32 (x1 + x2)
  let b3 := w32 (fdiv (shl (c.AC1 * 4 + x3) m + 2) 4)
  ⟨b6, b3⟩

/-- Part 2 (R130): X3, B4 and B7. -/
structure PresPart2 where
  x3 : Int
  b4 : Int
  b7 : Int
  deriving DecidableEq, Repr

/-- `pressure(b5, up, m)`, part 2 (R130); B4 and B7 are unsigned. -/
def presPart2 (c : Calib) (q : PresPart1) (up : Int) (m : BitVec 2) : PresPart2 :=
  let x1 := w32 (fdiv (c.AC3 * q.b6) 8192)
  let x2 := w32 (fdiv (fdiv (c.B1 * q.b6 * q.b6) 4096) 65536)
  let x3 := w32 (fdiv (x1 + x2 + 2) 4)
  let b4 := u32 (fdiv (c.AC4 * u32 (x3 + 32768)) 32768)
  let b7 := u32 (u32 (up - q.b3) * fdiv 50000 ((2 ^ m.toNat : Nat) : Int))
  ⟨x3, b4, b7⟩

/-- `pressure(b5, up, m)`, part 3, the magnitude branch (R131), for B4 != 0. -/
def presQuotient (b4 b7 : Int) : Int :=
  if b7 < 0x80000000 then w32 (fdiv (b7 * 2) b4) else w32 (fdiv b7 b4 * 2)

/-- Part 4 (R132): the last X1 and X2, and P. -/
structure PresPart4 where
  x1 : Int
  x2 : Int
  p : Int
  deriving DecidableEq, Repr

/-- `pressure(b5, up, m)`, part 4, the final correction (R132); the last divisor is 2^4 (C1). -/
def presPart4 (p : Int) : PresPart4 :=
  let x1 := w32 (sq (fdiv p 256))
  let x1 := w32 (fdiv (x1 * 3038) 65536)
  let x2 := w32 (fdiv (-7357 * p) 65536)
  let p := w32 (p + fdiv (x1 + x2 + 3791) 16)
  ⟨x1, x2, p⟩

/-- `pressure(b5, up, m)` (R129 to R132); none where it raises DIV_ZERO (R131). -/
def pressure (c : Calib) (b5 : Reg32) (up : BitVec 19) (m : BitVec 2) : Option PresRegs :=
  let q1 := presPart1 c b5.toInt m
  let q2 := presPart2 c q1 (up.toNat : Int) m
  if q2.b4 = 0 then none
  else
    let q4 := presPart4 (presQuotient q2.b4 q2.b7)
    some
      { b6 := pattern32 q1.b6
        b3 := pattern32 q1.b3
        b4 := pattern32 q2.b4
        b7 := pattern32 q2.b7
        x1 := pattern32 q4.x1
        x2 := pattern32 q4.x2
        x3 := pattern32 q2.x3
        p := pattern32 q4.p }

/-- RDPRES's list (R126, R136): trigger, wait with the bus held, three reads. -/
def rdpresList (m : BitVec 2) : List SeqOp :=
  [.trigger (regAt 0xF4) (pressureTrigger m) .pressureRequested, .settle (waitPMin m),
    .read (regAt 0xF6), .read (regAt 0xF7), .read (regAt 0xF8)]

/-- The raw pressure is there (PressureRead, R127): SEQ's slot holds it, off the bus. -/
def State.holdRaw (j : Job) (up : BitVec 19) (s : State) : State :=
  s.setJob { j with phase := .offBus, up := up, walk := some .pressureRead }

/-- RDPRES's first step (R126, R127, R134): the stage check before anything else, then OSS and B5 sampled once, then the bus,
or with SRC = 1 PressureRequested at once: the walk is the same with no bus I/O. -/
def State.startPres (s : State) : State :=
  if s.eng.b5Valid then
    let j := { Job.start with mode := s.eng.oss, b5 := s.eng.b5, walk := some .temperatureRead }
    if s.eng.src = 1 then
      { s with ports.engBusy := true }.setJob { j with phase := .offBus, walk := some .pressureRequested }
    else s.acquireSeq Config.baroAddr j
  else s.respondEngine .stageOrder (zextData s.eng.stage.code)

/-- With the raw pressure in hand: the computation (Compensated, R127), or DIV_ZERO (R131, R135). -/
def State.computePres (j : Job) (s : State) : State :=
  match pressure s.eng.cal j.b5 j.up j.mode with
  | none => s.endCycle.respondEngine .divZero 2
  | some r => s.setJob { j with phase := .computed r, walk := some .compensated }

/-- RDPRES's commit and response (R126): the registers of R132, UP, and STAGE <- Idle. -/
def State.commitPres (up : BitVec 19) (r : PresRegs) (s : State) : State :=
  { s with
    eng.up := up
    eng.b6 := r.b6
    eng.b3 := r.b3
    eng.b4 := r.b4
    eng.b7 := r.b7
    eng.x1 := r.x1
    eng.x2 := r.x2
    eng.x3 := r.x3
    eng.p := r.p
    eng.stage := .idle
    eng.presWritten := true }.respondEngine .ok (zextData r.p)

/-- The work off the bus: with SRC = 1 first UP from INJ_UP (R126, R128); then compute, then commit. -/
def State.finishPres (j : Job) (s : State) : State :=
  match j.phase with
  | .computed r => s.commitPres j.up r
  | _ => if j.walk = some .pressureRequested then s.holdRaw j s.eng.injUp else s.computePres j

/-- RDPRES (R126 to R135). -/
def execRdpres (s : State) : Host.Outcome State Fault Refusal :=
  match s.ports.seq with
  | none => .next s.startPres
  | some j =>
    s.seqStep Config.baroAddr (fun j => rdpresList j.mode)
      (fun j s => s.holdRaw j
        (composeUp (j.byte (regAt 0xF6)) (j.byte (regAt 0xF7)) (j.byte (regAt 0xF8)) j.mode))
      State.finishPres State.endCycle j

end Sys2Proof.Machine
end

