-- ==== Sys2Proof/Machine/Temperature.lean ====
section
/-! DEFINITION. The temperature stage (42_temperature.md R116 to R123). -/

namespace Sys2Proof.Machine

/-- X1 of R117. -/
def tempX1 (c : Calib) (ut : BitVec 16) : Int := w32 (fdiv (((ut.toNat : Int) - c.AC6) * c.AC5) 32768)

/-- The divisor of X2 (R117). -/
def tempDen (c : Calib) (ut : BitVec 16) : Int := tempX1 c ut + c.MD

/-- X2 of R117, for a nonzero divisor. -/
def tempX2 (c : Calib) (ut : BitVec 16) : Int := w32 (fdiv (c.MC * 2048) (tempDen c ut))

/-- B5 of R117. -/
def tempB5 (c : Calib) (ut : BitVec 16) : Int := w32 (tempX1 c ut + tempX2 c ut)

/-- T of R117, in 0.1 degree Celsius (R118). -/
def tempT (c : Calib) (ut : BitVec 16) : Int := w32 (fdiv (tempB5 c ut + 8) 16)

/-- `temperature(ut)` (R117); none where it raises DIV_ZERO. -/
def temperature (c : Calib) (ut : BitVec 16) : Option TempRegs :=
  if tempDen c ut = 0 then none
  else some
    { x1 := pattern32 (tempX1 c ut)
      x2 := pattern32 (tempX2 c ut)
      b5 := pattern32 (tempB5 c ut)
      t := pattern32 (tempT c ut) }

/-- RDTEMP's list (R116, R122): trigger, wait with the bus held, two reads. -/
def rdtempList : List SeqOp :=
  [.trigger (regAt 0xF4) 0x2E .temperatureRequested, .settle waitTMin, .read (regAt 0xF6), .read (regAt 0xF7)]

/-- RDTEMP's arithmetic, commit and response (R116, R121): DIV_ZERO writes STAGE <- Idle and nothing else. -/
def State.finishTemp (ut : BitVec 16) (s : State) : State :=
  match temperature s.eng.cal ut with
  | none => s.endCycle.respondEngine .divZero 1
  | some r =>
    { s with
      eng.ut := ut
      eng.x1 := r.x1
      eng.x2 := r.x2
      eng.b5 := r.b5
      eng.t := r.t
      eng.stage := .temperatureRead
      eng.tempWritten := true }.respondEngine .ok (zextData r.t)

/-- RDTEMP (R116, R120, R121): with SRC = 1 from INJ_UT and no bus I/O; otherwise one transaction at BARO_ADDR, walking from
Idle (a new cycle starts) over TemperatureRequested to TemperatureRead. -/
def execRdtemp (s : State) : Host.Outcome State Fault Refusal :=
  match s.ports.seq with
  | none =>
    .next (if s.eng.src = 1 then s.finishTemp s.eng.injUt
      else s.acquireSeq Config.baroAddr { Job.start with walk := some .idle })
  | some j =>
    s.seqStep Config.baroAddr (fun _ => rdtempList) (fun j s => s.setJob { j with walk := some .temperatureRead })
      (fun j s => s.finishTemp (j.wordBE 0xF6)) State.endCycle j

end Sys2Proof.Machine
end

