-- ==== Sys2Proof/Machine/Dispatch.lean ====
section
/-! DEFINITION. One arm per command: the next step of the command in the requester's slot. -/

namespace Sys2Proof.Machine

def exec (i : Instr) (s : State) : Host.Outcome State Fault Refusal :=
  match i with
  | .busBegin addr => Sys2Proof.Machine.execBusBegin addr s
  | .busEnd => Sys2Proof.Machine.execBusEnd s
  | .rdb reg => Sys2Proof.Machine.execRdb reg s
  | .rdw reg flip => Sys2Proof.Machine.execRdw reg flip s
  | .wrb reg data => Sys2Proof.Machine.execWrb reg data s
  | .ldcfg addr reg => Sys2Proof.Machine.execLdcfg addr reg s
  | .stcfg addr reg data => Sys2Proof.Machine.execStcfg addr reg data s
  | .acqcal => Sys2Proof.Machine.execAcqcal s
  | .setoss mode => Sys2Proof.Machine.execSetoss mode s
  | .rdtemp => Sys2Proof.Machine.execRdtemp s
  | .rdpres => Sys2Proof.Machine.execRdpres s
  | .wrcal sel imm => Sys2Proof.Machine.execWrcal sel imm s
  | .setsrc src => Sys2Proof.Machine.execSetsrc src s
  | .injut imm => Sys2Proof.Machine.execInjut imm s
  | .injup imm => Sys2Proof.Machine.execInjup imm s
  | .rdreg sel => Sys2Proof.Machine.execRdreg sel s
  | .acccfg data => Sys2Proof.Machine.execAcccfg data s
  | .magcfg sel data => Sys2Proof.Machine.execMagcfg sel data s
  | .rdacc => Sys2Proof.Machine.execRdacc s
  | .rdmag => Sys2Proof.Machine.execRdmag s

end Sys2Proof.Machine
end

