-- ==== Sys2Proof/Machine/Advance.lean ====
section
/-! DEFINITION. How a pending command word is read and takes its next step (30_encoding.md R68, R72; 41_engine_config.md
R101). -/

namespace Sys2Proof.Machine

/-- The next step of bus port n's command (R31(c), R72): with none pending nothing happens; else its word is decoded for a
bus port, and answered ILLEGAL (R167) or carried out. -/
def advancePort (n : Nat) (s : State) : Host.Outcome State Fault Refusal :=
  match s.slot n with
  | none => .next s
  | some sl =>
    match decode .bus sl.word with
    | .error _ => .next ((s.actAs n).respondPort .illegal (zextData sl.word))
    | .ok i => exec i (s.actAs n)

/-- The next step of the engine command (R31(b), R101), as for a bus port. -/
def advanceSeq (s : State) : Host.Outcome State Fault Refusal :=
  match s.ports.pendEng with
  | none => .next s
  | some w =>
    match decode .engine w with
    | .error _ => .next (s.respondEngine .illegal (zextData w))
    | .ok i => exec i s

/-- A requester's or SEQ's next step. -/
def advance (c : Requester) (s : State) : Host.Outcome State Fault Refusal :=
  match c with
  | .port n => advancePort n s
  | .seq => advanceSeq s

/-- One move of one agent (R1, R176). -/
def perform (e : Event) (s : State) : Host.Outcome State Fault Refusal :=
  match e with
  | .issue p w => .next (s.accept p w)
  | .advance c => advance c s
  | .grant c => .next (s.grant c)
  | .reset => .next s.resetMachine

end Sys2Proof.Machine
end

