-- ==== Sys2Proof/Machine/Step.lean ====
section
/-! DEFINITION. One step of the machine: the next move of the environment is used up and made (00_scope.md R1, R176). -/

namespace Sys2Proof.Machine

/-- One step. -/
def step (s : State) : Host.Outcome State Fault Refusal := perform s.nextEvent s.dropEvent

/-- The host's way to place an instruction: its word, delivered to the port of its class, with that requester to move. -/
def State.withFetchWord (s : State) (nbits w : Nat) : State := s.deliver (tableWord nbits w)

end Sys2Proof.Machine
end

