-- ==== Sys2Proof/Safety.lean ====
section
/-! DEFINITION. What counts as a safe run, in the terms the statements use: the transport order obeys mutual exclusion
(20_memory.md R53; 40_bus_arbiter.md R78), the state obeys the invariant that the rules imply, and a reserved status is
never answered (60_exceptions.md R166). -/

namespace Sys2Proof.Machine

/-- Who holds the bus, and at what address, after one more entry of the transport order; none where the entry breaks mutual
exclusion: a grant of an owned bus, or a retarget, release or primitive of a requester that does not hold it, or a
primitive to another address than the active one (R53, R78). -/
def BusEvent.after (e : BusEvent) (held : Option (Requester × DevAddr)) : Option (Option (Requester × DevAddr)) :=
  match e, held with
  | .grant c a, none => some (some (c, a))
  | .retarget c a, some (o, _) => if o = c then some (some (c, a)) else none
  | .release c, some (o, _) => if o = c then some none else none
  | .prim c p _, some (o, a) => if o = c ∧ p.dev = a then some (some (o, a)) else none
  | .reset, _ => some none
  | _, _ => none

/-- The transport order, newest first, replayed from a free bus; none where it breaks mutual exclusion. -/
def replay : List BusEvent → Option (Option (Requester × DevAddr))
  | [] => some none
  | e :: older => (replay older).bind e.after

/-- The holder and address the registers OWNER and ACTIVE_ADDR give (R11, R12). -/
def Arbiter.held (a : Arbiter) : Option (Requester × DevAddr) := a.owner.map fun c => (c, a.activeAddr)

/-- The kind under which a bus-family command acquires the bus (R76, R80, R81, R95, R96); END acquires nothing. -/
def acquireKind : Instr → WaitKind
  | .busBegin a | .ldcfg a _ | .stcfg a _ _ => .explicit a
  | _ => .auto

/-- The bus-family commands that end in the release (R86, R95, R96). -/
def releasesBus : Instr → Bool
  | .busEnd | .ldcfg _ _ | .stcfg _ _ _ => true
  | .busBegin _ | .rdb _ | .rdw _ _ | .wrb _ _ => false
  | .acqcal | .setoss _ | .rdtemp | .rdpres | .wrcal _ _ | .setsrc _ | .injut _ | .injup _ => false
  | .rdreg _ | .acccfg _ | .magcfg _ _ | .rdacc | .rdmag => false

/-- The word on a bus port is a command that can wait for the bus or hold it: any bus-family command but END. -/
def waitsForBus (w : Word) : Prop := ∃ i, decode .bus w = .ok i ∧ i ≠ .busEnd

/-- The engine commands that run on SEQ for more than one step. -/
def usesSeq : Instr → Bool
  | .acqcal | .rdtemp | .rdpres | .acccfg _ | .magcfg _ _ | .rdacc | .rdmag => true
  | .setoss _ | .wrcal _ _ | .setsrc _ | .injut _ | .injup _ | .rdreg _ => false
  | .busBegin _ | .busEnd | .rdb _ | .rdw _ _ | .wrb _ _ | .ldcfg _ _ | .stcfg _ _ _ => false

/-- The device an engine command's transaction is with (R103, R116, R126, R151 to R157). -/
def seqDev : Instr → DevAddr
  | .acccfg _ | .rdacc => Config.accAddr
  | .magcfg _ _ | .rdmag => Config.magAddr
  | _ => Config.baroAddr

/-- The command in PEND_ENG is `i`. -/
def Ports.engineCommand (p : Ports) (i : Instr) : Prop := ∃ w, p.pendEng = some w ∧ decode .engine w = .ok i

/-- The states with codes 1, 3, 4 and 5, which exist only while RDTEMP or RDPRES runs (R21). -/
def Stage.transient : Stage → Bool
  | .temperatureRequested | .pressureRequested | .pressureRead | .compensated => true
  | .idle | .temperatureRead => false

/-- A requester at its await (R76, R83): in WAITQ under its kind, or granted the bus at the address of that kind. -/
def State.waitsOrHolds (s : State) (c : Requester) (kind : WaitKind) : Prop :=
  s.waitKind c = some kind ∨ (s.arb.owner = some c ∧ ∀ a, kind = .explicit a → s.arb.activeAddr = a)

/-- A bus port's slot agrees with the arbiter (R31(c), R83): awaiting is in WAITQ or already granted; past a primitive is
owning. -/
def State.slotAgrees (s : State) (sl : Slot) : Prop :=
  match sl.phase with
  | .issued => True
  | .awaiting =>
    ∃ i, decode .bus sl.word = .ok i ∧ i ≠ .busEnd ∧ s.waitsOrHolds (.port sl.port) (acquireKind i)
  | .firstByte _ | .done _ _ => waitsForBus sl.word ∧ s.arb.owner = some (.port sl.port)

/-- SEQ, running command i, agrees with the arbiter (R31(b), R99). -/
def State.jobAgrees (s : State) (i : Instr) : SeqPhase → Prop
  | .awaiting => s.waitsOrHolds .seq (.explicit (seqDev i))
  | .running => s.arb.owner = some .seq ∧ s.arb.activeAddr = seqDev i
  | .offBus | .computed _ => s.arb.owner ≠ some .seq ∧ s.waitKind .seq = none

/-- SEQ's slot agrees with the engine port and the arbiter (R31(b), R99, R101). -/
def State.seqAgrees (s : State) : Prop :=
  match s.ports.seq with
  | none => s.arb.owner ≠ some .seq ∧ s.waitKind .seq = none
  | some j => ∃ i, s.ports.engineCommand i ∧ usesSeq i = true ∧ s.jobAgrees i j.phase

/-- The invariant. It holds at reset and every step keeps it; it rules out the states no run reaches. -/
structure Consistent (s : State) : Prop where
  /-- R12, R78: ACTIVE_V = 1 exactly when OWNER != none. -/
  active : s.arb.activeV = s.arb.owner.isSome
  /-- R12: ACTIVE_ADDR is 0 while the bus is free. -/
  activeAddr : s.arb.owner = none → s.arb.activeAddr = 0
  /-- R13, R78: LAST_V = 0 implies OWNER = none; the owner's address is the last one granted. -/
  last : s.arb.owner ≠ none → s.arb.lastV = true ∧ s.arb.lastAddr = s.arb.activeAddr
  /-- R14: WAITQ is in canonical form, so a requester is in it at most once. -/
  waitq : Rising Waiter.key s.arb.waitq
  /-- R76: an auto member entered when an address had been active. -/
  waitAuto : ∀ c, s.waitKind c = some .auto → s.arb.lastV = true
  /-- R77: the owner does not wait. -/
  ownerLeft : ∀ c, s.arb.owner = some c → s.waitKind c = none
  /-- R15: one slot per port, in canonical form, of ports that exist. -/
  pend : Rising Slot.port s.ports.pend
  ports : ∀ sl ∈ s.ports.pend, sl.port < Config.nPorts
  slots : ∀ n sl, s.slot n = some sl → s.slotAgrees sl
  /-- R76, R82: a port in WAITQ has a command at its await. -/
  waiters : ∀ n, s.waitKind (.port n) ≠ none → ∃ sl, s.slot n = some sl ∧ sl.phase = .awaiting
  seq : s.seqAgrees
  /-- R31(a). -/
  busy : s.ports.engBusy = s.ports.seq.isSome
  /-- R21, R101, R127: what is committed to STAGE is 0 or 2. -/
  stage : s.eng.stage.transient = false
  /-- R21: the reading cycle walks only while RDTEMP or RDPRES runs. -/
  walk : ∀ j, s.ports.seq = some j → j.walk ≠ none →
    s.ports.engineCommand .rdtemp ∨ s.ports.engineCommand .rdpres
  /-- R22, R29: while B5_VALID holds, B5 has been written. -/
  b5 : s.eng.stage = .temperatureRead → s.eng.tempWritten = true
  /-- R53, R78: the transport order obeys mutual exclusion and ends with the owner and address the registers show. -/
  order : replay s.out.order = some s.arb.held

/-- The statuses a rule produces (R166): all but CONFIG and TIMEOUT. -/
def Status.produced : Status → Bool
  | .config | .timeout => false
  | .ok | .illegal | .xportFatal | .xportRetry | .notOwner | .noTarget | .stageOrder | .divZero => true

/-- No reserved status has been answered, and none is about to be (R97, R100, R166). -/
structure NoReserved (s : State) : Prop where
  answered : ∀ r ∈ s.out.responses, r.status.produced = true
  inSlot : ∀ sl ∈ s.ports.pend, ∀ st d, sl.phase = .done st d → st.produced = true
  inSeq : ∀ j, s.ports.seq = some j → ∀ st d, j.failure = some (st, d) → st.produced = true

/-! Frames: what a command's step leaves as it was, on either side of the machine. What it does to the arbiter (`arb`) and to
the devices (`out.order`: SCP has no memory of its own, and a device byte changes only by a TWrite in the transport order) is
said by each statement. -/

/-- A step of a bus-family command leaves the engine's registers, the engine port, SEQ and the other ports' slots. -/
structure PortFrame (s t : State) : Prop where
  eng : t.eng = s.eng
  pendEng : t.ports.pendEng = s.ports.pendEng
  engBusy : t.ports.engBusy = s.ports.engBusy
  seq : t.ports.seq = s.ports.seq
  slots : ∀ m, m ≠ s.out.actPort → t.slot m = s.slot m
  events : t.out.events = s.out.events
  ticks : t.out.ticks = s.out.ticks
  actPort : t.out.actPort = s.out.actPort

/-- The port's command is complete: one response, and PEND is none (R72). -/
structure PortAnswered (s t : State) (st : Status) (d : Data) : Prop extends PortFrame s t where
  slot : t.slot s.out.actPort = none
  responses : t.out.responses = ⟨.bus s.out.actPort, st, d⟩ :: s.out.responses

/-- The port's command goes on to a later point, with no response yet. -/
structure PortGoesOn (s t : State) (sl : Slot) (ph : Phase) : Prop extends PortFrame s t where
  slot : t.slot s.out.actPort = some { sl with phase := ph }
  responses : t.out.responses = s.out.responses

/-- A step of an engine-family command leaves every bus port's slot. -/
structure EngineFrame (s t : State) : Prop where
  pend : t.ports.pend = s.ports.pend
  events : t.out.events = s.out.events
  ticks : t.out.ticks = s.out.ticks
  actPort : t.out.actPort = s.out.actPort

/-- The engine command is complete: one response, PEND_ENG and SEQ's slot are none, ENG_BUSY is 0 (R72, R101). -/
structure EngineAnswered (s t : State) (st : Status) (d : Data) : Prop extends EngineFrame s t where
  pendEng : t.ports.pendEng = none
  engBusy : t.ports.engBusy = false
  seq : t.ports.seq = none
  responses : t.out.responses = ⟨.engine, st, d⟩ :: s.out.responses

/-- The engine command goes on, with no response yet and SEQ's slot holding `j`. -/
structure EngineGoesOn (s t : State) (j : Job) : Prop extends EngineFrame s t where
  pendEng : t.ports.pendEng = s.ports.pendEng
  seq : t.ports.seq = some j
  responses : t.out.responses = s.out.responses

/-! Runs of one command. -/

/-- None of the command's primitives is performed. -/
def Phase.beforeBus : Phase → Bool
  | .issued | .awaiting => true
  | .firstByte _ | .done _ _ => false

/-- The next `k` steps of command `i` with no other agent's step between them. -/
def execTimes (i : Instr) : Nat → State → Host.Outcome State Fault Refusal
  | 0, s => .next s
  | k + 1, s =>
    match exec i s with
    | .next t => execTimes i k t
    | .fault r => .fault r
    | .refused r => .refused r

/-- SEQ has just been granted the bus at `dev` for a command of which no primitive is performed, whose slot holds `j`. -/
structure SeqGranted (s : State) (dev : DevAddr) (j : Job) : Prop where
  owner : s.arb.owner = some .seq
  addr : s.arb.activeAddr = dev
  seq : s.ports.seq = some j
  phase : j.phase = .awaiting
  step : j.step = 0
  reads : j.reads = []
  failure : j.failure = none

/-- SEQ's transaction is over (R99): the arbiter is as END leaves it, LAST kept. -/
def released (a : Arbiter) : Arbiter := { a with owner := none, activeV := false, activeAddr := 0 }

/-- The primitive that a bus-family command issues in its next step if its requester is the owner (R89, R91, R93, R95, R96);
none for BEGIN and END, and none past the last primitive. -/
def State.portPrim (s : State) : Instr → Option Prim
  | .rdb reg => if s.phase.beforeBus then some (.read s.arb.activeAddr reg) else none
  | .rdw reg _ =>
    match s.phase with
    | .issued | .awaiting => some (.read s.arb.activeAddr reg)
    | .firstByte _ => some (.read s.arb.activeAddr (nextReg reg))
    | .done _ _ => none
  | .wrb reg data => if s.phase.beforeBus then some (.write s.arb.activeAddr reg data) else none
  | .ldcfg addr reg => if s.phase.beforeBus then some (.read addr reg) else none
  | .stcfg addr reg data => if s.phase.beforeBus then some (.write addr reg data) else none
  | .busBegin _ | .busEnd => none
  | .acqcal | .setoss _ | .rdtemp | .rdpres | .wrcal _ _ | .setsrc _ | .injut _ | .injup _ => none
  | .rdreg _ | .acccfg _ | .magcfg _ _ | .rdacc | .rdmag => none

/-- The list of primitives and waits of an engine command (R103, R116, R126, R151 to R157). -/
def seqList (i : Instr) (s : State) (j : Job) : List SeqOp :=
  match i with
  | .acqcal => acqcalList
  | .rdtemp => rdtempList
  | .rdpres => rdpresList j.mode
  | .acccfg data => [.write (regAt 0x20) data]
  | .magcfg sel data => [.write (regAt sel.toNat) data]
  | .rdacc => rdaccList s.eng.accCtrl j
  | .rdmag => rdmagList
  | _ => []

/-- The primitive of an element of SEQ's list; none for a wait. -/
def SeqOp.prim (dev : DevAddr) : SeqOp → Option Prim
  | .read reg => some (.read dev reg)
  | .write reg v => some (.write dev reg v)
  | .trigger reg v _ => some (.write dev reg v)
  | .settle _ => none

/-- The primitive that SEQ, running command i, issues in its next step as owner: the element of its list that is next is
p. -/
def State.seqPrimNext (s : State) (i : Instr) (p : Prim) : Prop :=
  ∃ j op, s.ports.seq = some j ∧ j.failure = none ∧ (seqList i s j)[j.step]? = some op ∧ op.prim (seqDev i) = some p

end Sys2Proof.Machine
end

