-- ==== Sys2Proof/Certificates/Slice0/Obligations.lean ====
section
/-! DEFINITION. The statements for the provers. Each docstring names the rules of spec/ it rests on. -/

open Sys2Proof Sys2Proof.Machine

/-! Encoding. -/

/-- R75: the worked encodings, written and read, and its two ILLEGAL words. -/
def Obligations.WorkedEncodings : Prop :=
  (∀ p ∈ ([(.busBegin 0x77, 0x0F700000), (.wrb 0xF4 0x2E, 0x280F42E0), (.rdw 0xF6 0, 0x200F6000),
      (.rdw 0x28 1, 0x20028008), (.rdb 0x27, 0x18027000), (.ldcfg 0x19 0x20, 0x31920000),
      (.stcfg 0x1E 0x02 0x00, 0x39E02000)] : List (Instr × Word)),
    encode p.1 = p.2 ∧ decode .bus p.2 = .ok p.1) ∧
  (∀ p ∈ ([(.setoss 3, 0x88000003), (.wrcal 4 32757, 0xA1007FF5), (.injut 27898, 0xB0006CFA),
      (.injup 23843, 0xB8005D23), (.rdreg 18, 0xC4800000), (.rdreg 27, 0xC6C00000), (.acccfg 0x57, 0xC8000057),
      (.magcfg 2 0, 0xD0800000)] : List (Instr × Word)),
    encode p.1 = p.2 ∧ decode .engine p.2 = .ok p.1) ∧
  decode .bus 0x0F700001 = .error .mustBeZero ∧ decode .engine 0x0F700000 = .error .wrongPort

/-- R63 to R66, R70: the word of every well-formed command, at every value of its fields, decodes to that command on a port
of its class. -/
def Obligations.DecodeOfEncode : Prop :=
  ∀ i : Instr, i.wellFormed = true → decode i.portClass (encode i) = .ok i

/-- R65, R67: a word that decodes is the word of the command it decodes to, so it holds no don't-care bit; and the command
is well-formed. -/
def Obligations.EncodeOfDecode : Prop :=
  ∀ k w i, decode k w = .ok i → encode i = w ∧ i.wellFormed = true

/-- R62: the two port classes and their opcodes, and a command of one family on a port of the other class. -/
def Obligations.PortClassesSeparate : Prop :=
  (∀ w i, decode .bus w = .ok i →
    i.portClass = .bus ∧ 0x01 ≤ (fieldOpc w).toNat ∧ (fieldOpc w).toNat ≤ 0x07 ∧
      decode .engine w = .error .wrongPort) ∧
  (∀ w i, decode .engine w = .ok i →
    i.portClass = .engine ∧ 0x10 ≤ (fieldOpc w).toNat ∧ (fieldOpc w).toNat ≤ 0x1C ∧
      decode .bus w = .error .wrongPort)

/-- R67, R69: the reserved opcodes, and SEL out of range, decode as ILLEGAL. -/
def Obligations.ReservedWordsIllegal : Prop :=
  (∀ k w, (fieldOpc w = 0x00 ∨ (0x08 ≤ (fieldOpc w).toNat ∧ (fieldOpc w).toNat ≤ 0x0F) ∨ 0x1D ≤ (fieldOpc w).toNat) →
    decode k w = .error .reservedOpcode) ∧
  (∀ sel imm, 11 ≤ sel.toNat → decode .engine (encode (.wrcal sel imm)) = .error .selOutOfRange) ∧
  (∀ sel, 29 ≤ sel.toNat → decode .engine (encode (.rdreg sel)) = .error .selOutOfRange) ∧
  (∀ sel data, 3 ≤ sel.toNat → decode .engine (encode (.magcfg sel data)) = .error .selOutOfRange)

/-- R166, R21: the STATUS codes and the STAGE codes. -/
def Obligations.ResponseAndStageCodes : Prop :=
  ([.ok, .illegal, .xportFatal, .xportRetry, .notOwner, .noTarget, .stageOrder, .divZero, .config, .timeout] :
    List Status).map (fun st => st.code.toNat) = [0, 1, 2, 3, 4, 5, 6, 7, 8, 9] ∧
  ([.idle, .temperatureRequested, .temperatureRead, .pressureRequested, .pressureRead, .compensated] :
    List Stage).map (fun st => st.code.toNat) = [0, 1, 2, 3, 4, 5]

/-! The step. -/

/-- R72, R101: the step of a requester whose pending word decodes to a command is that command's `exec`, after the
environment's move is used up and, for a bus port, the port is noted as the acting one; neither touches SCP. -/
def Obligations.StepRunsDecodedCommand : Prop :=
  (∀ s n sl i, s.nextEvent = .advance (.port n) → s.slot n = some sl → decode .bus sl.word = .ok i →
    step s = exec i (s.dropEvent.actAs n) ∧ (s.dropEvent.actAs n).out.actPort = n ∧
      (s.dropEvent.actAs n).arb = s.arb ∧ (s.dropEvent.actAs n).ports = s.ports ∧ (s.dropEvent.actAs n).eng = s.eng ∧
      (s.dropEvent.actAs n).out.order = s.out.order ∧ (s.dropEvent.actAs n).out.responses = s.out.responses) ∧
  (∀ s w i, s.nextEvent = .advance .seq → s.ports.pendEng = some w → decode .engine w = .ok i →
    step s = exec i s.dropEvent ∧
      s.dropEvent.arb = s.arb ∧ s.dropEvent.ports = s.ports ∧ s.dropEvent.eng = s.eng ∧
      s.dropEvent.out.order = s.out.order ∧ s.dropEvent.out.responses = s.out.responses)

/-- R167: an ILLEGAL word is answered (1, the word), with no state change and no bus access, and the port's next word is
accepted after it. -/
def Obligations.IllegalWordAnswered : Prop :=
  Status.illegal.code = 1 ∧
  (∀ s n sl e, s.nextEvent = .advance (.port n) → s.slot n = some sl → decode .bus sl.word = .error e →
    ∃ t, step s = .next t ∧ PortAnswered (s.dropEvent.actAs n) t .illegal (sl.word.setWidth 64) ∧
      t.arb = s.arb ∧ t.out.order = s.out.order ∧
      ∀ w, n < Config.nPorts → (t.accept (.bus n) w).slot n = some ⟨n, w, .issued⟩) ∧
  (∀ s w e, s.nextEvent = .advance .seq → s.ports.pendEng = some w → decode .engine w = .error e →
    ∃ t, step s = .next t ∧ EngineAnswered s.dropEvent t .illegal (w.setWidth 64) ∧
      t.arb = s.arb ∧ t.eng = s.eng ∧ t.out.order = s.out.order ∧
      ∀ w', (t.accept .engine w').ports.pendEng = some w')

/-- R15, R72: a port accepts a word only when its slot is none; otherwise nothing changes. The model's reading (log entry 4):
a word offered to a port number at or above N_PORTS changes nothing either. -/
def Obligations.PortAcceptsWhenFree : Prop :=
  (∀ s n w, s.nextEvent = .issue (.bus n) w →
    ∃ t, step s = .next t ∧ t.arb = s.arb ∧ t.eng = s.eng ∧ t.out.order = s.out.order ∧
      t.out.responses = s.out.responses ∧ t.ports.pendEng = s.ports.pendEng ∧ t.ports.seq = s.ports.seq ∧
      t.ports.engBusy = s.ports.engBusy ∧ (∀ m, m ≠ n → t.slot m = s.slot m) ∧
      (n < Config.nPorts → s.slot n = none → t.slot n = some ⟨n, w, .issued⟩) ∧
      (Config.nPorts ≤ n ∨ s.slot n ≠ none → t.slot n = s.slot n)) ∧
  (∀ s w, s.nextEvent = .issue .engine w →
    ∃ t, step s = .next t ∧ t.arb = s.arb ∧ t.eng = s.eng ∧ t.out.order = s.out.order ∧
      t.out.responses = s.out.responses ∧ t.ports.pend = s.ports.pend ∧ t.ports.seq = s.ports.seq ∧
      t.ports.engBusy = s.ports.engBusy ∧
      (s.ports.pendEng = none → t.ports.pendEng = some w) ∧
      (s.ports.pendEng ≠ none → t.ports.pendEng = s.ports.pendEng))

/-- R226, R227: reset from any state. The registers R227 leaves unspecified carry the mark that a RDREG of them draws a free
value (R29; the marks are the model's form, log entry 1). -/
def Obligations.ResetStep : Prop :=
  ∀ s, s.nextEvent = .reset →
    ∃ t, step s = .next t ∧
      t.arb = { owner := none, activeV := false, activeAddr := 0, lastV := false, lastAddr := 0, waitq := [] } ∧
      t.ports = { pend := [], pendEng := none, engBusy := false, seq := none } ∧
      t.eng.cal = ⟨0x0198, 0xFFB8, 0xC7D1, 0x7FE5, 0x7FF5, 0x5A71, 0x182E, 0x0004, 0x8000, 0xDDF9, 0x0B34⟩ ∧
      t.eng.oss = 0 ∧ t.eng.stage = .idle ∧ t.eng.src = 0 ∧ t.eng.injUt = 27898 ∧ t.eng.injUp = 23843 ∧
      t.eng.accCtrl = Config.accCtrlDefault ∧ t.eng.tempWritten = false ∧ t.eng.presWritten = false ∧
      t.out.responses = s.out.responses ∧ t.out.order = .reset :: s.out.order

/-! The arbiter. -/

/-- R77: the grant step, for every choice of a member, and that it is no step when the bus is owned or the requester does
not wait (a move with no enabled step changes nothing: the model's form, log entry 4). -/
def Obligations.GrantStep : Prop :=
  ∀ s c, s.nextEvent = .grant c →
    ∃ t, step s = .next t ∧ t.ports = s.ports ∧ t.eng = s.eng ∧ t.out.responses = s.out.responses ∧
      (∀ kind, s.arb.owner = none → s.waitKind c = some kind →
        t.arb.owner = some c ∧ t.arb.activeV = true ∧ t.arb.lastV = true ∧ t.arb.lastAddr = t.arb.activeAddr ∧
        (∀ a, kind = .explicit a → t.arb.activeAddr = a) ∧ (kind = .auto → t.arb.activeAddr = s.arb.lastAddr) ∧
        t.waitKind c = none ∧ (∀ c', c' ≠ c → t.waitKind c' = s.waitKind c') ∧
        t.out.order = .grant c t.arb.activeAddr :: s.out.order) ∧
      (s.arb.owner ≠ none ∨ s.waitKind c = none → t.arb = s.arb ∧ t.out.order = s.out.order)

/-- R76, R81, R83: BEGIN. The owner retargets and is answered; another requester enters WAITQ, free bus or not; once granted
it is answered. -/
def Obligations.BeginCompletes : Prop :=
  (∀ s addr, s.phase = .issued → s.arb.owner = some s.self →
    ∃ t, exec (.busBegin addr) s = .next t ∧ PortAnswered s t .ok 0 ∧
      t.arb = { s.arb with activeAddr := addr, lastV := true, lastAddr := addr } ∧
      t.out.order = .retarget s.self addr :: s.out.order) ∧
  (∀ s sl addr, s.slot s.out.actPort = some sl → sl.phase = .issued → s.arb.owner ≠ some s.self →
    ∃ t, exec (.busBegin addr) s = .next t ∧ PortGoesOn s t sl .awaiting ∧
      t.arb = { s.arb with waitq := t.arb.waitq } ∧ t.waitKind s.self = some (.explicit addr) ∧
      (∀ c, c ≠ s.self → t.waitKind c = s.waitKind c) ∧ t.out.order = s.out.order) ∧
  (∀ s addr, s.phase = .awaiting → s.arb.owner = some s.self →
    ∃ t, exec (.busBegin addr) s = .next t ∧ PortAnswered s t .ok 0 ∧ t.arb = s.arb ∧ t.out.order = s.out.order)

/-- R86, R87: END by the owner, and by any other requester. -/
def Obligations.EndCompletes : Prop :=
  (∀ s, s.arb.owner = some s.self →
    ∃ t, exec .busEnd s = .next t ∧ PortAnswered s t .ok 0 ∧
      t.arb = { s.arb with owner := none, activeV := false, activeAddr := 0 } ∧
      t.out.order = .release s.self :: s.out.order) ∧
  (∀ s, s.arb.owner ≠ some s.self →
    ∃ t, exec .busEnd s = .next t ∧ PortAnswered s t .notOwner 0 ∧ t.arb = s.arb ∧ t.out.order = s.out.order)

/-- R89: RDB by the owner, from its start or its grant: one TRead at the active address, then the byte; the bus is kept. -/
def Obligations.RdbCompletes : Prop :=
  ∀ s sl reg b, s.slot s.out.actPort = some sl → sl.phase = .issued ∨ sl.phase = .awaiting →
    s.arb.owner = some s.self → s.nextAnswer = .ok b →
    ∃ t₁ t, exec (.rdb reg) s = .next t₁ ∧ PortGoesOn s t₁ sl (.done .ok (b.setWidth 64)) ∧ t₁.arb = s.arb ∧
      t₁.out.order = .prim s.self (.read s.arb.activeAddr reg) (.ok b) :: s.out.order ∧
      exec (.rdb reg) t₁ = .next t ∧ PortAnswered s t .ok (b.setWidth 64) ∧ t.arb = s.arb ∧
      t.out.order = t₁.out.order

/-- R44, R91, R43: RDW by the owner: a TRead at REG, one at (REG + 1) mod 256, then the composed word. -/
def Obligations.RdwCompletes : Prop :=
  ∀ s sl reg flip b0 b1 rest, s.slot s.out.actPort = some sl → sl.phase = .issued ∨ sl.phase = .awaiting →
    s.arb.owner = some s.self → s.out.answers = .ok b0 :: .ok b1 :: rest →
    ∃ t₁ t₂ t, exec (.rdw reg flip) s = .next t₁ ∧ PortGoesOn s t₁ sl (.firstByte b0) ∧ t₁.arb = s.arb ∧
      t₁.out.order = .prim s.self (.read s.arb.activeAddr reg) (.ok b0) :: s.out.order ∧
      exec (.rdw reg flip) t₁ = .next t₂ ∧ t₂.arb = s.arb ∧
      t₂.out.order =
        .prim s.self (.read s.arb.activeAddr (BitVec.ofNat 8 ((reg.toNat + 1) % 256))) (.ok b1) :: t₁.out.order ∧
      exec (.rdw reg flip) t₂ = .next t ∧
      PortAnswered s t .ok ((if flip = 0 then b0 ++ b1 else b1 ++ b0 : BitVec 16).setWidth 64) ∧
      t.arb = s.arb ∧ t.out.order = t₂.out.order

/-- R93: WRB by the owner: one TWrite at the active address, then the response; the bus is kept. -/
def Obligations.WrbCompletes : Prop :=
  ∀ s sl reg data b, s.slot s.out.actPort = some sl → sl.phase = .issued ∨ sl.phase = .awaiting →
    s.arb.owner = some s.self → s.nextAnswer = .ok b →
    ∃ t₁ t, exec (.wrb reg data) s = .next t₁ ∧ PortGoesOn s t₁ sl (.done .ok 0) ∧ t₁.arb = s.arb ∧
      t₁.out.order = .prim s.self (.write s.arb.activeAddr reg data) (.ok b) :: s.out.order ∧
      exec (.wrb reg data) t₁ = .next t ∧ PortAnswered s t .ok 0 ∧ t.arb = s.arb ∧ t.out.order = t₁.out.order

/-- R95, R98: LDCFG granted the bus at ADDR: one TRead, the release, then the byte; and LDCFG by the owner of an open
transaction, which it retargets and ends. -/
def Obligations.LdcfgCompletes : Prop :=
  (∀ s sl addr reg b, s.slot s.out.actPort = some sl → sl.phase = .awaiting → s.arb.owner = some s.self →
    s.nextAnswer = .ok b →
    ∃ t₁ t, exec (.ldcfg addr reg) s = .next t₁ ∧ PortGoesOn s t₁ sl (.done .ok (b.setWidth 64)) ∧ t₁.arb = s.arb ∧
      exec (.ldcfg addr reg) t₁ = .next t ∧ PortAnswered s t .ok (b.setWidth 64) ∧ t.arb = released s.arb ∧
      t.out.order = .release s.self :: .prim s.self (.read addr reg) (.ok b) :: s.out.order) ∧
  (∀ s sl addr reg b, s.slot s.out.actPort = some sl → sl.phase = .issued → s.arb.owner = some s.self →
    s.nextAnswer = .ok b →
    ∃ t₁ t, exec (.ldcfg addr reg) s = .next t₁ ∧ exec (.ldcfg addr reg) t₁ = .next t ∧
      PortAnswered s t .ok (b.setWidth 64) ∧
      t.arb = { s.arb with owner := none, activeV := false, activeAddr := 0, lastV := true, lastAddr := addr } ∧
      t.out.order =
        .release s.self :: .prim s.self (.read addr reg) (.ok b) :: .retarget s.self addr :: s.out.order)

/-- R96, R98: STCFG, as LDCFG with one TWrite. -/
def Obligations.StcfgCompletes : Prop :=
  (∀ s sl addr reg data b, s.slot s.out.actPort = some sl → sl.phase = .awaiting → s.arb.owner = some s.self →
    s.nextAnswer = .ok b →
    ∃ t₁ t, exec (.stcfg addr reg data) s = .next t₁ ∧ PortGoesOn s t₁ sl (.done .ok 0) ∧ t₁.arb = s.arb ∧
      exec (.stcfg addr reg data) t₁ = .next t ∧ PortAnswered s t .ok 0 ∧ t.arb = released s.arb ∧
      t.out.order = .release s.self :: .prim s.self (.write addr reg data) (.ok b) :: s.out.order) ∧
  (∀ s sl addr reg data b, s.slot s.out.actPort = some sl → sl.phase = .issued → s.arb.owner = some s.self →
    s.nextAnswer = .ok b →
    ∃ t₁ t, exec (.stcfg addr reg data) s = .next t₁ ∧ exec (.stcfg addr reg data) t₁ = .next t ∧
      PortAnswered s t .ok 0 ∧
      t.arb = { s.arb with owner := none, activeV := false, activeAddr := 0, lastV := true, lastAddr := addr } ∧
      t.out.order =
        .release s.self :: .prim s.self (.write addr reg data) (.ok b) :: .retarget s.self addr :: s.out.order)

/-- R80, R171: RDB, RDW and WRB by a requester that is not the owner: NO_TARGET, without WAITQ and without a bus access, when
no address has been active; otherwise an auto member of WAITQ. -/
def Obligations.AutoBegin : Prop :=
  ∀ i, (∃ reg, i = .rdb reg) ∨ (∃ reg flip, i = .rdw reg flip) ∨ (∃ reg data, i = .wrb reg data) →
    (∀ s, s.phase = .issued → s.arb.owner ≠ some s.self → s.arb.lastV = false →
      ∃ t, exec i s = .next t ∧ PortAnswered s t .noTarget 0 ∧ t.arb = s.arb ∧ t.out.order = s.out.order) ∧
    (∀ s sl, s.slot s.out.actPort = some sl → sl.phase = .issued → s.arb.owner ≠ some s.self → s.arb.lastV = true →
      ∃ t, exec i s = .next t ∧ PortGoesOn s t sl .awaiting ∧ t.arb = { s.arb with waitq := t.arb.waitq } ∧
        t.waitKind s.self = some .auto ∧ (∀ c, c ≠ s.self → t.waitKind c = s.waitKind c) ∧
        t.out.order = s.out.order)

/-- R95, R96: LDCFG and STCFG by a requester that is not the owner enter WAITQ for ADDR, free bus or not. -/
def Obligations.ConfigTransferWaits : Prop :=
  ∀ i addr, (∃ reg, i = .ldcfg addr reg) ∨ (∃ reg data, i = .stcfg addr reg data) →
    ∀ s sl, s.slot s.out.actPort = some sl → sl.phase = .issued → s.arb.owner ≠ some s.self →
      ∃ t, exec i s = .next t ∧ PortGoesOn s t sl .awaiting ∧ t.arb = { s.arb with waitq := t.arb.waitq } ∧
        t.waitKind s.self = some (.explicit addr) ∧ (∀ c, c ≠ s.self → t.waitKind c = s.waitKind c) ∧
        t.out.order = s.out.order

/-- R76, R83: at its await a bus-family command that acquires the bus has no step until its requester is the owner
(a move with no enabled step changes nothing: the model's form, log entry 4). -/
def Obligations.AwaitHasNoStep : Prop :=
  ∀ i s, i.portClass = .bus → i ≠ .busEnd → s.phase = .awaiting → s.arb.owner ≠ some s.self → exec i s = .next s

/-- R90, R170: a failed primitive of a bus port is reported with the DATA of R170, no further primitive is issued, and RDB,
RDW and WRB keep the bus while LDCFG and STCFG release it. `p` is the primitive the command issues at this point, from its
start as the owner of an open transaction or from its grant; `arb` and `base` are the arbiter and the transport order just
before it, which differ from those of `s` only by the retarget with which LDCFG and STCFG of the owner begin (R76). -/
def Obligations.PortFailureReported : Prop :=
  ∀ s sl i p kind code arb base, s.slot s.out.actPort = some sl → s.arb.owner = some s.self →
    s.nextAnswer = .fail kind code →
    (arb = s.arb ∧ base = s.out.order ∧
      (((sl.phase = .issued ∨ sl.phase = .awaiting) ∧
          ((∃ reg, i = .rdb reg ∧ p = .read s.arb.activeAddr reg) ∨
           (∃ reg flip, i = .rdw reg flip ∧ p = .read s.arb.activeAddr reg) ∨
           (∃ reg data, i = .wrb reg data ∧ p = .write s.arb.activeAddr reg data))) ∨
       (∃ reg flip b0, sl.phase = .firstByte b0 ∧ i = .rdw reg flip ∧ p = .read s.arb.activeAddr (reg + 1)) ∨
       (sl.phase = .awaiting ∧
          ((∃ a reg, i = .ldcfg a reg ∧ p = .read a reg) ∨
           (∃ a reg data, i = .stcfg a reg data ∧ p = .write a reg data))))) ∨
    (∃ a, sl.phase = .issued ∧ arb = { s.arb with activeAddr := a, lastV := true, lastAddr := a } ∧
      base = .retarget s.self a :: s.out.order ∧
      ((∃ reg, i = .ldcfg a reg ∧ p = .read a reg) ∨ (∃ reg data, i = .stcfg a reg data ∧ p = .write a reg data))) →
    ∃ t₁ t st d, exec i s = .next t₁ ∧ t₁.arb = arb ∧ t₁.out.order = .prim s.self p (.fail kind code) :: base ∧
      exec i t₁ = .next t ∧ PortAnswered s t st d ∧
      (kind = .fatal → st.code = 2) ∧ (kind = .retryable → st.code = 3) ∧
      d.extractLsb' 0 8 = code ∧ d.extractLsb' 16 7 = p.dev ∧ d.extractLsb' 24 40 = 0 ∧
      (∀ dev reg, p = .read dev reg → d.extractLsb' 8 8 = reg ∧ d.getLsbD 23 = false) ∧
      (∀ dev reg v, p = .write dev reg v → d.extractLsb' 8 8 = reg ∧ d.getLsbD 23 = true) ∧
      ((∃ a reg, i = .ldcfg a reg) ∨ (∃ a reg data, i = .stcfg a reg data) →
        t.arb = released arb ∧ t.out.order = .release s.self :: t₁.out.order) ∧
      ((∃ reg, i = .rdb reg) ∨ (∃ reg flip, i = .rdw reg flip) ∨ (∃ reg data, i = .wrb reg data) →
        t.arb = arb ∧ t.out.order = t₁.out.order)

/-- R3, R42, R84: the frame of the seven bus-family commands. They write no engine register, touch neither the engine port
nor another port's slot nor another requester's place in WAITQ. What they add to the transport order is their requester's
own, and a device byte changes by none but its TWrite: the retarget of an explicit acquire, the release, and the one
primitive that `State.portPrim` gives, the address and register by which the meaning issues it (R89, R91, R93, R95, R96),
with the transport's next answer. BEGIN and END add no primitive; RDB, RDW and LDCFG add no TWrite. -/
def Obligations.BusCommandFrame : Prop :=
  ∀ i s t, i.portClass = .bus → exec i s = .next t →
    PortFrame s t ∧ (∀ c, c ≠ s.self → t.waitKind c = s.waitKind c) ∧
    ∃ l, t.out.order = l ++ s.out.order ∧
      (l = [] ∨
       (∃ a, acquireKind i = .explicit a ∧ l = [.retarget s.self a]) ∨
       (releasesBus i = true ∧ l = [.release s.self]) ∨
       (∃ p, s.portPrim i = some p ∧
         (l = [.prim s.self p s.nextAnswer] ∨
          (acquireKind i = .explicit p.dev ∧ l = [.prim s.self p s.nextAnswer, .retarget s.self p.dev])))) ∧
      ((∃ a, i = .busBegin a) ∨ i = .busEnd → ∀ c p r, BusEvent.prim c p r ∉ l) ∧
      ((∃ reg, i = .rdb reg) ∨ (∃ reg flip, i = .rdw reg flip) ∨ (∃ a reg, i = .ldcfg a reg) →
        ∀ c dev reg v r, BusEvent.prim c (.write dev reg v) r ∉ l)

/-! The engine: commands that use no bus. -/

/-- R105: WRCAL replaces one entry, given by its index, and ends the cycle; every other register is as it was. -/
def Obligations.WrcalCompletes : Prop :=
  ∀ s sel imm, sel.toNat ≤ 10 →
    ∃ t, exec (.wrcal sel imm) s = .next t ∧ EngineAnswered s t .ok 0 ∧ t.arb = s.arb ∧
      t.out.order = s.out.order ∧ t.eng = { s.eng with cal := t.eng.cal, stage := .idle } ∧
      t.eng.cal.get sel.toNat = some imm ∧ ∀ k, k ≠ sel.toNat → t.eng.cal.get k = s.eng.cal.get k

/-- R106, R108, R109, R110: SETOSS, SETSRC, INJUT and INJUP complete in every state, write their register, and SETSRC ends
the cycle. -/
def Obligations.SettersComplete : Prop :=
  (∀ s mode, ∃ t, exec (.setoss mode) s = .next t ∧ EngineAnswered s t .ok 0 ∧ t.arb = s.arb ∧
    t.out.order = s.out.order ∧ t.eng = { s.eng with oss := mode }) ∧
  (∀ s src, ∃ t, exec (.setsrc src) s = .next t ∧ EngineAnswered s t .ok 0 ∧ t.arb = s.arb ∧
    t.out.order = s.out.order ∧ t.eng = { s.eng with src := src, stage := .idle }) ∧
  (∀ s imm, ∃ t, exec (.injut imm) s = .next t ∧ EngineAnswered s t .ok 0 ∧ t.arb = s.arb ∧
    t.out.order = s.out.order ∧ t.eng = { s.eng with injUt := imm }) ∧
  (∀ s imm, ∃ t, exec (.injup imm) s = .next t ∧ EngineAnswered s t .ok 0 ∧ t.arb = s.arb ∧
    t.out.order = s.out.order ∧ t.eng = { s.eng with injUp := imm })

/-- R28, R29, R111: RDREG answers the pattern of its register and changes none. The registers R29 leaves arbitrary answer
their pattern once written, and a free value before (the form of the draw is the model's, log entry 1). -/
def Obligations.RdregCompletes : Prop :=
  ∀ s sel, sel.toNat ≤ 28 →
    ∃ t, ∃ v : Reg32, exec (.rdreg sel) s = .next t ∧ EngineAnswered s t .ok (v.setWidth 64) ∧ t.arb = s.arb ∧
      t.eng = s.eng ∧ t.out.order = s.out.order ∧
      (sel = 0 → v = s.eng.cal.ac1.signExtend 32) ∧ (sel = 1 → v = s.eng.cal.ac2.signExtend 32) ∧
      (sel = 2 → v = s.eng.cal.ac3.signExtend 32) ∧ (sel = 3 → v = s.eng.cal.ac4.setWidth 32) ∧
      (sel = 4 → v = s.eng.cal.ac5.setWidth 32) ∧ (sel = 5 → v = s.eng.cal.ac6.setWidth 32) ∧
      (sel = 6 → v = s.eng.cal.b1.signExtend 32) ∧ (sel = 7 → v = s.eng.cal.b2.signExtend 32) ∧
      (sel = 8 → v = s.eng.cal.mb.signExtend 32) ∧ (sel = 9 → v = s.eng.cal.mc.signExtend 32) ∧
      (sel = 10 → v = s.eng.cal.md.signExtend 32) ∧ (sel = 11 → v = s.eng.oss.setWidth 32) ∧
      (sel = 12 → v = s.eng.stage.code.setWidth 32) ∧ (sel = 13 → v = s.eng.src.setWidth 32) ∧
      (sel = 14 → v = s.eng.injUt.setWidth 32) ∧ (sel = 15 → v = s.eng.injUp.setWidth 32) ∧
      (sel = 28 → v = s.eng.accCtrl.setWidth 32) ∧
      (s.eng.tempWritten = true →
        (sel = 16 → v = s.eng.ut.setWidth 32) ∧ (sel = 18 → v = s.eng.b5) ∧ (sel = 19 → v = s.eng.t)) ∧
      (s.eng.presWritten = true →
        (sel = 17 → v = s.eng.up.setWidth 32) ∧ (sel = 20 → v = s.eng.b6) ∧ (sel = 21 → v = s.eng.b3) ∧
        (sel = 22 → v = s.eng.b4) ∧ (sel = 23 → v = s.eng.b7) ∧ (sel = 26 → v = s.eng.x3) ∧ (sel = 27 → v = s.eng.p)) ∧
      (s.eng.tempWritten = true ∨ s.eng.presWritten = true → (sel = 24 → v = s.eng.x1) ∧ (sel = 25 → v = s.eng.x2)) ∧
      (s.eng.tempWritten = false → sel = 16 ∨ sel = 18 ∨ sel = 19 → v = Config.freeWord s.out.draws) ∧
      (s.eng.presWritten = false →
        sel = 17 ∨ sel = 20 ∨ sel = 21 ∨ sel = 22 ∨ sel = 23 ∨ sel = 26 ∨ sel = 27 → v = Config.freeWord s.out.draws) ∧
      (s.eng.tempWritten = false → s.eng.presWritten = false → sel = 24 ∨ sel = 25 →
        v = Config.freeWord s.out.draws)

/-! The arithmetic. -/

/-- R7, R8: fdiv is the floor of the quotient; w32 and u32 are the wraps into their ranges; a pattern reads back as them. -/
def Obligations.FloorAndWraps : Prop :=
  (∀ a b : Int, b ≠ 0 → fdiv a b = ⌊(a : ℚ) / (b : ℚ)⌋) ∧
  (∀ x : Int, -2 ^ 31 ≤ w32 x ∧ w32 x < 2 ^ 31 ∧ (2 ^ 32 : Int) ∣ w32 x - x ∧ (pattern32 x).toInt = w32 x) ∧
  (∀ x : Int, 0 ≤ u32 x ∧ u32 x < 2 ^ 32 ∧ (2 ^ 32 : Int) ∣ u32 x - x ∧ ((pattern32 x).toNat : Int) = u32 x)

/-- R117, R119: the temperature stage for every raw word and every LUT: DIV_ZERO exactly when X1 + MD = 0, and otherwise the
exact floors, with no wrap, inside R119's bounds. -/
def Obligations.TemperatureExact : Prop :=
  ∀ (c : Calib) (ut : BitVec 16),
    let x1 : Int := ⌊(((ut.toNat : Int) - c.AC6) * c.AC5 : ℚ) / 2 ^ 15⌋
    (temperature c ut = none ↔ x1 + c.MD = 0) ∧
    ∀ r, temperature c ut = some r →
      r.x1.toInt = x1 ∧ r.x2.toInt = ⌊((c.MC : ℚ) * 2 ^ 11) / ((x1 + c.MD : Int) : ℚ)⌋ ∧
      r.b5.toInt = r.x1.toInt + r.x2.toInt ∧ r.t.toInt = ⌊((r.b5.toInt : ℚ) + 8) / 2 ^ 4⌋ ∧
      |r.x1.toInt| ≤ 2 ^ 17 ∧ |r.x2.toInt| ≤ 2 ^ 26 ∧ |r.b5.toInt| < 2 ^ 27 ∧ |r.t.toInt| < 2 ^ 23

/-- R128: the composed raw pressure is the floor of the triple by 2^(8 - m), and 2^(16 + m) bounds it, so 19 bits lose
nothing. -/
def Obligations.ComposeUpExact : Prop :=
  ∀ (msb lsb xlsb : Byte) (m : BitVec 2),
    ((composeUp msb lsb xlsb m).toNat : Int) =
      ⌊((msb.toNat * 2 ^ 16 + lsb.toNat * 2 ^ 8 + xlsb.toNat : ℕ) : ℚ) / 2 ^ (8 - m.toNat)⌋ ∧
    (composeUp msb lsb xlsb m).toNat < 2 ^ (16 + m.toNat)

/-- R9, R129 to R132: the pressure stage, every assignment with its wrap: DIV_ZERO exactly when B4 = 0, else the registers'
integers. -/
def Obligations.PressureFormula : Prop :=
  ∀ (c : Calib) (b5 : Reg32) (up : BitVec 19) (m : BitVec 2),
    ∃ b6 b3 x3 b4 b7 p : Int,
      b6 = w32 (b5.toInt - 4000) ∧
      b3 = w32 (fdiv ((c.AC1 * 4 +
        w32 (w32 (fdiv (fdiv (c.B2 * b6 * b6) (2 ^ 12)) (2 ^ 11)) + w32 (fdiv (c.AC2 * b6) (2 ^ 11)))) * 2 ^ m.toNat + 2) 4) ∧
      x3 = w32 (fdiv (w32 (fdiv (c.AC3 * b6) (2 ^ 13)) + w32 (fdiv (fdiv (c.B1 * b6 * b6) (2 ^ 12)) (2 ^ 16)) + 2) 4) ∧
      b4 = u32 (fdiv (c.AC4 * u32 (x3 + 32768)) (2 ^ 15)) ∧
      b7 = u32 (u32 ((up.toNat : Int) - b3) * fdiv 50000 (2 ^ m.toNat)) ∧
      p = (if b7 < 0x80000000 then w32 (fdiv (b7 * 2) b4) else w32 (fdiv b7 b4 * 2)) ∧
      (pressure c b5 up m = none ↔ b4 = 0) ∧
      ∀ r, pressure c b5 up m = some r →
        r.b6.toInt = b6 ∧ r.b3.toInt = b3 ∧ r.x3.toInt = x3 ∧ (r.b4.toNat : Int) = b4 ∧ (r.b7.toNat : Int) = b7 ∧
        r.x1.toInt = w32 (fdiv (w32 (sq (fdiv p (2 ^ 8))) * 3038) (2 ^ 16)) ∧
        r.x2.toInt = w32 (fdiv (-7357 * p) (2 ^ 16)) ∧
        r.p.toInt = w32 (p + fdiv (r.x1.toInt + r.x2.toInt + 3791) (2 ^ 4))

/-- 95_test_vectors.md L1.1 and V-P.1 to V-P.8: the golden vector; the same UP in modes 1 to 3; the golden triple in modes 1
to 3; the second branch; the largest UP; B4 = 0; a negative p; and wraps in part 1. -/
def Obligations.GoldenVectors : Prop :=
  temperature calDefault 27898 = some ⟨4743, -2344, 2399, 150⟩ ∧
  pressure calDefault 2399 23843 0 = some ⟨-1601, 422, 33457, 1171050000, 3454, -7859, 717, 69964⟩ ∧
  pressure calDefault 2399 23843 1 = some ⟨-1601, 845, 33457, 574950000, 832, -3859, 717, 34416⟩ ∧
  pressure calDefault 2399 23843 2 = some ⟨-1601, 1689, 33457, 276925000, 189, -1859, 717, 16686⟩ ∧
  pressure calDefault 2399 23843 3 = some ⟨-1601, 3378, 33457, 127906250, 38, -859, 717, 7831⟩ ∧
  [0, 1, 2, 3].map pressureTrigger = [0x34, 0x74, 0xB4, 0xF4] ∧
  [0, 1, 2, 3].map (composeUp 0x5D 0x23 0x00) = [23843, 47686, 95372, 190744] ∧
  pressure calDefault 2399 47686 1 = some ⟨-1601, 845, 33457, 1171025000, 3454, -7859, 717, 69962⟩ ∧
  pressure calDefault 2399 95372 2 = some ⟨-1601, 1689, 33457, 1171037500, 3454, -7859, 717, 69963⟩ ∧
  pressure calDefault 2399 190744 3 = some ⟨-1601, 3378, 33457, 1171037500, 3454, -7859, 717, 69963⟩ ∧
  pressure calDefault 2399 0 0 = some ⟨-1601, 422, 33457, 4273867296, 46078, -28681, 717, 256808⟩ ∧
  pressure calDefault 2399 524287 0 = some ⟨-1601, 422, 33457, 423446224, 445, -2842, 717, 25399⟩ ∧
  pressure { calDefault with ac4 := 0 } 2399 23843 0 = none ∧
  pressure { calDefault with ac4 := 1 } 2399 23843 0 =
    some ⟨-1601, 422, 1, 1171050000, 0xFF6C9472, 0x0D112284, 717, 0x8C61787C⟩ ∧
  pressure { calDefault with b2 := 32767, mc := -32768, md := -4742 } (-67104121) 23843 0 =
    some ⟨-67108121, -231010488, 221669116, 2549491056, 0, -3, 221819149, 258⟩

/-! The engine: commands that can use the bus. -/

/-- R76, R99, R101, R102: an engine command that uses the bus starts by entering WAITQ for its device, with ENG_BUSY set and
no register written; RDPRES samples OSS and B5. The reading cycle goes on from where STAGE is, but that RDTEMP begins a new
one (R21, R116; the walk is kept in SEQ's slot, log entry 6). -/
def Obligations.EngineCommandAcquires : Prop :=
  ∀ i s, s.ports.seq = none → s.arb.owner ≠ some .seq →
    (i = .acqcal ∧ s.eng.src = 0) ∨ (i = .rdtemp ∧ s.eng.src = 0) ∨
      (i = .rdpres ∧ s.eng.src = 0 ∧ s.eng.stage = .temperatureRead) ∨ (∃ data, i = .acccfg data) ∨
      (∃ sel data, i = .magcfg sel data ∧ sel.toNat ≤ 2) ∨
      (i = .rdacc ∧ s.eng.accCtrl.extractLsb' 4 4 ≠ 0) ∨ i = .rdmag →
    ∃ t j, exec i s = .next t ∧ EngineGoesOn s t j ∧ t.ports.engBusy = true ∧
      j.phase = .awaiting ∧ j.step = 0 ∧ j.reads = [] ∧ j.failure = none ∧
      (i = .rdpres → j.mode = s.eng.oss ∧ j.b5 = s.eng.b5) ∧
      t.arb = { s.arb with waitq := t.arb.waitq } ∧ t.waitKind .seq = some (.explicit (seqDev i)) ∧
      (∀ c, c ≠ .seq → t.waitKind c = s.waitKind c) ∧ t.out.order = s.out.order ∧ t.eng = s.eng ∧
      (i = .rdtemp → t.stageNow = .idle) ∧ (i ≠ .rdtemp → t.stageNow = s.eng.stage)

/-- R103, R104: ACQCAL with the injected source loads CAL_DEFAULT with no bus access. -/
def Obligations.AcqcalInjectedCompletes : Prop :=
  ∀ s, s.ports.seq = none → s.eng.src = 1 →
    ∃ t, exec .acqcal s = .next t ∧ EngineAnswered s t .ok 0 ∧ t.arb = s.arb ∧ t.out.order = s.out.order ∧
      t.eng = { s.eng with cal := calDefault, stage := .idle }

/-- R16, R103: ACQCAL granted the bus performs the 22 reads in ascending order, releases the bus, and commits the eleven
big-endian words with STAGE <- Idle. -/
def Obligations.AcqcalBusCompletes : Prop :=
  ∀ s j (f : Nat → Byte) rest, SeqGranted s Config.baroAddr j →
    s.out.answers = (List.range 22).map (fun k => Answer.ok (f k)) ++ rest →
    ∃ u t, execTimes .acqcal 23 s = .next u ∧ u.eng = s.eng ∧ exec .acqcal u = .next t ∧ EngineAnswered s t .ok 0 ∧
      t.arb = released s.arb ∧
      t.eng = { s.eng with cal := t.eng.cal, stage := .idle } ∧
      (∀ k, k ≤ 10 → t.eng.cal.get k = some (f (2 * k) ++ f (2 * k + 1))) ∧
      t.out.order = .release .seq ::
        (((List.range 22).map fun k =>
          BusEvent.prim .seq (.read Config.baroAddr (BitVec.ofNat 8 (0xAA + k))) (.ok (f k))).reverse ++ s.out.order)

/-- R116, R117: RDTEMP with the injected source, in one step (log entry 7): the result, or DIV_ZERO when X1 + MD = 0
(R121). -/
def Obligations.RdtempInjectedCompletes : Prop :=
  ∀ s, s.ports.seq = none → s.eng.src = 1 →
    ∃ t, exec .rdtemp s = .next t ∧ t.arb = s.arb ∧ t.out.order = s.out.order ∧
      (∀ r, temperature s.eng.cal s.eng.injUt = some r →
        EngineAnswered s t .ok (r.t.setWidth 64) ∧
        t.eng = { s.eng with
          ut := s.eng.injUt, x1 := r.x1, x2 := r.x2, b5 := r.b5, t := r.t, stage := .temperatureRead,
          tempWritten := true }) ∧
      (temperature s.eng.cal s.eng.injUt = none →
        EngineAnswered s t .divZero 1 ∧ t.eng = { s.eng with stage := .idle })

/-- R116, R121, R122, R123: RDTEMP granted the bus: the trigger, the wait with the bus held, two reads, the release, and only
then the arithmetic and the commit, or DIV_ZERO with STAGE <- Idle when X1 + MD = 0. The cycle walks over
TemperatureRequested (R21), with no register written (R101; the walk is kept in SEQ's slot, log entry 6). -/
def Obligations.RdtempBusCompletes : Prop :=
  ∀ s j x hi lo rest, SeqGranted s Config.baroAddr j → s.out.answers = .ok x :: .ok hi :: .ok lo :: rest →
    ∃ u₁ u, exec .rdtemp s = .next u₁ ∧ u₁.stageNow = .temperatureRequested ∧ u₁.arb = s.arb ∧ u₁.eng = s.eng ∧
      execTimes .rdtemp 4 u₁ = .next u ∧ u.stageNow = .temperatureRead ∧ u.arb = released s.arb ∧ u.eng = s.eng ∧
      u.out.order = .release .seq :: .prim .seq (.read Config.baroAddr 0xF7) (.ok lo) ::
        .prim .seq (.read Config.baroAddr 0xF6) (.ok hi) ::
        .prim .seq (.write Config.baroAddr 0xF4 0x2E) (.ok x) :: s.out.order ∧
      (∀ r, temperature s.eng.cal (hi ++ lo) = some r →
        ∃ t, exec .rdtemp u = .next t ∧ EngineAnswered s t .ok (r.t.setWidth 64) ∧ t.arb = u.arb ∧
          t.out.order = u.out.order ∧
          t.eng = { s.eng with
            ut := hi ++ lo, x1 := r.x1, x2 := r.x2, b5 := r.b5, t := r.t, stage := .temperatureRead,
            tempWritten := true }) ∧
      (temperature s.eng.cal (hi ++ lo) = none →
        ∃ t, exec .rdtemp u = .next t ∧ EngineAnswered s t .divZero 1 ∧ t.arb = u.arb ∧ t.out.order = u.out.order ∧
          t.eng = { s.eng with stage := .idle })

/-- R126, R134, R173: RDPRES with STAGE other than 2 is answered STAGE_ORDER with the code, with no bus access and no state
change. -/
def Obligations.RdpresStageOrder : Prop :=
  ∀ s, s.ports.seq = none → s.eng.stage.code ≠ 2 →
    ∃ t, exec .rdpres s = .next t ∧ EngineAnswered s t .stageOrder (s.eng.stage.code.setWidth 64) ∧ t.arb = s.arb ∧
      t.eng = s.eng ∧ t.out.order = s.out.order

/-- R126, R127, R128: RDPRES with the injected source and a valid B5: UP is INJ_UP as stored; the cycle walks from 2 over 3, 4
and 5 to 0, with no bus access and no register written before the commit; DIV_ZERO when the pressure has none (R131, R135).
The steps of the walk are the model's placing of it (log entries 6 and 7). -/
def Obligations.RdpresInjectedCompletes : Prop :=
  ∀ s, s.ports.seq = none → s.eng.stage = .temperatureRead → s.eng.src = 1 →
    ∃ t₁ t₂ t₃, exec .rdpres s = .next t₁ ∧ t₁.stageNow = .pressureRequested ∧ t₁.eng = s.eng ∧
      exec .rdpres t₁ = .next t₂ ∧ t₂.stageNow = .pressureRead ∧ t₂.eng = s.eng ∧ exec .rdpres t₂ = .next t₃ ∧
      (∀ r, pressure s.eng.cal s.eng.b5 s.eng.injUp s.eng.oss = some r →
        t₃.stageNow = .compensated ∧ t₃.eng = s.eng ∧
        ∃ t, exec .rdpres t₃ = .next t ∧ EngineAnswered s t .ok (r.p.setWidth 64) ∧ t.stageNow = .idle ∧
          t.arb = s.arb ∧ t.out.order = s.out.order ∧
          t.eng = { s.eng with
            up := s.eng.injUp, b6 := r.b6, b3 := r.b3, b4 := r.b4, b7 := r.b7, x1 := r.x1, x2 := r.x2, x3 := r.x3,
            p := r.p, stage := .idle, presWritten := true }) ∧
      (pressure s.eng.cal s.eng.b5 s.eng.injUp s.eng.oss = none →
        EngineAnswered s t₃ .divZero 2 ∧ t₃.arb = s.arb ∧ t₃.out.order = s.out.order ∧
        t₃.eng = { s.eng with stage := .idle })

/-- R126, R127, R128, R135, R136: RDPRES granted the bus, with the mode and B5 its slot sampled: the mode's trigger byte, the
wait, three reads, the release, the computation, and the commit; or DIV_ZERO with STAGE <- Idle when B4 = 0 (R131). The cycle
walks over 3, 4 and 5 to 0, with no register written before the commit (R101; the walk is kept in SEQ's slot, log
entry 6). -/
def Obligations.RdpresBusCompletes : Prop :=
  ∀ s j x msb lsb xlsb rest, SeqGranted s Config.baroAddr j →
    s.out.answers = .ok x :: .ok msb :: .ok lsb :: .ok xlsb :: rest →
    ∃ u₁ u, exec .rdpres s = .next u₁ ∧ u₁.stageNow = .pressureRequested ∧ u₁.arb = s.arb ∧ u₁.eng = s.eng ∧
      execTimes .rdpres 5 u₁ = .next u ∧ u.stageNow = .pressureRead ∧ u.arb = released s.arb ∧ u.eng = s.eng ∧
      u.out.order = .release .seq :: .prim .seq (.read Config.baroAddr 0xF8) (.ok xlsb) ::
        .prim .seq (.read Config.baroAddr 0xF7) (.ok lsb) :: .prim .seq (.read Config.baroAddr 0xF6) (.ok msb) ::
        .prim .seq (.write Config.baroAddr 0xF4 (BitVec.ofNat 8 (0x34 + j.mode.toNat * 64))) (.ok x) :: s.out.order ∧
      (∀ r, pressure s.eng.cal j.b5 (composeUp msb lsb xlsb j.mode) j.mode = some r →
        ∃ v t, exec .rdpres u = .next v ∧ v.stageNow = .compensated ∧ v.arb = u.arb ∧ v.eng = s.eng ∧
          exec .rdpres v = .next t ∧ EngineAnswered s t .ok (r.p.setWidth 64) ∧ t.stageNow = .idle ∧ t.arb = u.arb ∧
          t.out.order = u.out.order ∧
          t.eng = { s.eng with
            up := composeUp msb lsb xlsb j.mode, b6 := r.b6, b3 := r.b3, b4 := r.b4, b7 := r.b7, x1 := r.x1,
            x2 := r.x2, x3 := r.x3, p := r.p, stage := .idle, presWritten := true }) ∧
      (pressure s.eng.cal j.b5 (composeUp msb lsb xlsb j.mode) j.mode = none →
        ∃ t, exec .rdpres u = .next t ∧ EngineAnswered s t .divZero 2 ∧ t.arb = u.arb ∧ t.out.order = u.out.order ∧
          t.eng = { s.eng with stage := .idle })

/-- R151: ACCCFG granted the bus: one TWrite to 0x20, the release, and ACC_CTRL <- the byte. -/
def Obligations.AcccfgCompletes : Prop :=
  ∀ s j data x, SeqGranted s Config.accAddr j → s.nextAnswer = .ok x →
    ∃ t₁ t₂ t, exec (.acccfg data) s = .next t₁ ∧ exec (.acccfg data) t₁ = .next t₂ ∧ t₂.eng = s.eng ∧
      exec (.acccfg data) t₂ = .next t ∧ EngineAnswered s t .ok 0 ∧ t.arb = released s.arb ∧
      t.eng = { s.eng with accCtrl := data } ∧
      t.out.order = .release .seq :: .prim .seq (.write Config.accAddr 0x20 data) (.ok x) :: s.out.order

/-- R153, R154: MAGCFG granted the bus: one TWrite of the byte, unchanged, to register SEL, one of the three
that exist (R69); no register is written. -/
def Obligations.MagcfgCompletes : Prop :=
  ∀ s j sel data x, sel.toNat ≤ 2 → SeqGranted s Config.magAddr j → s.nextAnswer = .ok x →
    ∃ t₁ t₂ t, exec (.magcfg sel data) s = .next t₁ ∧ exec (.magcfg sel data) t₁ = .next t₂ ∧
      exec (.magcfg sel data) t₂ = .next t ∧ EngineAnswered s t .ok 0 ∧ t.arb = released s.arb ∧ t.eng = s.eng ∧
      t.out.order = .release .seq :: .prim .seq (.write Config.magAddr (sel.setWidth 8) data) (.ok x) :: s.out.order

/-- R152, R155, R156: RDACC powered off answers zeros with no bus access. Granted the bus, it reads the status and then the
two registers of exactly the axes whose status bit and cached enable bit are both set; the others are zero. `g`, `lo` and
`hi` give, for each axis, whether it is gated on and the bytes the transport answers. -/
def Obligations.RdaccCompletes : Prop :=
  (∀ s, s.ports.seq = none → s.eng.accCtrl.extractLsb' 4 4 = 0 →
    ∃ t, exec .rdacc s = .next t ∧ EngineAnswered s t .ok 0 ∧ t.arb = s.arb ∧ t.eng = s.eng ∧
      t.out.order = s.out.order) ∧
  (∀ s j status (g : Nat → Bool) (lo hi : Nat → Byte) rest, SeqGranted s Config.accAddr j →
    (∀ a, a < 3 → g a = (status.getLsbD a && s.eng.accCtrl.getLsbD a)) →
    s.out.answers = .ok status ::
      (([0, 1, 2].filter g).flatMap fun a => [Answer.ok (lo a), Answer.ok (hi a)]) ++ rest →
    ∃ u t, execTimes .rdacc (2 + 2 * ([0, 1, 2].filter g).length) s = .next u ∧ exec .rdacc u = .next t ∧
      EngineAnswered s t .ok
        (0#16 ++ (if g 2 then hi 2 ++ lo 2 else 0#16) ++ (if g 1 then hi 1 ++ lo 1 else 0#16) ++
          (if g 0 then hi 0 ++ lo 0 else 0#16)) ∧
      t.arb = released s.arb ∧ t.eng = s.eng ∧
      t.out.order = .release .seq ::
        ((BusEvent.prim .seq (.read Config.accAddr 0x27) (.ok status) ::
          ([0, 1, 2].filter g).flatMap fun a =>
            [BusEvent.prim .seq (.read Config.accAddr (BitVec.ofNat 8 (0x28 + 2 * a))) (.ok (lo a)),
              BusEvent.prim .seq (.read Config.accAddr (BitVec.ofNat 8 (0x29 + 2 * a))) (.ok (hi a))]).reverse ++
          s.out.order))

/-- R157, R158: RDMAG granted the bus: six reads at 0x03 .. 0x08, the release, and the triple, high byte first, in either
axis order. -/
def Obligations.RdmagCompletes : Prop :=
  ∀ s j (f : Nat → Byte) rest, SeqGranted s Config.magAddr j →
    s.out.answers = (List.range 6).map (fun k => Answer.ok (f k)) ++ rest →
    ∃ u t d, execTimes .rdmag 7 s = .next u ∧ exec .rdmag u = .next t ∧ EngineAnswered s t .ok d ∧
      (Config.magAxisOrder = .xyz → d = 0#16 ++ f 4 ++ f 5 ++ f 2 ++ f 3 ++ f 0 ++ f 1) ∧
      (Config.magAxisOrder = .xzy → d = 0#16 ++ f 2 ++ f 3 ++ f 4 ++ f 5 ++ f 0 ++ f 1) ∧
      t.arb = released s.arb ∧ t.eng = s.eng ∧
      t.out.order = .release .seq ::
        (((List.range 6).map fun k =>
          BusEvent.prim .seq (.read Config.magAddr (BitVec.ofNat 8 (0x03 + k))) (.ok (f k))).reverse ++ s.out.order)

/-- R102, R121, R135, R159, R170: a failed primitive of SEQ, whatever the command and the point: no further primitive, the
release, and the failure answered, with no register written but STAGE <- Idle for a failed reading. -/
def Obligations.SeqFailureReleases : Prop :=
  ∀ i s j op p kind code, usesSeq i = true → s.ports.seq = some j → j.phase = .awaiting ∨ j.phase = .running →
    s.arb.owner = some .seq → j.failure = none → (seqList i s j)[j.step]? = some op → op.prim (seqDev i) = some p →
    s.nextAnswer = .fail kind code →
    ∃ t₁ t₂ t, exec i s = .next t₁ ∧ t₁.eng = s.eng ∧
      t₁.out.order = .prim .seq p (.fail kind code) :: s.out.order ∧
      exec i t₁ = .next t₂ ∧ t₂.eng = s.eng ∧ t₂.out.order = .release .seq :: t₁.out.order ∧
      exec i t₂ = .next t ∧ EngineAnswered s t kind.status (xportData p code) ∧ t.arb = released s.arb ∧
      t.out.order = t₂.out.order ∧
      (i = .rdtemp ∨ i = .rdpres → t.eng = { s.eng with stage := .idle }) ∧
      (i ≠ .rdtemp → i ≠ .rdpres → t.eng = s.eng)

/-- R76, R99: SEQ at its await has no step until it is the owner, for every engine command that uses the bus (a move with no
enabled step changes nothing: the model's form, log entry 4). -/
def Obligations.SeqAwaitHasNoStep : Prop :=
  ∀ i s j, usesSeq i = true → s.ports.seq = some j → j.phase = .awaiting → s.arb.owner ≠ some .seq →
    exec i s = .next s

/-- R112: with the LUT and the injected raw word equal, RDTEMP of two machines in any two states gives the same response and,
when it is OK, the same UT, X1, X2, B5 and T. -/
def Obligations.RdtempDeterministic : Prop :=
  ∀ s s', s.ports.seq = none → s'.ports.seq = none → s.eng.src = 1 → s'.eng.src = 1 → s.eng.cal = s'.eng.cal →
    s.eng.injUt = s'.eng.injUt →
    ∃ t t' st d, exec .rdtemp s = .next t ∧ exec .rdtemp s' = .next t' ∧ EngineAnswered s t st d ∧
      EngineAnswered s' t' st d ∧
      (st = .ok → t.eng.ut = t'.eng.ut ∧ t.eng.x1 = t'.eng.x1 ∧ t.eng.x2 = t'.eng.x2 ∧ t.eng.b5 = t'.eng.b5 ∧
        t.eng.t = t'.eng.t)

/-- The frame of the thirteen engine-family commands, on the machine's side: no bus port's slot, and no other requester's
place in WAITQ. What they add to the transport order is SEQ's own, and a device byte changes by none but its TWrite: the
retarget to the command's device, the release, and the one primitive that is next in the command's list (R99;
`State.seqPrimNext`: `SeqOp.prim (seqDev i)` of the element `j.step` of `seqList i s j`), with the transport's next answer.
The commands that use no bus add nothing; ACQCAL, RDACC and RDMAG add no TWrite. -/
def Obligations.EngineCommandFrame : Prop :=
  ∀ i s t, i.portClass = .engine → exec i s = .next t →
    EngineFrame s t ∧ (∀ c, c ≠ .seq → t.waitKind c = s.waitKind c) ∧
    ∃ l, t.out.order = l ++ s.out.order ∧
      (l = [] ∨ l = [.retarget .seq (seqDev i)] ∨ l = [.release .seq] ∨
       (∃ p, s.seqPrimNext i p ∧ l = [.prim .seq p s.nextAnswer])) ∧
      (usesSeq i = false → l = []) ∧
      (i = .acqcal ∨ i = .rdacc ∨ i = .rdmag → ∀ c dev reg v r, BusEvent.prim c (.write dev reg v) r ∉ l)

/-- R18, R20, R23 to R27: the frame of all twenty commands on the engine's registers: which command may write which. -/
def Obligations.RegisterFrame : Prop :=
  ∀ i s t, exec i s = .next t →
    (i ≠ .acqcal → (∀ sel imm, i ≠ .wrcal sel imm) → t.eng.cal = s.eng.cal) ∧
    ((∀ m, i ≠ .setoss m) → t.eng.oss = s.eng.oss) ∧
    ((∀ v, i ≠ .setsrc v) → t.eng.src = s.eng.src) ∧
    ((∀ v, i ≠ .injut v) → t.eng.injUt = s.eng.injUt) ∧
    ((∀ v, i ≠ .injup v) → t.eng.injUp = s.eng.injUp) ∧
    ((∀ v, i ≠ .acccfg v) → t.eng.accCtrl = s.eng.accCtrl) ∧
    (i ≠ .rdtemp →
      t.eng.ut = s.eng.ut ∧ t.eng.b5 = s.eng.b5 ∧ t.eng.t = s.eng.t ∧ t.eng.tempWritten = s.eng.tempWritten) ∧
    (i ≠ .rdpres →
      t.eng.up = s.eng.up ∧ t.eng.b6 = s.eng.b6 ∧ t.eng.b3 = s.eng.b3 ∧ t.eng.b4 = s.eng.b4 ∧ t.eng.b7 = s.eng.b7 ∧
      t.eng.x3 = s.eng.x3 ∧ t.eng.p = s.eng.p ∧ t.eng.presWritten = s.eng.presWritten) ∧
    (i ≠ .rdtemp → i ≠ .rdpres → t.eng.x1 = s.eng.x1 ∧ t.eng.x2 = s.eng.x2) ∧
    (i ≠ .acqcal → i ≠ .rdtemp → i ≠ .rdpres → (∀ sel imm, i ≠ .wrcal sel imm) → (∀ v, i ≠ .setsrc v) →
      t.eng.stage = s.eng.stage)

/-- R101, R177: a step of an engine command that gives no response writes no engine register; and one that gives an error
writes none, except STAGE <- Idle of a failed RDTEMP or RDPRES. -/
def Obligations.ErrorsCommitNothing : Prop :=
  ∀ i s t, i.portClass = .engine → exec i s = .next t →
    (t.out.responses = s.out.responses → t.eng = s.eng) ∧
    (∀ r, t.out.responses = r :: s.out.responses → r.status ≠ .ok →
      t.eng = s.eng ∨ ((i = .rdtemp ∨ i = .rdpres) ∧ t.eng = { s.eng with stage := .idle }))

/-! The whole machine. -/

/-- R12, R78, R21, R227: the invariant holds at reset, and no reserved status stands anywhere. -/
def Obligations.ResetMeetsInvariant : Prop := Consistent State.reset ∧ NoReserved State.reset

/-- R53, R78: every step of every agent keeps the invariant, mutual exclusion on the transport order included. -/
def Obligations.StepKeepsInvariant : Prop := ∀ s t, Consistent s → step s = .next t → Consistent t

/-- R177: from a state of the invariant the machine never stops: every error of the spec is a response. -/
def Obligations.StepNeverStops : Prop := ∀ s, Consistent s → ∃ t, step s = .next t

/-- R97, R100, R166: CONFIG and TIMEOUT are never produced. -/
def Obligations.ReservedStatusesNotProduced : Prop := ∀ s t, NoReserved s → step s = .next t → NoReserved t

/-- R48, R49, R53, R78: a step issues at most one primitive, on behalf of the agent that moves, which is OWNER, and
addressed to ACTIVE_ADDR. -/
def Obligations.OnePrimitivePerStep : Prop :=
  ∀ s t, Consistent s → step s = .next t →
    ∃ l, t.out.order = l ++ s.out.order ∧
      ∀ c p r, BusEvent.prim c p r ∈ l →
        s.nextEvent = .advance c ∧ r = s.nextAnswer ∧ s.arb.owner = some c ∧ t.arb.owner = some c ∧
        p.dev = t.arb.activeAddr ∧ (l = [.prim c p r] ∨ ∃ a, l = [.prim c p r, .retarget c a])

/-- R72: a step gives at most one response, to the port whose command moved; its slot held a command and is then none. -/
def Obligations.OneResponsePerStep : Prop :=
  ∀ s t, step s = .next t →
    t.out.responses = s.out.responses ∨
    ∃ r, t.out.responses = r :: s.out.responses ∧
      ((∃ n, r.port = .bus n ∧ s.nextEvent = .advance (.port n) ∧ s.slot n ≠ none ∧ t.slot n = none) ∨
       (r.port = .engine ∧ s.nextEvent = .advance .seq ∧ s.ports.pendEng ≠ none ∧ t.ports.pendEng = none))

/-- R11: OWNER is written only by a grant of a free bus, by its owner's END or release, and by reset. -/
def Obligations.OwnerWriters : Prop :=
  ∀ s t, Consistent s → step s = .next t → t.arb.owner ≠ s.arb.owner →
    (∃ c, s.nextEvent = .grant c ∧ s.arb.owner = none ∧ t.arb.owner = some c) ∨
    (∃ c, s.nextEvent = .advance c ∧ s.arb.owner = some c ∧ t.arb.owner = none) ∨
    (s.nextEvent = .reset ∧ t.arb.owner = none)

/-- R21, R101, R111, R127: what STAGE holds is 0 or 2 at every step; so is the state of the reading cycle between engine
commands, and for the RDREG, or any other command without a bus sequence, that stands in the engine port; the cycle is in
one of the states 1, 3, 4 and 5 only while SEQ carries out an RDTEMP or an RDPRES. -/
def Obligations.StageBetweenCommands : Prop :=
  (∀ s, Consistent s → s.eng.stage.code = 0 ∨ s.eng.stage.code = 2) ∧
  (∀ s, Consistent s → s.ports.seq = none → s.stageNow.code = 0 ∨ s.stageNow.code = 2) ∧
  (∀ s i, Consistent s → s.ports.engineCommand i → usesSeq i = false →
    s.stageNow.code = 0 ∨ s.stageNow.code = 2) ∧
  (∀ s, Consistent s → s.stageNow.transient = true →
    s.ports.seq ≠ none ∧ (s.ports.engineCommand .rdtemp ∨ s.ports.engineCommand .rdpres))

/-- R13: LAST changes only at a grant or at the owner's retarget, which set it to the active address; END does not change
it, and only reset clears it. -/
def Obligations.LastWriters : Prop :=
  ∀ s t, Consistent s → step s = .next t →
    (s.nextEvent ≠ .reset → s.arb.lastV = true → t.arb.lastV = true) ∧
    (s.nextEvent ≠ .reset → t.arb.lastV ≠ s.arb.lastV ∨ t.arb.lastAddr ≠ s.arb.lastAddr →
      t.arb.lastV = true ∧ t.arb.lastAddr = t.arb.activeAddr ∧
        ∃ c, t.arb.owner = some c ∧
          (s.nextEvent = .grant c ∨ (s.nextEvent = .advance c ∧ s.arb.owner = some c))) ∧
    (s.nextEvent = .reset → t.arb.lastV = false ∧ t.arb.lastAddr = 0)

/-- R18: the LUT is written only by ACQCAL, WRCAL and reset, and each such write ends the cycle. -/
def Obligations.LutWriteEndsCycle : Prop :=
  ∀ s t, step s = .next t → t.eng.cal ≠ s.eng.cal →
    t.eng.stage = .idle ∧
    (s.nextEvent = .reset ∨
      (s.nextEvent = .advance .seq ∧ ∃ i, s.ports.engineCommand i ∧ (i = .acqcal ∨ ∃ sel imm, i = .wrcal sel imm)))

/-- R22, R120, R235, R236: STAGE becomes 2 only by a RDTEMP that answers OK and writes B5 in the same step. -/
def Obligations.B5ValidOnlyAfterRdtemp : Prop :=
  ∀ s t, step s = .next t → t.eng.stage = .temperatureRead → s.eng.stage ≠ .temperatureRead →
    s.nextEvent = .advance .seq ∧ s.ports.engineCommand .rdtemp ∧
    ∃ ut r, temperature s.eng.cal ut = some r ∧ t.eng.ut = ut ∧ t.eng.b5 = r.b5 ∧
      EngineAnswered s.dropEvent t .ok (r.t.setWidth 64)
end

