-- ==== Sys2Proof/Laws/Sets.lean ====
section
/-! SUPPORT. The laws of the keyed sets of Machine/Ops.lean: the canonical form is kept, a lookup after an update, and equal
sets are equal lists. -/

namespace Sys2Proof.Machine

variable {α : Type} {key : α → Nat}

theorem mem_insertKey {x y : α} {l : List α} (h : y ∈ insertKey key x l) : y = x ∨ y ∈ l := by
  induction l with
  | nil => simpa [insertKey] using h
  | cons z zs ih =>
    simp only [insertKey] at h
    split at h
    · simpa using h
    · split at h
      · rcases List.mem_cons.1 h with h | h
        · exact .inl h
        · exact .inr (List.mem_cons_of_mem _ h)
      · rcases List.mem_cons.1 h with h | h
        · exact .inr (h ▸ List.mem_cons_self)
        · exact (ih h).imp id (List.mem_cons_of_mem _)

theorem rising_insertKey {x : α} {l : List α} (h : Rising key l) : Rising key (insertKey key x l) := by
  induction l with
  | nil => simp [insertKey]
  | cons z zs ih =>
    obtain ⟨hz, hzs⟩ := List.pairwise_cons.1 h
    simp only [insertKey]
    split
    · refine List.pairwise_cons.2 ⟨fun y hy => ?_, h⟩
      rcases List.mem_cons.1 hy with rfl | hy
      · assumption
      · exact lt_trans ‹_› (hz y hy)
    · split
      · exact List.pairwise_cons.2 ⟨fun y hy => by simp [*], hzs⟩
      · refine List.pairwise_cons.2 ⟨fun y hy => ?_, ih hzs⟩
        rcases mem_insertKey hy with rfl | hy
        · omega
        · exact hz y hy

theorem rising_eraseKey {k : Nat} {l : List α} (h : Rising key l) : Rising key (eraseKey key k l) :=
  h.filter _

theorem mem_eraseKey {k : Nat} {l : List α} {y : α} : y ∈ eraseKey key k l ↔ y ∈ l ∧ key y ≠ k := by
  simp [eraseKey]

theorem findKey_some {k : Nat} {l : List α} {y : α} (h : findKey key k l = some y) : y ∈ l ∧ key y = k := by
  refine ⟨List.mem_of_find?_eq_some h, ?_⟩
  simpa using List.find?_some h

theorem findKey_none {k : Nat} {l : List α} : findKey key k l = none ↔ ∀ y ∈ l, key y ≠ k := by
  simp [findKey]

/-- In a rising list every member is found under its own key. -/
theorem findKey_mem {l : List α} (h : Rising key l) {y : α} (hy : y ∈ l) : findKey key (key y) l = some y := by
  induction l with
  | nil => simp at hy
  | cons z zs ih =>
    obtain ⟨hz, hzs⟩ := List.pairwise_cons.1 h
    rcases List.mem_cons.1 hy with rfl | hy
    · simp [findKey]
    · have hne : key z ≠ key y := (hz y hy).ne
      simpa [findKey, List.find?_cons, hne] using ih hzs hy

@[simp] theorem findKey_insertKey_self (x : α) (l : List α) : findKey key (key x) (insertKey key x l) = some x := by
  induction l with
  | nil => simp [insertKey, findKey]
  | cons z zs ih =>
    simp only [insertKey]
    split
    · simp [findKey]
    · split
      · simp [findKey]
      · have hne : key z ≠ key x := fun h => ‹¬key x = key z› h.symm
        simpa [findKey, List.find?_cons, hne] using ih

theorem findKey_insertKey_ne {x : α} {k : Nat} (hk : key x ≠ k) (l : List α) :
    findKey key k (insertKey key x l) = findKey key k l := by
  induction l with
  | nil => simp [insertKey, findKey, hk]
  | cons z zs ih =>
    simp only [insertKey]
    split
    · simp [findKey, List.find?_cons, hk]
    · split
      · next h => simp [findKey, hk, ← h]
      · by_cases hz : key z = k
        · simp [findKey, hz]
        · simpa [findKey, List.find?_cons, hz] using ih

@[simp] theorem findKey_eraseKey_self (k : Nat) (l : List α) : findKey key k (eraseKey key k l) = none := by
  simp [findKey_none, mem_eraseKey]

theorem findKey_eraseKey_ne {k k' : Nat} (hk : k' ≠ k) (l : List α) :
    findKey key k (eraseKey key k' l) = findKey key k l := by
  induction l with
  | nil => rfl
  | cons z zs ih =>
    by_cases hz : key z = k'
    · have : key z ≠ k := fun h => hk (hz ▸ h)
      simpa [findKey, eraseKey, List.find?_cons, hz, hk] using ih
    · by_cases hzk : key z = k
      · simp [findKey, eraseKey, hzk, hk.symm]
      · simpa [findKey, eraseKey, List.find?_cons, hz, hzk] using ih

/-- Two rising lists with the same lookups are the same list: the canonical form has one list for each set. -/
theorem rising_ext {l₁ l₂ : List α} (h₁ : Rising key l₁) (h₂ : Rising key l₂)
    (h : ∀ k, findKey key k l₁ = findKey key k l₂) : l₁ = l₂ := by
  have strict : ∀ l : List α, Rising key l → l.Pairwise (fun a b => key a < key b) := fun _ hl => hl
  have anti : ∀ a b : α, key a < key b → key b < key a → a = b := fun a b h₁ h₂ => absurd h₁ (by omega)
  refine List.Perm.eq_of_pairwise (le := fun a b => key a < key b)
    (fun a b _ _ hab hba => anti a b hab hba) (strict _ h₁) (strict _ h₂) ?_
  have nodup : ∀ l : List α, Rising key l → l.Nodup := fun l hl => hl.imp fun hab he => by
    subst he; exact absurd hab (lt_irrefl _)
  refine (List.perm_ext_iff_of_nodup (nodup _ h₁) (nodup _ h₂)).2 fun a => ⟨fun ha => ?_, fun ha => ?_⟩
  · exact (findKey_some ((h _).symm.trans (findKey_mem h₁ ha))).1
  · exact (findKey_some ((h _).trans (findKey_mem h₂ ha))).1

end Sys2Proof.Machine
end

