-- ==== Sys2Proof/Laws/State.lean ====
section
/-! SUPPORT. What each update of the state leaves of each part of it: one lemma for each part and update. -/

namespace Sys2Proof.Machine

@[simp] theorem State.respondPort_arb (st : Status) (d : Data) (s : State) : (s.respondPort st d).arb = s.arb := rfl
@[simp] theorem State.respondPort_eng (st : Status) (d : Data) (s : State) : (s.respondPort st d).eng = s.eng := rfl
@[simp] theorem State.respondPort_ports_pendEng (st : Status) (d : Data) (s : State) : (s.respondPort st d).ports.pendEng = s.ports.pendEng := rfl
@[simp] theorem State.respondPort_ports_engBusy (st : Status) (d : Data) (s : State) : (s.respondPort st d).ports.engBusy = s.ports.engBusy := rfl
@[simp] theorem State.respondPort_ports_seq (st : Status) (d : Data) (s : State) : (s.respondPort st d).ports.seq = s.ports.seq := rfl
@[simp] theorem State.respondPort_ports_pend (st : Status) (d : Data) (s : State) : (s.respondPort st d).ports.pend = eraseKey Slot.port s.out.actPort s.ports.pend := rfl
@[simp] theorem State.respondPort_out_events (st : Status) (d : Data) (s : State) : (s.respondPort st d).out.events = s.out.events := rfl
@[simp] theorem State.respondPort_out_ticks (st : Status) (d : Data) (s : State) : (s.respondPort st d).out.ticks = s.out.ticks := rfl
@[simp] theorem State.respondPort_out_answers (st : Status) (d : Data) (s : State) : (s.respondPort st d).out.answers = s.out.answers := rfl
@[simp] theorem State.respondPort_out_draws (st : Status) (d : Data) (s : State) : (s.respondPort st d).out.draws = s.out.draws := rfl
@[simp] theorem State.respondPort_out_order (st : Status) (d : Data) (s : State) : (s.respondPort st d).out.order = s.out.order := rfl
@[simp] theorem State.respondPort_out_actPort (st : Status) (d : Data) (s : State) : (s.respondPort st d).out.actPort = s.out.actPort := rfl
@[simp] theorem State.respondPort_out_responses (st : Status) (d : Data) (s : State) : (s.respondPort st d).out.responses = ⟨.bus s.out.actPort, st, d⟩ :: s.out.responses := rfl

@[simp] theorem State.respondEngine_arb (st : Status) (d : Data) (s : State) : (s.respondEngine st d).arb = s.arb := rfl
@[simp] theorem State.respondEngine_eng (st : Status) (d : Data) (s : State) : (s.respondEngine st d).eng = s.eng := rfl
@[simp] theorem State.respondEngine_ports_pend (st : Status) (d : Data) (s : State) : (s.respondEngine st d).ports.pend = s.ports.pend := rfl
@[simp] theorem State.respondEngine_ports_pendEng (st : Status) (d : Data) (s : State) : (s.respondEngine st d).ports.pendEng = none := rfl
@[simp] theorem State.respondEngine_ports_engBusy (st : Status) (d : Data) (s : State) : (s.respondEngine st d).ports.engBusy = false := rfl
@[simp] theorem State.respondEngine_ports_seq (st : Status) (d : Data) (s : State) : (s.respondEngine st d).ports.seq = none := rfl
@[simp] theorem State.respondEngine_out_events (st : Status) (d : Data) (s : State) : (s.respondEngine st d).out.events = s.out.events := rfl
@[simp] theorem State.respondEngine_out_ticks (st : Status) (d : Data) (s : State) : (s.respondEngine st d).out.ticks = s.out.ticks := rfl
@[simp] theorem State.respondEngine_out_answers (st : Status) (d : Data) (s : State) : (s.respondEngine st d).out.answers = s.out.answers := rfl
@[simp] theorem State.respondEngine_out_draws (st : Status) (d : Data) (s : State) : (s.respondEngine st d).out.draws = s.out.draws := rfl
@[simp] theorem State.respondEngine_out_order (st : Status) (d : Data) (s : State) : (s.respondEngine st d).out.order = s.out.order := rfl
@[simp] theorem State.respondEngine_out_actPort (st : Status) (d : Data) (s : State) : (s.respondEngine st d).out.actPort = s.out.actPort := rfl
@[simp] theorem State.respondEngine_out_responses (st : Status) (d : Data) (s : State) : (s.respondEngine st d).out.responses = ⟨.engine, st, d⟩ :: s.out.responses := rfl

@[simp] theorem State.enqueue_ports (c : Requester) (kind : WaitKind) (s : State) : (s.enqueue c kind).ports = s.ports := rfl
@[simp] theorem State.enqueue_eng (c : Requester) (kind : WaitKind) (s : State) : (s.enqueue c kind).eng = s.eng := rfl
@[simp] theorem State.enqueue_out (c : Requester) (kind : WaitKind) (s : State) : (s.enqueue c kind).out = s.out := rfl
@[simp] theorem State.enqueue_arb_owner (c : Requester) (kind : WaitKind) (s : State) : (s.enqueue c kind).arb.owner = s.arb.owner := rfl
@[simp] theorem State.enqueue_arb_activeV (c : Requester) (kind : WaitKind) (s : State) : (s.enqueue c kind).arb.activeV = s.arb.activeV := rfl
@[simp] theorem State.enqueue_arb_activeAddr (c : Requester) (kind : WaitKind) (s : State) : (s.enqueue c kind).arb.activeAddr = s.arb.activeAddr := rfl
@[simp] theorem State.enqueue_arb_lastV (c : Requester) (kind : WaitKind) (s : State) : (s.enqueue c kind).arb.lastV = s.arb.lastV := rfl
@[simp] theorem State.enqueue_arb_lastAddr (c : Requester) (kind : WaitKind) (s : State) : (s.enqueue c kind).arb.lastAddr = s.arb.lastAddr := rfl
@[simp] theorem State.enqueue_arb_waitq (c : Requester) (kind : WaitKind) (s : State) : (s.enqueue c kind).arb.waitq = insertKey Waiter.key ⟨c, kind⟩ s.arb.waitq := rfl

@[simp] theorem State.retarget_ports (c : Requester) (a : DevAddr) (s : State) : (s.retarget c a).ports = s.ports := rfl
@[simp] theorem State.retarget_eng (c : Requester) (a : DevAddr) (s : State) : (s.retarget c a).eng = s.eng := rfl
@[simp] theorem State.retarget_arb_owner (c : Requester) (a : DevAddr) (s : State) : (s.retarget c a).arb.owner = s.arb.owner := rfl
@[simp] theorem State.retarget_arb_activeV (c : Requester) (a : DevAddr) (s : State) : (s.retarget c a).arb.activeV = s.arb.activeV := rfl
@[simp] theorem State.retarget_arb_waitq (c : Requester) (a : DevAddr) (s : State) : (s.retarget c a).arb.waitq = s.arb.waitq := rfl
@[simp] theorem State.retarget_arb_activeAddr (c : Requester) (a : DevAddr) (s : State) : (s.retarget c a).arb.activeAddr = a := rfl
@[simp] theorem State.retarget_arb_lastV (c : Requester) (a : DevAddr) (s : State) : (s.retarget c a).arb.lastV = true := rfl
@[simp] theorem State.retarget_arb_lastAddr (c : Requester) (a : DevAddr) (s : State) : (s.retarget c a).arb.lastAddr = a := rfl
@[simp] theorem State.retarget_out_events (c : Requester) (a : DevAddr) (s : State) : (s.retarget c a).out.events = s.out.events := rfl
@[simp] theorem State.retarget_out_ticks (c : Requester) (a : DevAddr) (s : State) : (s.retarget c a).out.ticks = s.out.ticks := rfl
@[simp] theorem State.retarget_out_answers (c : Requester) (a : DevAddr) (s : State) : (s.retarget c a).out.answers = s.out.answers := rfl
@[simp] theorem State.retarget_out_draws (c : Requester) (a : DevAddr) (s : State) : (s.retarget c a).out.draws = s.out.draws := rfl
@[simp] theorem State.retarget_out_responses (c : Requester) (a : DevAddr) (s : State) : (s.retarget c a).out.responses = s.out.responses := rfl
@[simp] theorem State.retarget_out_actPort (c : Requester) (a : DevAddr) (s : State) : (s.retarget c a).out.actPort = s.out.actPort := rfl
@[simp] theorem State.retarget_out_order (c : Requester) (a : DevAddr) (s : State) : (s.retarget c a).out.order = .retarget c a :: s.out.order := rfl

@[simp] theorem State.release_ports (c : Requester) (s : State) : (s.release c).ports = s.ports := rfl
@[simp] theorem State.release_eng (c : Requester) (s : State) : (s.release c).eng = s.eng := rfl
@[simp] theorem State.release_arb_lastV (c : Requester) (s : State) : (s.release c).arb.lastV = s.arb.lastV := rfl
@[simp] theorem State.release_arb_lastAddr (c : Requester) (s : State) : (s.release c).arb.lastAddr = s.arb.lastAddr := rfl
@[simp] theorem State.release_arb_waitq (c : Requester) (s : State) : (s.release c).arb.waitq = s.arb.waitq := rfl
@[simp] theorem State.release_arb_owner (c : Requester) (s : State) : (s.release c).arb.owner = none := rfl
@[simp] theorem State.release_arb_activeV (c : Requester) (s : State) : (s.release c).arb.activeV = false := rfl
@[simp] theorem State.release_arb_activeAddr (c : Requester) (s : State) : (s.release c).arb.activeAddr = 0 := rfl
@[simp] theorem State.release_out_events (c : Requester) (s : State) : (s.release c).out.events = s.out.events := rfl
@[simp] theorem State.release_out_ticks (c : Requester) (s : State) : (s.release c).out.ticks = s.out.ticks := rfl
@[simp] theorem State.release_out_answers (c : Requester) (s : State) : (s.release c).out.answers = s.out.answers := rfl
@[simp] theorem State.release_out_draws (c : Requester) (s : State) : (s.release c).out.draws = s.out.draws := rfl
@[simp] theorem State.release_out_responses (c : Requester) (s : State) : (s.release c).out.responses = s.out.responses := rfl
@[simp] theorem State.release_out_actPort (c : Requester) (s : State) : (s.release c).out.actPort = s.out.actPort := rfl
@[simp] theorem State.release_out_order (c : Requester) (s : State) : (s.release c).out.order = .release c :: s.out.order := rfl

@[simp] theorem State.takeBus_ports (c : Requester) (a : DevAddr) (s : State) : (s.takeBus c a).ports = s.ports := rfl
@[simp] theorem State.takeBus_eng (c : Requester) (a : DevAddr) (s : State) : (s.takeBus c a).eng = s.eng := rfl
@[simp] theorem State.takeBus_arb_owner (c : Requester) (a : DevAddr) (s : State) : (s.takeBus c a).arb.owner = some c := rfl
@[simp] theorem State.takeBus_arb_activeV (c : Requester) (a : DevAddr) (s : State) : (s.takeBus c a).arb.activeV = true := rfl
@[simp] theorem State.takeBus_arb_activeAddr (c : Requester) (a : DevAddr) (s : State) : (s.takeBus c a).arb.activeAddr = a := rfl
@[simp] theorem State.takeBus_arb_lastV (c : Requester) (a : DevAddr) (s : State) : (s.takeBus c a).arb.lastV = true := rfl
@[simp] theorem State.takeBus_arb_lastAddr (c : Requester) (a : DevAddr) (s : State) : (s.takeBus c a).arb.lastAddr = a := rfl
@[simp] theorem State.takeBus_arb_waitq (c : Requester) (a : DevAddr) (s : State) : (s.takeBus c a).arb.waitq = eraseKey Waiter.key c.key s.arb.waitq := rfl
@[simp] theorem State.takeBus_out_events (c : Requester) (a : DevAddr) (s : State) : (s.takeBus c a).out.events = s.out.events := rfl
@[simp] theorem State.takeBus_out_ticks (c : Requester) (a : DevAddr) (s : State) : (s.takeBus c a).out.ticks = s.out.ticks := rfl
@[simp] theorem State.takeBus_out_answers (c : Requester) (a : DevAddr) (s : State) : (s.takeBus c a).out.answers = s.out.answers := rfl
@[simp] theorem State.takeBus_out_draws (c : Requester) (a : DevAddr) (s : State) : (s.takeBus c a).out.draws = s.out.draws := rfl
@[simp] theorem State.takeBus_out_responses (c : Requester) (a : DevAddr) (s : State) : (s.takeBus c a).out.responses = s.out.responses := rfl
@[simp] theorem State.takeBus_out_actPort (c : Requester) (a : DevAddr) (s : State) : (s.takeBus c a).out.actPort = s.out.actPort := rfl
@[simp] theorem State.takeBus_out_order (c : Requester) (a : DevAddr) (s : State) : (s.takeBus c a).out.order = .grant c a :: s.out.order := rfl

@[simp] theorem State.transfer_arb (c : Requester) (p : Prim) (s : State) : (s.transfer c p).arb = s.arb := rfl
@[simp] theorem State.transfer_ports (c : Requester) (p : Prim) (s : State) : (s.transfer c p).ports = s.ports := rfl
@[simp] theorem State.transfer_eng (c : Requester) (p : Prim) (s : State) : (s.transfer c p).eng = s.eng := rfl
@[simp] theorem State.transfer_out_events (c : Requester) (p : Prim) (s : State) : (s.transfer c p).out.events = s.out.events := rfl
@[simp] theorem State.transfer_out_ticks (c : Requester) (p : Prim) (s : State) : (s.transfer c p).out.ticks = s.out.ticks := rfl
@[simp] theorem State.transfer_out_responses (c : Requester) (p : Prim) (s : State) : (s.transfer c p).out.responses = s.out.responses := rfl
@[simp] theorem State.transfer_out_actPort (c : Requester) (p : Prim) (s : State) : (s.transfer c p).out.actPort = s.out.actPort := rfl
@[simp] theorem State.transfer_out_answers (c : Requester) (p : Prim) (s : State) : (s.transfer c p).out.answers = s.out.answers.tail := rfl
@[simp] theorem State.transfer_out_order (c : Requester) (p : Prim) (s : State) : (s.transfer c p).out.order = .prim c p s.nextAnswer :: s.out.order := rfl
@[simp] theorem State.transfer_out_draws (c : Requester) (p : Prim) (s : State) : (s.transfer c p).out.draws = if s.out.answers.isEmpty then s.out.draws + 1 else s.out.draws := rfl

@[simp] theorem State.actAs_arb (n : Nat) (s : State) : (s.actAs n).arb = s.arb := rfl
@[simp] theorem State.actAs_ports (n : Nat) (s : State) : (s.actAs n).ports = s.ports := rfl
@[simp] theorem State.actAs_eng (n : Nat) (s : State) : (s.actAs n).eng = s.eng := rfl
@[simp] theorem State.actAs_out_events (n : Nat) (s : State) : (s.actAs n).out.events = s.out.events := rfl
@[simp] theorem State.actAs_out_ticks (n : Nat) (s : State) : (s.actAs n).out.ticks = s.out.ticks := rfl
@[simp] theorem State.actAs_out_answers (n : Nat) (s : State) : (s.actAs n).out.answers = s.out.answers := rfl
@[simp] theorem State.actAs_out_draws (n : Nat) (s : State) : (s.actAs n).out.draws = s.out.draws := rfl
@[simp] theorem State.actAs_out_order (n : Nat) (s : State) : (s.actAs n).out.order = s.out.order := rfl
@[simp] theorem State.actAs_out_responses (n : Nat) (s : State) : (s.actAs n).out.responses = s.out.responses := rfl
@[simp] theorem State.actAs_out_actPort (n : Nat) (s : State) : (s.actAs n).out.actPort = n := rfl

@[simp] theorem State.setJob_arb (j : Job) (s : State) : (s.setJob j).arb = s.arb := rfl
@[simp] theorem State.setJob_eng (j : Job) (s : State) : (s.setJob j).eng = s.eng := rfl
@[simp] theorem State.setJob_out (j : Job) (s : State) : (s.setJob j).out = s.out := rfl
@[simp] theorem State.setJob_ports_pend (j : Job) (s : State) : (s.setJob j).ports.pend = s.ports.pend := rfl
@[simp] theorem State.setJob_ports_pendEng (j : Job) (s : State) : (s.setJob j).ports.pendEng = s.ports.pendEng := rfl
@[simp] theorem State.setJob_ports_engBusy (j : Job) (s : State) : (s.setJob j).ports.engBusy = s.ports.engBusy := rfl
@[simp] theorem State.setJob_ports_seq (j : Job) (s : State) : (s.setJob j).ports.seq = some j := rfl

@[simp] theorem State.endCycle_arb (s : State) : (s.endCycle).arb = s.arb := rfl
@[simp] theorem State.endCycle_ports (s : State) : (s.endCycle).ports = s.ports := rfl
@[simp] theorem State.endCycle_out (s : State) : (s.endCycle).out = s.out := rfl
@[simp] theorem State.endCycle_eng (s : State) : (s.endCycle).eng = { s.eng with stage := .idle } := rfl

@[simp] theorem State.draw_arb (s : State) : (s.draw).arb = s.arb := rfl
@[simp] theorem State.draw_ports (s : State) : (s.draw).ports = s.ports := rfl
@[simp] theorem State.draw_eng (s : State) : (s.draw).eng = s.eng := rfl
@[simp] theorem State.draw_out_events (s : State) : (s.draw).out.events = s.out.events := rfl
@[simp] theorem State.draw_out_ticks (s : State) : (s.draw).out.ticks = s.out.ticks := rfl
@[simp] theorem State.draw_out_answers (s : State) : (s.draw).out.answers = s.out.answers := rfl
@[simp] theorem State.draw_out_order (s : State) : (s.draw).out.order = s.out.order := rfl
@[simp] theorem State.draw_out_responses (s : State) : (s.draw).out.responses = s.out.responses := rfl
@[simp] theorem State.draw_out_actPort (s : State) : (s.draw).out.actPort = s.out.actPort := rfl
@[simp] theorem State.draw_out_draws (s : State) : (s.draw).out.draws = s.out.draws + 1 := rfl

@[simp] theorem State.resetMachine_arb (s : State) : (s.resetMachine).arb = .reset := rfl
@[simp] theorem State.resetMachine_ports (s : State) : (s.resetMachine).ports = .reset := rfl
@[simp] theorem State.resetMachine_eng (s : State) : (s.resetMachine).eng = .reset := rfl
@[simp] theorem State.resetMachine_out_events (s : State) : (s.resetMachine).out.events = s.out.events := rfl
@[simp] theorem State.resetMachine_out_ticks (s : State) : (s.resetMachine).out.ticks = s.out.ticks := rfl
@[simp] theorem State.resetMachine_out_answers (s : State) : (s.resetMachine).out.answers = s.out.answers := rfl
@[simp] theorem State.resetMachine_out_draws (s : State) : (s.resetMachine).out.draws = s.out.draws := rfl
@[simp] theorem State.resetMachine_out_responses (s : State) : (s.resetMachine).out.responses = s.out.responses := rfl
@[simp] theorem State.resetMachine_out_actPort (s : State) : (s.resetMachine).out.actPort = s.out.actPort := rfl
@[simp] theorem State.resetMachine_out_order (s : State) : (s.resetMachine).out.order = .reset :: s.out.order := rfl

@[simp] theorem State.setPhase_arb (ph : Phase) (s : State) : (s.setPhase ph).arb = s.arb := by
  unfold State.setPhase; split <;> rfl
@[simp] theorem State.setPhase_eng (ph : Phase) (s : State) : (s.setPhase ph).eng = s.eng := by
  unfold State.setPhase; split <;> rfl
@[simp] theorem State.setPhase_out (ph : Phase) (s : State) : (s.setPhase ph).out = s.out := by
  unfold State.setPhase; split <;> rfl
@[simp] theorem State.setPhase_ports_pendEng (ph : Phase) (s : State) : (s.setPhase ph).ports.pendEng = s.ports.pendEng := by
  unfold State.setPhase; split <;> rfl
@[simp] theorem State.setPhase_ports_engBusy (ph : Phase) (s : State) : (s.setPhase ph).ports.engBusy = s.ports.engBusy := by
  unfold State.setPhase; split <;> rfl
@[simp] theorem State.setPhase_ports_seq (ph : Phase) (s : State) : (s.setPhase ph).ports.seq = s.ports.seq := by
  unfold State.setPhase; split <;> rfl

@[simp] theorem State.dropEvent_arb (s : State) : (s.dropEvent).arb = s.arb := by
  unfold State.dropEvent; split <;> rfl
@[simp] theorem State.dropEvent_ports (s : State) : (s.dropEvent).ports = s.ports := by
  unfold State.dropEvent; split <;> rfl
@[simp] theorem State.dropEvent_eng (s : State) : (s.dropEvent).eng = s.eng := by
  unfold State.dropEvent; split <;> rfl
@[simp] theorem State.dropEvent_out_answers (s : State) : (s.dropEvent).out.answers = s.out.answers := by
  unfold State.dropEvent; split <;> rfl
@[simp] theorem State.dropEvent_out_draws (s : State) : (s.dropEvent).out.draws = s.out.draws := by
  unfold State.dropEvent; split <;> rfl
@[simp] theorem State.dropEvent_out_order (s : State) : (s.dropEvent).out.order = s.out.order := by
  unfold State.dropEvent; split <;> rfl
@[simp] theorem State.dropEvent_out_responses (s : State) : (s.dropEvent).out.responses = s.out.responses := by
  unfold State.dropEvent; split <;> rfl
@[simp] theorem State.dropEvent_out_actPort (s : State) : (s.dropEvent).out.actPort = s.out.actPort := by
  unfold State.dropEvent; split <;> rfl

@[simp] theorem State.accept_arb (p : Port) (w : Word) (s : State) : (s.accept p w).arb = s.arb := by
  cases p <;> simp only [State.accept] <;> split <;> rfl
@[simp] theorem State.accept_eng (p : Port) (w : Word) (s : State) : (s.accept p w).eng = s.eng := by
  cases p <;> simp only [State.accept] <;> split <;> rfl
@[simp] theorem State.accept_out (p : Port) (w : Word) (s : State) : (s.accept p w).out = s.out := by
  cases p <;> simp only [State.accept] <;> split <;> rfl
@[simp] theorem State.accept_ports_engBusy (p : Port) (w : Word) (s : State) : (s.accept p w).ports.engBusy = s.ports.engBusy := by
  cases p <;> simp only [State.accept] <;> split <;> rfl
@[simp] theorem State.accept_ports_seq (p : Port) (w : Word) (s : State) : (s.accept p w).ports.seq = s.ports.seq := by
  cases p <;> simp only [State.accept] <;> split <;> rfl

@[simp] theorem State.stageNow_setJob (j : Job) (s : State) : (s.setJob j).stageNow = j.walk.getD s.eng.stage := rfl
theorem State.stageNow_idle {s : State} (h : s.ports.seq = none) : s.stageNow = s.eng.stage := by simp [State.stageNow, h]

@[simp] theorem State.grant_ports (c : Requester) (s : State) : (s.grant c).ports = s.ports := by
  unfold State.grant; split <;> rfl
@[simp] theorem State.grant_eng (c : Requester) (s : State) : (s.grant c).eng = s.eng := by
  unfold State.grant; split <;> rfl
@[simp] theorem State.grant_out_events (c : Requester) (s : State) : (s.grant c).out.events = s.out.events := by
  unfold State.grant; split <;> rfl
@[simp] theorem State.grant_out_ticks (c : Requester) (s : State) : (s.grant c).out.ticks = s.out.ticks := by
  unfold State.grant; split <;> rfl
@[simp] theorem State.grant_out_answers (c : Requester) (s : State) : (s.grant c).out.answers = s.out.answers := by
  unfold State.grant; split <;> rfl
@[simp] theorem State.grant_out_draws (c : Requester) (s : State) : (s.grant c).out.draws = s.out.draws := by
  unfold State.grant; split <;> rfl
@[simp] theorem State.grant_out_responses (c : Requester) (s : State) : (s.grant c).out.responses = s.out.responses := by
  unfold State.grant; split <;> rfl
@[simp] theorem State.grant_out_actPort (c : Requester) (s : State) : (s.grant c).out.actPort = s.out.actPort := by
  unfold State.grant; split <;> rfl

end Sys2Proof.Machine
end

