-- ==== Sys2Proof/Laws/Ops.lean ====
section
/-! SUPPORT. One lemma for each shared operation that says everything it can do, and the lookups after each update. Later
proofs cite these and do not unfold the operations. -/

namespace Sys2Proof.Machine

theorem Requester.key_injective : Function.Injective Requester.key := by
  intro a b h
  cases a <;> cases b <;> simp_all [Requester.key]

/-! Slots and phases. -/

theorem slot_congr {s t : State} (h : t.ports.pend = s.ports.pend) (n : Nat) : t.slot n = s.slot n := by
  simp [State.slot, h]

theorem waitKind_congr {s t : State} (h : t.arb.waitq = s.arb.waitq) (c : Requester) : t.waitKind c = s.waitKind c := by
  simp [State.waitKind, h]

theorem slot_port {s : State} {n : Nat} {sl : Slot} (h : s.slot n = some sl) : sl.port = n :=
  (findKey_some h).2

theorem slot_mem {s : State} {n : Nat} {sl : Slot} (h : s.slot n = some sl) : sl ∈ s.ports.pend :=
  (findKey_some h).1

theorem phase_of_slot {s : State} {sl : Slot} (h : s.slot s.out.actPort = some sl) : s.phase = sl.phase := by
  simp [State.phase, h]

@[simp] theorem slot_respondPort_self (st : Status) (d : Data) (s : State) :
    (s.respondPort st d).slot s.out.actPort = none := by
  simp [State.slot]

theorem slot_respondPort_ne {n : Nat} {s : State} (h : s.out.actPort ≠ n) (st : Status) (d : Data) :
    (s.respondPort st d).slot n = s.slot n := by
  simp [State.slot, findKey_eraseKey_ne h]

theorem slot_setPhase_self {s : State} {sl : Slot} (h : s.slot s.out.actPort = some sl) (ph : Phase) :
    (s.setPhase ph).slot s.out.actPort = some { sl with phase := ph } := by
  have hp := slot_port h
  have := findKey_insertKey_self (key := Slot.port) { sl with phase := ph } s.ports.pend
  simp only [hp] at this
  simp only [State.setPhase, h]
  simp [State.slot, hp, this]

theorem slot_setPhase_ne {s : State} {n : Nat} (hn : s.out.actPort ≠ n) (ph : Phase) :
    (s.setPhase ph).slot n = s.slot n := by
  unfold State.setPhase
  split
  · next sl h =>
    have hp : ({ sl with phase := ph } : Slot).port ≠ n := by simpa [slot_port h] using hn
    simp [State.slot, findKey_insertKey_ne hp]
  · rfl

theorem setPhase_of_slot {s : State} {sl : Slot} (h : s.slot s.out.actPort = some sl) (ph : Phase) :
    s.setPhase ph = { s with ports.pend := insertKey Slot.port { sl with phase := ph } s.ports.pend } := by
  simp [State.setPhase, h]

/-! WAITQ. -/

@[simp] theorem waitKind_enqueue_self (c : Requester) (kind : WaitKind) (s : State) :
    (s.enqueue c kind).waitKind c = some kind := by
  have := findKey_insertKey_self (key := Waiter.key) ⟨c, kind⟩ s.arb.waitq
  have hk : Waiter.key ⟨c, kind⟩ = c.key := rfl
  rw [hk] at this
  simp [State.waitKind, this]

theorem waitKind_enqueue_ne {c c' : Requester} (h : c ≠ c') (kind : WaitKind) (s : State) :
    (s.enqueue c kind).waitKind c' = s.waitKind c' := by
  have hk : Waiter.key ⟨c, kind⟩ ≠ c'.key := fun he => h (Requester.key_injective he)
  simp [State.waitKind, findKey_insertKey_ne hk]

@[simp] theorem waitKind_takeBus_self (c : Requester) (a : DevAddr) (s : State) :
    (s.takeBus c a).waitKind c = none := by
  simp [State.waitKind]

theorem waitKind_takeBus_ne {c c' : Requester} (h : c ≠ c') (a : DevAddr) (s : State) :
    (s.takeBus c a).waitKind c' = s.waitKind c' := by
  have hk : c.key ≠ c'.key := fun he => h (Requester.key_injective he)
  simp [State.waitKind, findKey_eraseKey_ne hk]

/-! The shared operations. -/

theorem requireOwner_next {c : Requester} {s t u : State} :
    requireOwner c s t = .next u ↔ s.arb.owner = some c ∧ t = u := by
  unfold requireOwner
  split <;> simp_all

/-- The grant step takes the bus for a waiter when it is free, and is otherwise no step. -/
theorem grant_cases (c : Requester) (s : State) :
    (∃ kind, s.arb.owner = none ∧ s.waitKind c = some kind ∧ s.grant c = s.takeBus c (s.grantAddr kind)) ∨
    ((s.arb.owner ≠ none ∨ s.waitKind c = none) ∧ s.grant c = s) := by
  unfold State.grant
  split
  · next kind ho hk => exact .inl ⟨kind, ho, hk, rfl⟩
  · next h =>
    refine .inr ⟨?_, rfl⟩
    by_cases ho : s.arb.owner = none
    · right
      cases hk : s.waitKind c with
      | none => rfl
      | some k => exact absurd hk (h k ho)
    · exact .inl ho

/-- An accepted word takes an empty slot of a port that exists. -/
theorem accept_cases (p : Port) (w : Word) (s : State) :
    s.accept p w = s ∨
    (∃ n, p = .bus n ∧ n < Config.nPorts ∧ s.slot n = none ∧
      s.accept p w = { s with ports.pend := insertKey Slot.port ⟨n, w, .issued⟩ s.ports.pend }) ∨
    (p = .engine ∧ s.ports.pendEng = none ∧ s.accept p w = { s with ports.pendEng := some w }) := by
  cases p with
  | bus n =>
    by_cases h : n < Config.nPorts ∧ s.slot n = none
    · exact .inr (.inl ⟨n, rfl, h.1, h.2, by simp [State.accept, h]⟩)
    · exact .inl (by simp [State.accept, h])
  | engine =>
    by_cases h : s.ports.pendEng = none
    · exact .inr (.inr ⟨rfl, h, by simp [State.accept, h]⟩)
    · exact .inl (by simp [State.accept, h])

/-- A bus-family command up to its bus part: on as owner, NO_TARGET, into WAITQ, or no step. -/
theorem withBus_cases (kind : WaitKind) (body : State → State) (s : State) :
    (s.phase = .issued ∧ s.arb.owner = some s.self ∧ kind = .auto ∧ s.withBus kind body = body s) ∨
    (∃ a, s.phase = .issued ∧ s.arb.owner = some s.self ∧ kind = .explicit a ∧
      s.withBus kind body = body (s.retarget s.self a)) ∨
    (s.phase = .awaiting ∧ s.arb.owner = some s.self ∧ s.withBus kind body = body s) ∨
    (s.phase = .issued ∧ s.arb.owner ≠ some s.self ∧ kind = .auto ∧ s.arb.lastV = false ∧
      s.withBus kind body = s.respondPort .noTarget 0) ∨
    (s.phase = .issued ∧ s.arb.owner ≠ some s.self ∧ (kind = .auto → s.arb.lastV = true) ∧
      s.withBus kind body = (s.enqueue s.self kind).setPhase .awaiting) ∨
    (s.phase ≠ .issued ∧ (s.phase = .awaiting → s.arb.owner ≠ some s.self) ∧ s.withBus kind body = s) := by
  unfold State.withBus
  cases hp : s.phase with
  | issued =>
    by_cases ho : s.arb.owner = some s.self
    · cases kind with
      | auto => exact .inl ⟨rfl, ho, rfl, by simp [ho]⟩
      | explicit a => exact .inr (.inl ⟨a, rfl, ho, rfl, by simp [ho]⟩)
    · by_cases hn : kind = .auto ∧ s.arb.lastV = false
      · exact .inr (.inr (.inr (.inl ⟨rfl, ho, hn.1, hn.2, by simp [ho, hn]⟩)))
      · refine .inr (.inr (.inr (.inr (.inl ⟨rfl, ho, fun hk => ?_, by simp [ho, hn]⟩))))
        cases hl : s.arb.lastV with
        | true => rfl
        | false => exact absurd ⟨hk, hl⟩ hn
  | awaiting =>
    by_cases ho : s.arb.owner = some s.self
    · exact .inr (.inr (.inl ⟨rfl, ho, by simp [ho]⟩))
    · exact .inr (.inr (.inr (.inr (.inr ⟨by simp, fun _ => ho, by simp [ho]⟩))))
  | firstByte b => exact .inr (.inr (.inr (.inr (.inr ⟨by simp, by simp, rfl⟩))))
  | done st d => exact .inr (.inr (.inr (.inr (.inr ⟨by simp, by simp, rfl⟩))))

/-- A last primitive is performed once, and what is answered is of a produced status. -/
theorem lastPrim_cases (p : Prim) (good : Byte → Data) (s : State) :
    (∃ b, s.nextAnswer = .ok b ∧ s.lastPrim p good = (s.transfer s.self p).setPhase (.done .ok (good b))) ∨
    (∃ kind code, s.nextAnswer = .fail kind code ∧
      s.lastPrim p good = (s.transfer s.self p).setPhase (.done kind.status (xportData p code))) := by
  unfold State.lastPrim
  cases h : s.nextAnswer with
  | ok b => exact .inl ⟨b, rfl, rfl⟩
  | fail kind code => exact .inr ⟨kind, code, rfl, rfl⟩

theorem firstRead_cases (reg : RegAddr) (s : State) :
    (∃ b, s.nextAnswer = .ok b ∧
      s.firstRead reg = (s.transfer s.self (.read s.arb.activeAddr reg)).setPhase (.firstByte b)) ∨
    (∃ kind code, s.nextAnswer = .fail kind code ∧
      s.firstRead reg = (s.transfer s.self (.read s.arb.activeAddr reg)).setPhase
        (.done kind.status (xportData (.read s.arb.activeAddr reg) code))) := by
  unfold State.firstRead
  cases h : s.nextAnswer with
  | ok b => exact .inl ⟨b, rfl, rfl⟩
  | fail kind code => exact .inr ⟨kind, code, rfl, rfl⟩

theorem seqPrim_cases (j : Job) (p : Prim) (good : Byte → Job) (s : State) :
    (∃ b, s.nextAnswer = .ok b ∧ s.seqPrim j p good = (s.transfer .seq p).setJob (good b)) ∨
    (∃ kind code, s.nextAnswer = .fail kind code ∧
      s.seqPrim j p good = (s.transfer .seq p).setJob { j with failure := some (kind.status, xportData p code) }) := by
  unfold State.seqPrim
  cases h : s.nextAnswer with
  | ok b => exact .inl ⟨b, rfl, rfl⟩
  | fail kind code => exact .inr ⟨kind, code, rfl, rfl⟩

/-- One element of SEQ's list leaves SEQ running and performs at most one primitive, the element's own at `dev`; it writes
no register, and the reading cycle walks on only by a trigger. -/
theorem seqOp_cases (dev : DevAddr) (j : Job) (op : SeqOp) (s : State) :
    ∃ j', j'.phase = .running ∧ (j'.failure = j.failure ∨ ∃ k d, j'.failure = some (FailKind.status k, d)) ∧
      (j'.walk = j.walk ∨ ∃ reg v st, op = .trigger reg v st) ∧
      ((∃ p : Prim, p.dev = dev ∧ op.prim dev = some p ∧ s.seqOp dev j op = (s.transfer .seq p).setJob j') ∨
       s.seqOp dev j op = s.setJob j') := by
  have failed (p : Prim) (code : Byte) (k : FailKind) :
      let j' : Job := { j with phase := .running, failure := some (k.status, xportData p code) }
      j'.phase = .running ∧ (j'.failure = j.failure ∨ ∃ k d, j'.failure = some (FailKind.status k, d)) :=
    ⟨rfl, .inr ⟨k, _, rfl⟩⟩
  cases op with
  | read reg =>
    rcases seqPrim_cases { j with phase := .running } (.read dev reg)
      (fun b => { j with phase := .running, step := j.step + 1, reads := (reg, b) :: j.reads }) s with
      ⟨b, -, h⟩ | ⟨k, code, -, h⟩
    · exact ⟨{ j with phase := .running, step := j.step + 1, reads := (reg, b) :: j.reads }, rfl, .inl rfl, .inl rfl,
        .inl ⟨.read dev reg, rfl, rfl, h⟩⟩
    · exact ⟨_, (failed (.read dev reg) code k).1, (failed (.read dev reg) code k).2, .inl rfl,
        .inl ⟨.read dev reg, rfl, rfl, h⟩⟩
  | write reg v =>
    rcases seqPrim_cases { j with phase := .running } (.write dev reg v)
      (fun _ => { j with phase := .running, step := j.step + 1 }) s with ⟨b, -, h⟩ | ⟨k, code, -, h⟩
    · exact ⟨{ j with phase := .running, step := j.step + 1 }, rfl, .inl rfl, .inl rfl,
        .inl ⟨.write dev reg v, rfl, rfl, h⟩⟩
    · exact ⟨_, (failed (.write dev reg v) code k).1, (failed (.write dev reg v) code k).2, .inl rfl,
        .inl ⟨.write dev reg v, rfl, rfl, h⟩⟩
  | trigger reg v st =>
    rcases seqPrim_cases { j with phase := .running } (.write dev reg v)
      (fun _ => { j with phase := .running, step := j.step + 1, walk := some st }) s with ⟨b, -, h⟩ | ⟨k, code, -, h⟩
    · exact ⟨{ j with phase := .running, step := j.step + 1, walk := some st }, rfl, .inl rfl, .inr ⟨reg, v, st, rfl⟩,
        .inl ⟨.write dev reg v, rfl, rfl, h⟩⟩
    · exact ⟨_, (failed (.write dev reg v) code k).1, (failed (.write dev reg v) code k).2, .inl rfl,
        .inl ⟨.write dev reg v, rfl, rfl, h⟩⟩
  | settle ms => exact ⟨{ j with phase := .running, step := j.step + 1 }, rfl, .inl rfl, .inl rfl, .inr rfl⟩

/-- SEQ as owner performs an element of its list, or releases the bus. -/
theorem seqOnBus_cases (dev : DevAddr) (list : Job → List SeqOp) (onRelease : Job → State → State) (j : Job) (s : State) :
    (∃ f, j.failure = some f ∧
      s.seqOnBus dev list onRelease j = (s.release .seq).setJob { j with phase := .offBus }) ∨
    (∃ op, j.failure = none ∧ (list j)[j.step]? = some op ∧ s.seqOnBus dev list onRelease j = s.seqOp dev j op) ∨
    (j.failure = none ∧ (list j)[j.step]? = none ∧
      s.seqOnBus dev list onRelease j = onRelease { j with phase := .offBus } (s.release .seq)) := by
  unfold State.seqOnBus
  cases hf : j.failure with
  | some f => exact .inl ⟨f, rfl, rfl⟩
  | none =>
    cases ho : (list j)[j.step]? with
    | some op => exact .inr (.inl ⟨op, rfl, rfl, rfl⟩)
    | none => exact .inr (.inr ⟨rfl, rfl, rfl⟩)

/-- A step of a begun bus sequence that answers a next state: on the bus as owner, waiting for it, or off it. -/
theorem seqStep_cases {dev : DevAddr} {list : Job → List SeqOp} {onRelease finish : Job → State → State}
    {onFail : State → State} {j : Job} {s t : State}
    (h : s.seqStep dev list onRelease finish onFail j = .next t) :
    (s.arb.owner = some .seq ∧ (j.phase = .awaiting ∨ j.phase = .running) ∧ t = s.seqOnBus dev list onRelease j) ∨
    (s.arb.owner ≠ some .seq ∧ j.phase = .awaiting ∧ t = s) ∨
    (∃ st d, j.phase ≠ .awaiting ∧ j.phase ≠ .running ∧ j.failure = some (st, d) ∧ t = (onFail s).respondEngine st d) ∨
    (j.phase ≠ .awaiting ∧ j.phase ≠ .running ∧ j.failure = none ∧ t = finish j s) := by
  unfold State.seqStep at h
  cases hp : j.phase with
  | awaiting =>
    simp only [hp, Host.Outcome.next.injEq] at h
    by_cases ho : s.arb.owner = some .seq
    · exact .inl ⟨ho, .inl rfl, by simpa [ho] using h.symm⟩
    · exact .inr (.inl ⟨ho, rfl, by simpa [ho] using h.symm⟩)
  | running =>
    simp only [hp, requireOwner_next] at h
    exact .inl ⟨h.1, .inr rfl, h.2.symm⟩
  | offBus =>
    simp only [hp] at h
    cases hf : j.failure with
    | some f => exact .inr (.inr (.inl ⟨f.1, f.2, by simp, by simp, rfl, by simpa [hf] using h.symm⟩))
    | none => exact .inr (.inr (.inr ⟨by simp, by simp, rfl, by simpa [hf] using h.symm⟩))
  | computed r =>
    simp only [hp] at h
    cases hf : j.failure with
    | some f => exact .inr (.inr (.inl ⟨f.1, f.2, by simp, by simp, rfl, by simpa [hf] using h.symm⟩))
    | none => exact .inr (.inr (.inr ⟨by simp, by simp, rfl, by simpa [hf] using h.symm⟩))

/-- The start of an engine command's transaction: SEQ waits, or goes on as the owner it is. -/
theorem acquireSeq_cases (dev : DevAddr) (j : Job) (s : State) :
    (s.arb.owner = some .seq ∧
      s.acquireSeq dev j =
        (({ s with ports.engBusy := true }).retarget .seq dev).setJob { j with phase := .running }) ∨
    (s.arb.owner ≠ some .seq ∧
      s.acquireSeq dev j =
        (({ s with ports.engBusy := true }).enqueue .seq (.explicit dev)).setJob { j with phase := .awaiting }) := by
  by_cases h : s.arb.owner = some .seq
  · exact .inl ⟨h, by simp [State.acquireSeq, h]⟩
  · exact .inr ⟨h, by simp [State.acquireSeq, h]⟩

/-! What a step does. -/

/-- A step is one move of one agent. -/
theorem step_cases {s t : State} (h : step s = .next t) :
    (∃ p w, s.nextEvent = .issue p w ∧ t = s.dropEvent.accept p w) ∨
    (∃ n, s.nextEvent = .advance (.port n) ∧ advancePort n s.dropEvent = .next t) ∨
    (s.nextEvent = .advance .seq ∧ advanceSeq s.dropEvent = .next t) ∨
    (∃ c, s.nextEvent = .grant c ∧ t = s.dropEvent.grant c) ∨
    (s.nextEvent = .reset ∧ t = s.dropEvent.resetMachine) := by
  unfold step perform at h
  cases he : s.nextEvent with
  | issue p w => exact .inl ⟨p, w, rfl, by simpa [he] using h.symm⟩
  | advance c =>
    cases c with
    | port n => exact .inr (.inl ⟨n, rfl, by simpa [he, advance] using h⟩)
    | seq => exact .inr (.inr (.inl ⟨rfl, by simpa [he, advance] using h⟩))
  | grant c => exact .inr (.inr (.inr (.inl ⟨c, rfl, by simpa [he] using h.symm⟩)))
  | reset => exact .inr (.inr (.inr (.inr ⟨rfl, by simpa [he] using h.symm⟩)))

/-- A bus port's step: nothing pending, an ILLEGAL word answered, or its command carried out. -/
theorem advancePort_cases {n : Nat} {s t : State} (h : advancePort n s = .next t) :
    (s.slot n = none ∧ t = s) ∨
    (∃ sl e, s.slot n = some sl ∧ decode .bus sl.word = .error e ∧
      t = (s.actAs n).respondPort .illegal (zextData sl.word)) ∨
    (∃ sl i, s.slot n = some sl ∧ decode .bus sl.word = .ok i ∧ exec i (s.actAs n) = .next t) := by
  unfold advancePort at h
  cases hs : s.slot n with
  | none => exact .inl ⟨rfl, by simpa [hs] using h.symm⟩
  | some sl =>
    simp only [hs] at h
    cases hd : decode .bus sl.word with
    | error e => exact .inr (.inl ⟨sl, e, rfl, hd, by simpa [hd] using h.symm⟩)
    | ok i => exact .inr (.inr ⟨sl, i, rfl, hd, by simpa [hd] using h⟩)

/-- The engine port's step, likewise. -/
theorem advanceSeq_cases {s t : State} (h : advanceSeq s = .next t) :
    (s.ports.pendEng = none ∧ t = s) ∨
    (∃ w e, s.ports.pendEng = some w ∧ decode .engine w = .error e ∧ t = s.respondEngine .illegal (zextData w)) ∨
    (∃ w i, s.ports.pendEng = some w ∧ decode .engine w = .ok i ∧ exec i s = .next t) := by
  unfold advanceSeq at h
  cases hs : s.ports.pendEng with
  | none => exact .inl ⟨rfl, by simpa [hs] using h.symm⟩
  | some w =>
    simp only [hs] at h
    cases hd : decode .engine w with
    | error e => exact .inr (.inl ⟨w, e, rfl, hd, by simpa [hd] using h.symm⟩)
    | ok i => exact .inr (.inr ⟨w, i, rfl, hd, by simpa [hd] using h⟩)

end Sys2Proof.Machine
end

