-- ==== Sys2Proof/Laws/Invariant.lean ====
section
/-! SUPPORT. The shared operations keep the invariant `Consistent`, each under the conditions in which the commands
  use it. -/

namespace Sys2Proof.Machine

/-- What `Consistent` looks at. -/
theorem Consistent.congr {s t : State} (h : Consistent s) (ha : t.arb = s.arb) (hp : t.ports = s.ports)
    (hs : t.eng.stage = s.eng.stage) (hw : t.eng.tempWritten = s.eng.tempWritten) (ho : t.out.order = s.out.order) :
    Consistent t where
  active := by rw [ha]; exact h.active
  activeAddr := by rw [ha]; exact h.activeAddr
  last := by rw [ha]; exact h.last
  waitq := by rw [ha]; exact h.waitq
  waitAuto := by simpa only [State.waitKind, ha] using h.waitAuto
  ownerLeft := by simpa only [State.waitKind, ha] using h.ownerLeft
  pend := by rw [hp]; exact h.pend
  ports := by rw [hp]; exact h.ports
  slots := by simpa only [State.slotAgrees, State.waitsOrHolds, State.waitKind, State.slot, ha, hp] using h.slots
  waiters := by simpa only [State.waitKind, State.slot, ha, hp] using h.waiters
  seq := by
    simpa only [State.seqAgrees, State.jobAgrees, State.waitsOrHolds, State.waitKind, Ports.engineCommand, ha, hp]
      using h.seq
  busy := by rw [hp]; exact h.busy
  stage := by rw [hs]; exact h.stage
  walk := by rw [hp]; exact h.walk
  b5 := by rw [hs, hw]; exact h.b5
  order := by rw [ho, ha]; exact h.order

/-- The engine registers change, STAGE and the written mark as R21 and R29 allow. -/
theorem Consistent.setEng {s : State} (h : Consistent s) (e : Engine) (hstage : e.stage.transient = false)
    (hb5 : e.stage = .temperatureRead → e.tempWritten = true) : Consistent { s with eng := e } where
  active := h.active
  activeAddr := h.activeAddr
  last := h.last
  waitq := h.waitq
  waitAuto := h.waitAuto
  ownerLeft := h.ownerLeft
  pend := h.pend
  ports := h.ports
  slots := h.slots
  waiters := h.waiters
  seq := h.seq
  busy := h.busy
  stage := hstage
  walk := h.walk
  b5 := hb5
  order := h.order

/-- A requester whose command is not at its await is not in WAITQ. -/
theorem Consistent.notWaiting {s : State} (h : Consistent s) {n : Nat}
    (hn : ∀ sl, s.slot n = some sl → sl.phase ≠ .awaiting) :
    s.waitKind (.port n) = none := by
  by_contra hw
  obtain ⟨sl, hs, hp⟩ := h.waiters n hw
  exact hn sl hs hp

/-- Reset makes every register a reset value, whatever the state was. -/
theorem Consistent.resetMachine {s : State} (h : Consistent s) : Consistent s.resetMachine where
  active := rfl
  activeAddr := fun _ => rfl
  last := fun h => absurd rfl h
  waitq := List.Pairwise.nil
  waitAuto := by simp [State.waitKind, Arbiter.reset, findKey]
  ownerLeft := by simp [Arbiter.reset]
  pend := List.Pairwise.nil
  ports := by simp [Ports.reset]
  slots := by simp [State.slot, Ports.reset, findKey]
  waiters := by simp [State.waitKind, Arbiter.reset, findKey]
  seq := by simp [State.seqAgrees, Ports.reset, Arbiter.reset, State.waitKind, findKey]
  busy := rfl
  stage := rfl
  walk := by simp [Ports.reset]
  b5 := by simp [Engine.reset]
  order := by
    rw [State.resetMachine_out_order, State.resetMachine_arb, replay, h.order]
    rfl

/-! The grant step and the ports. -/

theorem waitsOrHolds_congr {s t : State} (ha : t.arb = s.arb) (c : Requester) (kind : WaitKind) :
    t.waitsOrHolds c kind ↔ s.waitsOrHolds c kind := by
  simp [State.waitsOrHolds, State.waitKind, ha]

theorem slotAgrees_congr {s t : State} (ha : t.arb = s.arb) (sl : Slot) : t.slotAgrees sl ↔ s.slotAgrees sl := by
  simp [State.slotAgrees, State.waitsOrHolds, State.waitKind, ha]

theorem jobAgrees_congr {s t : State} (ha : t.arb = s.arb) (i : Instr) (ph : SeqPhase) :
    t.jobAgrees i ph ↔ s.jobAgrees i ph := by
  cases ph <;> simp [State.jobAgrees, State.waitsOrHolds, State.waitKind, ha]

/-- Giving up the bus leaves every other requester at its await where it was. -/
theorem waitsOrHolds_release {s : State} {c c' : Requester} {kind : WaitKind} (h : s.waitsOrHolds c' kind)
    (ho : s.arb.owner ≠ some c') : (s.release c).waitsOrHolds c' kind :=
  .inl (h.resolve_right fun h' => ho h'.1)

/-- Another requester's entering WAITQ leaves a requester at its await where it was. -/
theorem waitsOrHolds_enqueue {s : State} {c c' : Requester} {kind kind' : WaitKind} (hc : c ≠ c') :
    (s.enqueue c kind).waitsOrHolds c' kind' ↔ s.waitsOrHolds c' kind' := by
  simp [State.waitsOrHolds, waitKind_enqueue_ne hc]

theorem slotAgrees_enqueue {s : State} {c : Requester} {kind : WaitKind} {sl : Slot} (hc : c ≠ .port sl.port) :
    (s.enqueue c kind).slotAgrees sl ↔ s.slotAgrees sl := by
  simp [State.slotAgrees, waitsOrHolds_enqueue hc]

/-- The grant step takes a waiter out of WAITQ to the bus at its address, and leaves the others waiting. -/
theorem waitsOrHolds_takeBus {s : State} {c c' : Requester} {kind kind' : WaitKind} (hfree : s.arb.owner = none)
    (hwait : s.waitKind c = some kind) (h : s.waitsOrHolds c' kind') :
    (s.takeBus c (s.grantAddr kind)).waitsOrHolds c' kind' := by
  have hk := h.resolve_right fun h' => by simp [hfree] at h'
  by_cases hc : c = c'
  · subst hc
    obtain rfl : kind = kind' := Option.some.inj (hwait.symm.trans hk)
    exact .inr ⟨rfl, fun a ha => by simp [ha, State.grantAddr]⟩
  · exact .inl (by rw [waitKind_takeBus_ne hc]; exact hk)

theorem Consistent.takeBus {s : State} (h : Consistent s) {c : Requester} {kind : WaitKind} (hfree : s.arb.owner = none)
    (hwait : s.waitKind c = some kind) : Consistent (s.takeBus c (s.grantAddr kind)) where
  active := rfl
  activeAddr := by simp
  last := by simp
  waitq := rising_eraseKey h.waitq
  waitAuto := by simp
  ownerLeft := by
    rintro c' hc'
    obtain rfl : c = c' := by simpa using hc'
    simp
  pend := h.pend
  ports := h.ports
  slots := fun n sl hs => by
    have hn := h.slots n sl hs
    unfold State.slotAgrees at hn ⊢
    cases hph : sl.phase with
    | issued => trivial
    | awaiting =>
      simp only [hph] at hn
      obtain ⟨i, hd, hi, hk⟩ := hn
      exact ⟨i, hd, hi, waitsOrHolds_takeBus hfree hwait hk⟩
    | firstByte b => simp [hph, hfree] at hn
    | done st d => simp [hph, hfree] at hn
  waiters := fun n hn => by
    by_cases hc : c = .port n
    · simp [hc] at hn
    · rw [waitKind_takeBus_ne hc] at hn
      exact h.waiters n hn
  seq := by
    have hq := h.seq
    unfold State.seqAgrees at hq ⊢
    simp only [State.takeBus_ports, State.takeBus_arb_owner]
    cases hj : s.ports.seq with
    | none =>
      simp only [hj] at hq
      have hc : c ≠ .seq := fun hc => by simp [← hc, hwait] at hq
      exact ⟨by simpa using hc, by rw [waitKind_takeBus_ne hc]; exact hq.2⟩
    | some j =>
      simp only [hj] at hq
      obtain ⟨i, hi, hu, hja⟩ := hq
      refine ⟨i, hi, hu, ?_⟩
      cases hph : j.phase with
      | awaiting =>
        rw [hph] at hja
        exact waitsOrHolds_takeBus hfree hwait hja
      | running => rw [hph] at hja; simp [State.jobAgrees, hfree] at hja
      | offBus =>
        rw [hph] at hja
        have hc : c ≠ .seq := fun hc => by simp [State.jobAgrees, ← hc, hwait] at hja
        exact ⟨by simpa using hc, by rw [waitKind_takeBus_ne hc]; exact hja.2⟩
      | computed r =>
        rw [hph] at hja
        have hc : c ≠ .seq := fun hc => by simp [State.jobAgrees, ← hc, hwait] at hja
        exact ⟨by simpa using hc, by rw [waitKind_takeBus_ne hc]; exact hja.2⟩
  busy := h.busy
  stage := h.stage
  walk := h.walk
  b5 := h.b5
  order := by simp [replay, h.order, Arbiter.held, hfree, BusEvent.after]

/-- The arbiter's grant step keeps the invariant. -/
theorem Consistent.grant {s : State} (h : Consistent s) (c : Requester) : Consistent (s.grant c) := by
  rcases grant_cases c s with ⟨kind, hf, hw, he⟩ | ⟨-, he⟩
  · exact he ▸ h.takeBus hf hw
  · exact he.symm ▸ h

/-- A slot changes: every other slot, the arbiter and SEQ stay as they were. -/
theorem Consistent.setPend {s : State} (h : Consistent s) {l : List Slot} {n : Nat} (hr : Rising Slot.port l)
    (hports : ∀ sl ∈ l, sl.port < Config.nPorts)
    (hother : ∀ m, m ≠ n → findKey Slot.port m l = s.slot m)
    (hself : ∀ sl, findKey Slot.port n l = some sl → s.slotAgrees sl)
    (hwait : s.waitKind (.port n) ≠ none → ∃ sl, findKey Slot.port n l = some sl ∧ sl.phase = .awaiting) :
    Consistent { s with ports.pend := l } where
  active := h.active
  activeAddr := h.activeAddr
  last := h.last
  waitq := h.waitq
  waitAuto := h.waitAuto
  ownerLeft := h.ownerLeft
  pend := hr
  ports := hports
  slots := fun m sl hm => by
    by_cases hmn : m = n
    · subst hmn; exact hself sl hm
    · exact h.slots m sl (by rw [← hother m hmn]; exact hm)
  waiters := fun m hm => by
    by_cases hmn : m = n
    · subst hmn; exact hwait hm
    · obtain ⟨sl, hs, hp⟩ := h.waiters m hm
      exact ⟨sl, by rw [← hs, ← hother m hmn]; rfl, hp⟩
  seq := h.seq
  busy := h.busy
  stage := h.stage
  walk := h.walk
  b5 := h.b5
  order := h.order

theorem Consistent.ports_of_mem {s : State} (h : Consistent s) {x : Slot} (hx : x.port < Config.nPorts) :
    ∀ sl ∈ insertKey Slot.port x s.ports.pend, sl.port < Config.nPorts := by
  intro sl hs
  rcases mem_insertKey hs with rfl | hs
  · exact hx
  · exact h.ports sl hs

theorem Consistent.accept {s : State} (h : Consistent s) (p : Port) (w : Word) : Consistent (s.accept p w) := by
  rcases accept_cases p w s with he | ⟨n, -, hn, hs, he⟩ | ⟨-, hs, he⟩
  · exact he.symm ▸ h
  · rw [he]
    refine h.setPend (n := n) (rising_insertKey h.pend) (h.ports_of_mem hn) (fun m hm => ?_) (fun sl hsl => ?_)
      (fun hw => ?_)
    · exact findKey_insertKey_ne (Ne.symm hm) _
    · have : some sl = some (⟨n, w, .issued⟩ : Slot) := by
        rw [← hsl]; exact findKey_insertKey_self (key := Slot.port) ⟨n, w, .issued⟩ s.ports.pend
      obtain rfl := Option.some.inj this
      trivial
    · exact absurd (h.notWaiting (n := n) (by simp [hs])) hw
  · have hq := h.seq
    have hnone : s.ports.seq = none := by
      cases hj : s.ports.seq with
      | none => rfl
      | some j =>
        simp only [State.seqAgrees, hj] at hq
        obtain ⟨i, ⟨w, hw, -⟩, -⟩ := hq
        simp [hs] at hw
    rw [he]
    exact
      { h with
        slots := h.slots
        waiters := h.waiters
        seq := by simpa [State.seqAgrees, hnone, State.waitKind] using hq
        walk := by simp [hnone] }

/-- A port's command is answered while its requester is not in WAITQ. -/
theorem Consistent.respondPort {s : State} (h : Consistent s) (hw : s.waitKind s.self = none) (st : Status) (d : Data) :
    Consistent (s.respondPort st d) := by
  have : Consistent { s with ports.pend := eraseKey Slot.port s.out.actPort s.ports.pend } :=
    h.setPend (n := s.out.actPort) (rising_eraseKey h.pend) (fun sl hs => h.ports sl (mem_eraseKey.1 hs).1)
      (fun m hm => findKey_eraseKey_ne (Ne.symm hm) _) (by simp) (fun hn => absurd hw hn)
  exact this.congr rfl rfl rfl rfl rfl

/-- A port's command past a primitive: its requester is the owner. -/
theorem Consistent.setPhase {s : State} (h : Consistent s) {sl : Slot} (hs : s.slot s.out.actPort = some sl)
    (ph : Phase)
    (ha : s.slotAgrees { sl with phase := ph }) (hw : s.waitKind s.self ≠ none → ph = .awaiting) :
    Consistent (s.setPhase ph) := by
  have hp := slot_port hs
  rw [setPhase_of_slot hs]
  have hfind : findKey Slot.port s.out.actPort (insertKey Slot.port { sl with phase := ph } s.ports.pend) =
      some { sl with phase := ph } := by
    have := findKey_insertKey_self (key := Slot.port) { sl with phase := ph } s.ports.pend
    simpa [hp] using this
  refine h.setPend (n := s.out.actPort) (rising_insertKey h.pend)
    (h.ports_of_mem (by simpa using h.ports sl (slot_mem hs))) (fun m hm => ?_) (fun sl' hsl => ?_) (fun hn => ?_)
  · exact findKey_insertKey_ne (by simpa [hp] using Ne.symm hm) _
  · rw [hfind] at hsl
    obtain rfl := Option.some.inj hsl
    exact ha
  · exact ⟨_, hfind, hw hn⟩

/-! Ownership. -/

/-- A bus port retargets the transaction it owns, with none of its command's steps taken. -/
theorem Consistent.retarget {s : State} (h : Consistent s) (ho : s.arb.owner = some s.self)
    (hi : s.phase = .issued) (a : DevAddr) :
    Consistent (s.retarget s.self a) where
  active := h.active
  activeAddr := by simp [ho]
  last := by simp
  waitq := h.waitq
  waitAuto := by simp
  ownerLeft := h.ownerLeft
  pend := h.pend
  ports := h.ports
  slots := fun n sl hs => by
    have hn := h.slots n sl hs
    unfold State.slotAgrees at hn ⊢
    cases hph : sl.phase with
    | issued => trivial
    | awaiting =>
      simp only [hph] at hn
      obtain ⟨i, hd, he, hk⟩ := hn
      refine ⟨i, hd, he, .inl (hk.resolve_right fun hk' => ?_)⟩
      have hself : s.out.actPort = n := by
        have := Option.some.inj (ho.symm.trans hk'.1)
        simpa [State.self, slot_port (s := s) hs] using this
      subst hself
      rw [phase_of_slot (s := s) hs, hph] at hi
      exact absurd hi (by simp)
    | firstByte b => simpa [hph] using hn
    | done st d => simpa [hph] using hn
  waiters := h.waiters
  seq := by
    have hq := h.seq
    unfold State.seqAgrees at hq ⊢
    simp only [State.retarget_ports]
    cases hj : s.ports.seq with
    | none => simp only [hj] at hq ⊢; exact hq
    | some j =>
      simp only [hj] at hq
      obtain ⟨i, hi, hu, hja⟩ := hq
      refine ⟨i, hi, hu, ?_⟩
      have hseq : s.arb.owner ≠ some .seq := by simp [ho, State.self]
      cases hph : j.phase with
      | awaiting => rw [hph] at hja; exact .inl (hja.resolve_right fun h' => hseq h'.1)
      | running => rw [hph] at hja; exact absurd hja.1 hseq
      | offBus => rw [hph] at hja; exact hja
      | computed r => rw [hph] at hja; exact hja
  busy := h.busy
  stage := h.stage
  walk := h.walk
  b5 := h.b5
  order := by simp [replay, h.order, Arbiter.held, ho, BusEvent.after]

theorem Consistent.transfer {s : State} (h : Consistent s) {c : Requester} (ho : s.arb.owner = some c) {p : Prim}
    (hp : p.dev = s.arb.activeAddr) : Consistent (s.transfer c p) where
  active := h.active
  activeAddr := h.activeAddr
  last := h.last
  waitq := h.waitq
  waitAuto := h.waitAuto
  ownerLeft := h.ownerLeft
  pend := h.pend
  ports := h.ports
  slots := h.slots
  waiters := h.waiters
  seq := h.seq
  busy := h.busy
  stage := h.stage
  walk := h.walk
  b5 := h.b5
  order := by simp [replay, h.order, Arbiter.held, ho, BusEvent.after, hp]

/-- A port gives the bus up and is answered. -/
theorem Consistent.releasePort {s : State} (h : Consistent s) (ho : s.arb.owner = some s.self) (st : Status)
    (d : Data) :
    Consistent ((s.release s.self).respondPort st d) := by
  have hn : s.waitKind s.self = none := h.ownerLeft _ ho
  refine
    { active := rfl
      activeAddr := fun _ => rfl
      last := fun h => absurd rfl h
      waitq := h.waitq
      waitAuto := h.waitAuto
      ownerLeft := by simp
      pend := rising_eraseKey h.pend
      ports := fun sl hs => h.ports sl (mem_eraseKey.1 hs).1
      slots := fun n sl hs => ?_
      waiters := fun n hw => ?_
      seq := ?_
      busy := h.busy
      stage := h.stage
      walk := h.walk
      b5 := h.b5
      order := by simp [replay, h.order, Arbiter.held, ho, BusEvent.after] }
  · have hne : s.out.actPort ≠ n := by
      rintro rfl
      have hnone := slot_respondPort_self st d (s.release s.self)
      simp only [State.release_out_actPort] at hnone
      exact absurd (hnone.symm.trans hs) (by simp)
    rw [slot_respondPort_ne (by simpa using hne)] at hs
    have hsl := h.slots n sl hs
    have hp := slot_port hs
    unfold State.slotAgrees at hsl ⊢
    have hself : s.arb.owner ≠ some (.port sl.port) := by
      rw [ho, hp]; simpa [State.self] using hne
    cases hph : sl.phase with
    | issued => trivial
    | awaiting =>
      simp only [hph] at hsl
      obtain ⟨i, hd, he, hk⟩ := hsl
      exact ⟨i, hd, he, waitsOrHolds_release (c := s.self) hk hself⟩
    | firstByte b => simp only [hph] at hsl; exact absurd hsl.2 hself
    | done st d => simp only [hph] at hsl; exact absurd hsl.2 hself
  · have hw' : s.waitKind (.port n) ≠ none := hw
    have hne : s.out.actPort ≠ n := by
      rintro rfl; exact hw' hn
    obtain ⟨sl, hs, hp⟩ := h.waiters n hw'
    exact ⟨sl, by rw [slot_respondPort_ne (by simpa using hne)]; exact hs, hp⟩
  · have hq := h.seq
    unfold State.seqAgrees at hq ⊢
    have hseq : s.arb.owner ≠ some .seq := by simp [ho, State.self]
    cases hj : s.ports.seq with
    | none =>
      simp only [hj] at hq
      simp only [State.respondPort_ports_seq, State.release_ports, hj]
      exact ⟨by simp, hq.2⟩
    | some j =>
      simp only [hj] at hq
      simp only [State.respondPort_ports_seq, State.release_ports, hj]
      obtain ⟨i, hi, hu, hja⟩ := hq
      refine ⟨i, hi, hu, ?_⟩
      cases hph : j.phase with
      | awaiting => rw [hph] at hja; exact waitsOrHolds_release (c := s.self) hja hseq
      | running => rw [hph] at hja; exact absurd hja.1 hseq
      | offBus => rw [hph] at hja; exact ⟨by simp, hja.2⟩
      | computed r => rw [hph] at hja; exact ⟨by simp, hja.2⟩

/-- A port enters WAITQ and comes to its await. -/
theorem Consistent.waitPort {s : State} (h : Consistent s) {sl : Slot} (hs : s.slot s.out.actPort = some sl)
    {i : Instr} (hd : decode .bus sl.word = .ok i) (hi : i ≠ .busEnd) (ho : s.arb.owner ≠ some s.self)
    (hl : acquireKind i = .auto → s.arb.lastV = true) :
    Consistent ((s.enqueue s.self (acquireKind i)).setPhase .awaiting) := by
  generalize hkind : acquireKind i = kind at hl ⊢
  have hp := slot_port hs
  have hs' : (s.enqueue s.self kind).slot (s.enqueue s.self kind).out.actPort = some sl := hs
  have hmine (n : Nat) (hn : s.out.actPort ≠ n) : s.self ≠ .port n := by simpa [State.self] using hn
  refine
    { active := by simpa using h.active
      activeAddr := by simpa using h.activeAddr
      last := by simpa using h.last
      waitq := by simpa using rising_insertKey h.waitq
      waitAuto := fun c hc => ?_
      ownerLeft := fun c hc => ?_
      pend := ?_
      ports := ?_
      slots := fun n sl' hn => ?_
      waiters := fun n hn => ?_
      seq := ?_
      busy := by simpa using h.busy
      stage := by simpa using h.stage
      walk := by simpa [Ports.engineCommand] using h.walk
      b5 := by simpa using h.b5
      order := by simpa [Arbiter.held] using h.order }
  · rw [waitKind_congr (s := s.enqueue s.self kind) (by simp)] at hc
    by_cases hcs : s.self = c
    · subst hcs
      simp only [waitKind_enqueue_self, Option.some.injEq] at hc
      simpa using hl hc
    · rw [waitKind_enqueue_ne hcs] at hc
      simpa using h.waitAuto c hc
  · have hc' : s.arb.owner = some c := by simpa using hc
    rw [waitKind_congr (s := s.enqueue s.self kind) (by simp)]
    have hcs : s.self ≠ c := fun he => ho (he ▸ hc')
    rw [waitKind_enqueue_ne hcs]
    exact h.ownerLeft c hc'
  · rw [setPhase_of_slot hs']
    exact rising_insertKey h.pend
  · rw [setPhase_of_slot hs']
    exact h.ports_of_mem (by simpa using h.ports sl (slot_mem hs))
  · by_cases hne : s.out.actPort = n
    · subst hne
      have := slot_setPhase_self hs' .awaiting
      simp only [State.enqueue_out] at this
      rw [this] at hn
      obtain rfl := Option.some.inj hn
      refine ⟨i, hd, hi, .inl ?_⟩
      rw [waitKind_congr (s := s.enqueue s.self kind) (by simp)]
      simp only [hp]
      rw [show Requester.port s.out.actPort = s.self from rfl]
      simp [hkind]
    · rw [slot_setPhase_ne (by simpa using hne)] at hn
      have hn' := h.slots n sl' hn
      have hp' : sl'.port = n := slot_port (s := s) hn
      rw [slotAgrees_congr (s := s.enqueue s.self kind) (by simp)]
      exact (slotAgrees_enqueue (hp'.symm ▸ hmine n hne)).2 hn'
  · rw [waitKind_congr (s := s.enqueue s.self kind) (by simp)] at hn
    by_cases hne : s.out.actPort = n
    · subst hne
      exact ⟨_, slot_setPhase_self hs' .awaiting, rfl⟩
    · rw [waitKind_enqueue_ne (hmine n hne)] at hn
      rw [slot_setPhase_ne (by simpa using hne)]
      exact h.waiters n hn
  · have hq := h.seq
    unfold State.seqAgrees at hq ⊢
    have hseq : s.self ≠ .seq := by simp [State.self]
    simp only [State.setPhase_ports_seq, State.enqueue_ports]
    cases hj : s.ports.seq with
    | none =>
      simp only [hj] at hq ⊢
      rw [waitKind_congr (s := s.enqueue s.self kind) (by simp), waitKind_enqueue_ne hseq]
      simpa using hq
    | some j =>
      simp only [hj] at hq ⊢
      obtain ⟨i, hi, hu, hja⟩ := hq
      refine ⟨i, by simpa [Ports.engineCommand] using hi, hu, ?_⟩
      rw [jobAgrees_congr (s := s.enqueue s.self kind) (by simp)]
      cases hph : j.phase with
      | awaiting => rw [hph] at hja; exact (waitsOrHolds_enqueue hseq).2 hja
      | running => rw [hph] at hja; exact hja
      | offBus => rw [hph] at hja; exact ⟨hja.1, by rw [waitKind_enqueue_ne hseq]; exact hja.2⟩
      | computed r => rw [hph] at hja; exact ⟨hja.1, by rw [waitKind_enqueue_ne hseq]; exact hja.2⟩

/-! SEQ. -/

/-- The engine command is answered while SEQ neither owns the bus nor waits for it. -/
theorem Consistent.respondEngine {s : State} (h : Consistent s) (ho : s.arb.owner ≠ some .seq)
    (hw : s.waitKind .seq = none) (st : Status) (d : Data) : Consistent (s.respondEngine st d) where
  active := h.active
  activeAddr := h.activeAddr
  last := h.last
  waitq := h.waitq
  waitAuto := h.waitAuto
  ownerLeft := h.ownerLeft
  pend := h.pend
  ports := h.ports
  slots := h.slots
  waiters := h.waiters
  seq := ⟨ho, hw⟩
  busy := rfl
  stage := h.stage
  walk := by simp
  b5 := h.b5
  order := h.order

/-- SEQ's slot changes while its command runs. -/
theorem Consistent.setJob {s : State} (h : Consistent s) {j : Job} (hj : s.ports.seq = some j) {i : Instr}
    (hi : s.ports.engineCommand i) (hu : usesSeq i = true) {j' : Job} (hph : s.jobAgrees i j'.phase)
    (hw : j'.walk = j.walk ∨ i = .rdtemp ∨ i = .rdpres) : Consistent (s.setJob j') :=
  { h with
    slots := h.slots
    waiters := h.waiters
    seq := ⟨i, hi, hu, hph⟩
    busy := by have := h.busy; rw [hj] at this; exact this
    walk := by
      rintro k hk hn
      obtain rfl : j' = k := by simpa using hk
      rcases hw with hw | rfl | rfl
      · exact h.walk j hj (hw ▸ hn)
      · exact .inl hi
      · exact .inr hi }

/-- SEQ gives the bus up and goes on off the bus. -/
theorem Consistent.releaseSeq {s : State} (h : Consistent s) {j : Job} (hj : s.ports.seq = some j)
    (ho : s.arb.owner = some .seq) {j' : Job} (hph : j'.phase = .offBus) (hw : j'.walk = j.walk) :
    Consistent ((s.release .seq).setJob j') := by
  have hq := h.seq
  simp only [State.seqAgrees, hj] at hq
  obtain ⟨i, hi, hu, -⟩ := hq
  refine
    { active := rfl
      activeAddr := fun _ => rfl
      last := fun h => absurd rfl h
      waitq := h.waitq
      waitAuto := h.waitAuto
      ownerLeft := by simp
      pend := h.pend
      ports := h.ports
      slots := fun n sl hs => ?_
      waiters := h.waiters
      seq := ⟨i, hi, hu, ?_⟩
      busy := by have := h.busy; rw [hj] at this; exact this
      stage := h.stage
      walk := fun k hk hn => h.walk j hj (by
        obtain rfl : j' = k := by simpa using hk
        rwa [← hw])
      b5 := h.b5
      order := by simp [replay, h.order, Arbiter.held, ho, BusEvent.after] }
  · have hsl := h.slots n sl hs
    unfold State.slotAgrees at hsl ⊢
    cases hph : sl.phase with
    | issued => trivial
    | awaiting =>
      simp only [hph] at hsl
      obtain ⟨i, hd, he, hk⟩ := hsl
      exact ⟨i, hd, he, waitsOrHolds_release (c := .seq) hk (by simp [ho])⟩
    | firstByte b => simp [hph, ho] at hsl
    | done st d => simp [hph, ho] at hsl
  · rw [hph]
    exact ⟨by simp, h.ownerLeft _ ho⟩

/-- An engine command begins its transaction. -/
theorem Consistent.acquireSeq {s : State} (h : Consistent s) (hnone : s.ports.seq = none) {i : Instr}
    (hi : s.ports.engineCommand i) (hu : usesSeq i = true) (j : Job)
    (hw : j.walk = none ∨ i = .rdtemp ∨ i = .rdpres) : Consistent (s.acquireSeq (seqDev i) j) := by
  have hq := h.seq
  simp only [State.seqAgrees, hnone] at hq
  rcases acquireSeq_cases (seqDev i) j s with ⟨ho, -⟩ | ⟨-, he⟩
  · exact absurd ho hq.1
  rw [he]
  have hport (n : Nat) : Requester.seq ≠ .port n := by simp
  refine
    { active := h.active
      activeAddr := h.activeAddr
      last := h.last
      waitq := rising_insertKey h.waitq
      waitAuto := fun c hc => ?_
      ownerLeft := fun c hc => ?_
      pend := h.pend
      ports := h.ports
      slots := fun n sl hs => ?_
      waiters := fun n hn => ?_
      seq := ?_
      busy := rfl
      stage := h.stage
      walk := fun k hk hn => by
        obtain rfl := Option.some.inj hk
        rcases hw with hw | rfl | rfl
        · exact absurd hw hn
        · exact .inl hi
        · exact .inr hi
      b5 := h.b5
      order := h.order }
  · rw [waitKind_congr (s := s.enqueue .seq (.explicit (seqDev i))) (by simp)] at hc
    by_cases hcs : Requester.seq = c
    · subst hcs; simp at hc
    · rw [waitKind_enqueue_ne hcs] at hc
      exact h.waitAuto c hc
  · rw [waitKind_congr (s := s.enqueue .seq (.explicit (seqDev i))) (by simp)]
    have hcs : Requester.seq ≠ c := fun he => hq.1 (he ▸ hc)
    rw [waitKind_enqueue_ne hcs]
    exact h.ownerLeft c hc
  · have hsl := h.slots n sl hs
    exact (slotAgrees_congr (s := s.enqueue .seq (.explicit (seqDev i))) rfl sl).2
      ((slotAgrees_enqueue (hport _)).2 hsl)
  · rw [waitKind_congr (s := s.enqueue .seq (.explicit (seqDev i))) (by simp), waitKind_enqueue_ne (hport n)] at hn
    exact h.waiters n hn
  · refine ⟨i, hi, hu, .inl ?_⟩
    rw [waitKind_congr (s := s.enqueue .seq (.explicit (seqDev i))) (by simp)]
    simp

end Sys2Proof.Machine
end

