-- ==== Sys2Proof/Laws/Commands.lean ====
section
/-! SUPPORT. The invariant through a whole command: each bus-family command and each engine-family command keeps it,
from any state of it in which the command is the one in its requester's slot. -/

namespace Sys2Proof.Machine

/-- A primitive of the owning bus port, whose command then stands past it. -/
theorem Consistent.primPhase {s : State} (h : Consistent s) {sl : Slot} (hs : s.slot s.out.actPort = some sl)
    (hw : waitsForBus sl.word) (ho : s.arb.owner = some s.self) {p : Prim} (hp : p.dev = s.arb.activeAddr) (ph : Phase)
    (hph : match ph with | .firstByte _ => True | .done _ _ => True | _ => False) :
    Consistent ((s.transfer s.self p).setPhase ph) := by
  have ht := h.transfer ho hp
  refine ht.setPhase (sl := sl) hs ph ?_ (fun hn => absurd (h.ownerLeft _ ho) hn)
  have : s.arb.owner = some (.port sl.port) := by rw [ho, slot_port hs]; rfl
  unfold State.slotAgrees
  cases ph <;> simp_all

/-- A bus port's last primitive. -/
theorem Consistent.lastPrim {s : State} (h : Consistent s) {sl : Slot} (hs : s.slot s.out.actPort = some sl)
    (hw : waitsForBus sl.word) (ho : s.arb.owner = some s.self) {p : Prim} (hp : p.dev = s.arb.activeAddr) (good : Byte → Data) :
    Consistent (s.lastPrim p good) := by
  rcases lastPrim_cases p good s with ⟨b, -, he⟩ | ⟨k, c, -, he⟩ <;> rw [he] <;>
  exact h.primPhase hs hw ho hp _ trivial

/-- The shared part of the commands that acquire the bus, from what their part on the bus keeps. -/
theorem Consistent.withBus {s : State} (h : Consistent s) {sl : Slot} (hs : s.slot s.out.actPort = some sl) {i : Instr}
    (hd : decode .bus sl.word = .ok i) (hi : i ≠ .busEnd) {body : State → State}
    (hb : ∀ u : State, Consistent u → u.slot u.out.actPort = some sl → u.arb.owner = some u.self →
      (∀ a, acquireKind i = .explicit a → u.arb.activeAddr = a) → Consistent (body u)) :
    Consistent (s.withBus (acquireKind i) body) := by
  have hp := phase_of_slot hs
  rcases withBus_cases (acquireKind i) body s with ⟨hi, ho, hk, he⟩ | ⟨a, hi, ho, hk, he⟩ | ⟨hi, ho, he⟩ |
    ⟨hi, ho, hk, hl, he⟩ | ⟨hi, ho, hl, he⟩ | ⟨hi, ho, he⟩ <;> rw [he]
  · exact hb s h hs ho (by simp [hk])
  · exact hb _ (h.retarget ho hi a) hs ho (by simp [hk])
  · refine hb s h hs ho fun a ha => ?_
    have ha' := h.slots _ _ hs
    simp only [State.slotAgrees, ← hp, hi] at ha'
    obtain ⟨i', hd', -, hk⟩ := ha'
    obtain rfl : i = i' := by rw [hd] at hd'; exact Except.ok.inj hd'
    have hself : Requester.port sl.port = s.self := by rw [slot_port hs]; rfl
    rw [hself] at hk
    exact (hk.resolve_left (by simp [h.ownerLeft _ ho])).2 a ha
  · exact h.respondPort (h.notWaiting (fun sl' hs' => by rw [hs] at hs'; cases hs'; simp [← hp, hi])) _ _
  · exact h.waitPort hs hd ‹_› ho hl
  · exact h

/-- The end of the reading cycle. -/
theorem Consistent.endCycle {s : State} (h : Consistent s) : Consistent s.endCycle :=
  h.setEng { s.eng with stage := .idle } rfl (by simp)

/-- The environment's move used up. -/
theorem Consistent.dropEvent {s : State} (h : Consistent s) : Consistent s.dropEvent :=
  h.congr (by simp) (by simp) (by simp) (by simp) (by simp)

/-- The acting port noted. -/
theorem Consistent.actAs {s : State} (h : Consistent s) (n) : Consistent (s.actAs n) := h.congr rfl rfl rfl rfl rfl

/-- A port past its last primitive owns the bus. -/
theorem Consistent.done {s : State} (h : Consistent s) {sl : Slot} (hs : s.slot s.out.actPort = some sl) {st d}
    (hp : s.phase = .done st d) : s.arb.owner = some s.self := by
  have := h.slots _ _ hs
  have hp' := phase_of_slot hs
  simp only [State.slotAgrees, ← hp', hp] at this
  rw [this.2, slot_port hs]; rfl

/-- A step of a bus-family command. -/
theorem Consistent.execBus {s t : State} (h : Consistent s) {sl : Slot} (hs : s.slot s.out.actPort = some sl)
    {i : Instr} (hd : decode .bus sl.word = .ok i) (hc : i.portClass = .bus) (hx : exec i s = .next t) : Consistent t := by
  have hw : i ≠ .busEnd → waitsForBus sl.word := fun hi => ⟨i, hd, hi⟩
  have hlast (i' : Instr) (he : i' = i) (hi : i ≠ .busEnd) (p : State → Prim) (good)
      (hp : ∀ u : State, (∀ a, acquireKind i' = .explicit a → u.arb.activeAddr = a) → (p u).dev = u.arb.activeAddr) :
      Consistent (s.withBus (acquireKind i') fun u => u.lastPrim (p u) good) := by
    subst he
    exact h.withBus hs hd hi fun u hu hus huo ha => hu.lastPrim hus (hw hi) huo (hp u ha) good
  cases i with
  | busBegin a =>
    simp only [exec, execBusBegin, Host.Outcome.next.injEq] at hx
    subst hx
    exact h.withBus hs hd (by simp) fun u hu hus huo _ => hu.respondPort (hu.ownerLeft _ huo) _ _
  | busEnd =>
    simp only [exec, execBusEnd, Host.Outcome.next.injEq] at hx
    subst hx
    split
    · exact h.releasePort ‹_› _ _
    · refine h.respondPort (h.notWaiting fun sl' hs' hp => ?_) _ _
      rw [hs] at hs'; cases hs'
      have := h.slots _ _ hs
      simp only [State.slotAgrees, hp] at this
      obtain ⟨i', hd', hi', -⟩ := this
      rw [hd] at hd'; cases hd'; exact hi' rfl
  | rdb reg =>
    simp only [exec, execRdb, Host.Outcome.next.injEq] at hx
    subst hx
    split
    · next st d hp => exact h.respondPort (h.ownerLeft _ (h.done hs hp)) _ _
    · exact hlast _ rfl (by simp) (fun u => .read u.arb.activeAddr reg) _ (fun u _ => rfl)
  | rdw reg flip =>
    simp only [exec, execRdw] at hx
    split at hx
    · next st d hp => cases hx; exact h.respondPort (h.ownerLeft _ (h.done hs hp)) _ _
    · rw [requireOwner_next] at hx
      obtain ⟨ho, rfl⟩ := hx
      exact h.lastPrim hs (hw (by simp)) ho rfl _
    · cases hx
      refine h.withBus (i := .rdw reg flip) hs hd (by simp) fun u hu hus huo _ => ?_
      rcases firstRead_cases reg u with ⟨b, -, he⟩ | ⟨k, c, -, he⟩ <;> rw [he] <;>
      exact hu.primPhase hus (hw (by simp)) huo rfl _ trivial
  | wrb reg data =>
    simp only [exec, execWrb, Host.Outcome.next.injEq] at hx
    subst hx
    split
    · next st d hp => exact h.respondPort (h.ownerLeft _ (h.done hs hp)) _ _
    · exact hlast _ rfl (by simp) (fun u => .write u.arb.activeAddr reg data) _ (fun u _ => rfl)
  | ldcfg a reg =>
    simp only [exec, execLdcfg, Host.Outcome.next.injEq] at hx
    subst hx
    split
    · next st d hp => exact h.releasePort (h.done hs hp) _ _
    · exact hlast _ rfl (by simp) (fun u => .read a reg) _ (fun u hu => (hu a rfl).symm)
  | stcfg a reg data =>
    simp only [exec, execStcfg, Host.Outcome.next.injEq] at hx
    subst hx
    split
    · next st d hp => exact h.releasePort (h.done hs hp) _ _
    · exact hlast _ rfl (by simp) (fun u => .write a reg data) _ (fun u hu => (hu a rfl).symm)
  | _ => simp [Instr.portClass] at hc

/-- Between engine commands SEQ neither owns the bus nor waits for it. -/
theorem Consistent.seqIdle {s : State} (h : Consistent s) (hn : s.ports.seq = none) :
    s.arb.owner ≠ some .seq ∧ s.waitKind .seq = none := by
  simpa only [State.seqAgrees, hn] using h.seq

/-- The engine port holds at most one command. -/
theorem engineCommand_unique {p : Ports} {i i'} (h : p.engineCommand i) (h' : p.engineCommand i') : i = i' := by
  obtain ⟨w, hw, hd⟩ := h
  obtain ⟨w', hw', hd'⟩ := h'
  rw [hw] at hw'; cases hw'; rw [hd] at hd'; exact Except.ok.inj hd'

/-- A step of an engine command's bus sequence. -/
theorem Consistent.seqStep {s t : State} (h : Consistent s) {j : Job} (hj : s.ports.seq = some j) {i : Instr}
    (hi : s.ports.engineCommand i) (hu : usesSeq i = true) {list onRelease finish onFail}
    (hlist : ∀ op ∈ list j, ∀ reg v st, op = SeqOp.trigger reg v st → i = .rdtemp ∨ i = .rdpres)
    (hrel : ∀ u : State, Consistent u → u.ports.engineCommand i → u.arb.owner = some .seq → u.ports.seq = some j →
        Consistent (onRelease { j with phase := .offBus } (u.release .seq)))
    (hfin : s.arb.owner ≠ some .seq → s.waitKind .seq = none → j.phase ≠ .awaiting → j.phase ≠ .running →
      Consistent (finish j s))
    (hfail : onFail s = s.endCycle ∨ onFail s = s)
    (hx : s.seqStep (seqDev i) list onRelease finish onFail j = .next t) : Consistent t := by
  have hq := h.seq
  simp only [State.seqAgrees, hj] at hq
  obtain ⟨i', hi', hu', hja⟩ := hq
  obtain rfl := engineCommand_unique hi hi'
  have hoff : j.phase ≠ .awaiting → j.phase ≠ .running → s.arb.owner ≠ some .seq ∧ s.waitKind .seq = none := by
    intro h1 h2
    cases hp : j.phase with
    | awaiting => exact absurd hp h1
    | running => exact absurd hp h2
    | offBus => rw [hp] at hja; exact hja
    | computed r => rw [hp] at hja; exact hja
  rcases seqStep_cases hx with ⟨ho, hp, rfl⟩ | ⟨ho, hp, rfl⟩ | ⟨st, d, h1, h2, hf, rfl⟩ | ⟨h1, h2, hf, rfl⟩
  · have hdev : s.arb.activeAddr = seqDev i := by
      rcases hp with hp | hp <;> rw [hp] at hja
      · exact (hja.resolve_left (by simp [h.ownerLeft _ ho])).2 _ rfl
      · exact hja.2
    rcases seqOnBus_cases (seqDev i) list onRelease j s with ⟨f, hf, he⟩ | ⟨op, hf, hop, he⟩ | ⟨hf, hop, he⟩ <;> rw [he]
    · exact h.releaseSeq hj ho rfl rfl
    · obtain ⟨j', hj', -, hwalk, hc⟩ := seqOp_cases (seqDev i) j op s
      have hrun : s.jobAgrees i j'.phase := by rw [hj']; exact ⟨ho, hdev⟩
      have hwalk : j'.walk = j.walk ∨ i = .rdtemp ∨ i = .rdpres := hwalk.imp_right fun ⟨reg, v, st, hop'⟩ =>
        hlist op (List.mem_of_getElem? hop) reg v st hop'
      rcases hc with ⟨p, hp, -, he⟩ | he <;> rw [he]
      · exact (h.transfer ho (hp.trans hdev.symm)).setJob hj hi hu hrun hwalk
      · exact h.setJob hj hi hu hrun hwalk
    · exact hrel s h hi ho hj
  · exact h
  · obtain ⟨o, w⟩ := hoff h1 h2
    rcases hfail with he | he <;> rw [he]
    · exact h.endCycle.respondEngine o w _ _
    · exact h.respondEngine o w _ _
  · obtain ⟨o, w⟩ := hoff h1 h2
    exact hfin o w h1 h2

/-- Off the bus, an engine command's commit and response. -/
theorem Consistent.endResp {s : State} (h : Consistent s) (e : Engine) (o : s.arb.owner ≠ some .seq)
    (w : s.waitKind .seq = none)
    (ht : e.stage.transient = false) (hb : e.stage = .temperatureRead → e.tempWritten = true) (st d) :
    Consistent ({ s with eng := e }.respondEngine st d) :=
  (h.setEng e ht hb).respondEngine o w st d

/-- RDTEMP's arithmetic and response. -/
theorem Consistent.finishTemp {s : State} (h : Consistent s) (o : s.arb.owner ≠ some .seq)
    (w : s.waitKind .seq = none) (ut) :
    Consistent (s.finishTemp ut) := by
  unfold State.finishTemp
  split
  · exact h.endResp _ o w rfl (by simp) _ _
  · exact h.endResp _ o w rfl (by simp) _ _

/-- A step of an engine-family command. -/
theorem Consistent.execEngine {s t : State} (h : Consistent s) {i : Instr}
    (hi : s.ports.engineCommand i) (hc : i.portClass = .engine) (hx : exec i s = .next t) : Consistent t := by
  have hidle : usesSeq i = false → s.ports.seq = none := by
    intro hu
    cases hj : s.ports.seq with
    | none => rfl
    | some j =>
      have hq := h.seq
      simp only [State.seqAgrees, hj] at hq
      obtain ⟨i', hi', hu', -⟩ := hq
      obtain rfl := engineCommand_unique hi hi'
      simp [hu] at hu'
  have hrelease (j : Job) (u : State) (hu : Consistent u) (hs : u.arb.owner = some .seq) (hj : u.ports.seq = some j) :
      Consistent ((u.release .seq).setJob { j with phase := .offBus }) := hu.releaseSeq hj hs rfl rfl
  have hsimple (hu : usesSeq i = false) (e : Engine)
    (he : e.stage = .idle ∨ (e.stage = s.eng.stage ∧ e.tempWritten = s.eng.tempWritten)) (st d) :
      Consistent ({ s with eng := e }.respondEngine st d) := by
    obtain ⟨o, w⟩ := h.seqIdle (hidle hu)
    rcases he with he | ⟨he, he'⟩
    · exact h.endResp e o w (by simp [he, Stage.transient]) (by simp [he]) st d
    · exact h.endResp e o w (by rw [he]; exact h.stage) (by rw [he, he']; exact h.b5) st d
  cases i with
  | setoss m => cases hx; exact hsimple rfl { s.eng with oss := m } (.inr ⟨rfl, rfl⟩) _ _
  | setsrc m => cases hx; exact hsimple rfl _ (.inl rfl) _ _
  | injut m => cases hx; exact hsimple rfl { s.eng with injUt := m } (.inr ⟨rfl, rfl⟩) _ _
  | injup m => cases hx; exact hsimple rfl { s.eng with injUp := m } (.inr ⟨rfl, rfl⟩) _ _
  | wrcal sel imm =>
    simp only [exec, execWrcal, Host.Outcome.next.injEq] at hx
    subst hx
    split
    · exact hsimple rfl _ (.inl rfl) _ _
    · exact hsimple rfl s.eng (.inr ⟨rfl, rfl⟩) _ _
  | rdreg sel =>
    simp only [exec, execRdreg, Host.Outcome.next.injEq] at hx
    subst hx
    split
    · split
      · exact hsimple rfl s.eng (.inr ⟨rfl, rfl⟩) _ _
      · have : Consistent (s.respondEngine .ok (zextData (Config.freeWord s.out.draws))) :=
          hsimple rfl s.eng (.inr ⟨rfl, rfl⟩) _ _
        exact this.congr rfl rfl rfl rfl rfl
    · exact hsimple rfl s.eng (.inr ⟨rfl, rfl⟩) _ _
  | acqcal =>
    simp only [exec, execAcqcal] at hx
    split at hx
    · next hn =>
      cases hx
      obtain ⟨o, w⟩ := h.seqIdle hn
      split
      · exact h.endResp _ o w rfl (by simp) _ _
      · exact h.acquireSeq hn hi rfl _ (.inl rfl)
    · next j hj =>
      refine h.seqStep (i := .acqcal) hj hi rfl ?_ (fun u hu _ ho hj => hrelease j u hu ho hj)
        (fun o w _ _ => h.endResp _ o w rfl (by simp) _ _)
        (.inr rfl) hx
      rintro op hop reg v st rfl
      simp [acqcalList] at hop
  | rdtemp =>
    simp only [exec, execRdtemp] at hx
    split at hx
    · next hn =>
      cases hx
      obtain ⟨o, w⟩ := h.seqIdle hn
      split
      · exact h.finishTemp o w _
      · exact h.acquireSeq (i := .rdtemp) hn hi rfl _ (.inr (.inl rfl))
    · next j hj =>
      refine h.seqStep (i := .rdtemp) hj hi rfl (fun _ _ _ _ _ _ => .inl rfl) (fun u hu hui ho huj => ?_)
        (fun o w _ _ => h.finishTemp o w _) (.inl rfl) hx
      exact (hrelease j u hu ho huj).setJob (i := .rdtemp) rfl hui rfl ⟨by simp, hu.ownerLeft _ ho⟩ (.inr (.inl rfl))
  | rdpres =>
    simp only [exec, execRdpres] at hx
    split at hx
    · next hn =>
      cases hx
      obtain ⟨o, w⟩ := h.seqIdle hn
      unfold State.startPres
      split
      · split
        · exact
            { h with
              slots := h.slots
              waiters := h.waiters
              seq := ⟨.rdpres, hi, rfl, o, w⟩
              busy := rfl
              walk := fun _ _ _ => .inr hi }
        · exact h.acquireSeq hn hi rfl _ (.inr (.inr rfl))
      · exact h.respondEngine o w _ _
    · next j hj =>
      refine h.seqStep (i := .rdpres) hj hi rfl (fun _ _ _ _ _ _ => .inr rfl) (fun u hu hui ho huj => ?_)
        (fun o w hp1 hp2 => ?_) (.inl rfl) hx
      · exact (hrelease j u hu ho huj).setJob (i := .rdpres) rfl hui rfl ⟨by simp, hu.ownerLeft _ ho⟩ (.inr (.inr rfl))
      · unfold State.finishPres
        split
        · exact h.endResp _ o w rfl (by simp) _ _
        · split
          · exact h.setJob hj hi rfl ⟨o, w⟩ (.inr (.inr rfl))
          · unfold State.computePres
            split
            · exact h.endResp _ o w rfl (by simp) _ _
            · exact h.setJob hj hi rfl ⟨o, w⟩ (.inr (.inr rfl))
  | acccfg data =>
    simp only [exec, execAcccfg] at hx
    split at hx
    · next hn => cases hx; exact h.acquireSeq hn hi rfl _ (.inl rfl)
    · next j hj =>
      refine h.seqStep (i := .acccfg data) hj hi rfl (by simp) (fun u hu _ ho hj => hrelease j u hu ho hj)
        (fun o w _ _ => h.endResp { s.eng with accCtrl := data } o w h.stage (h.b5) _ _)
        (.inr rfl) hx
  | magcfg sel data =>
    simp only [exec, execMagcfg] at hx
    split at hx
    · next hn =>
      cases hx
      obtain ⟨o, w⟩ := h.seqIdle hn
      split
      · exact h.acquireSeq hn hi rfl _ (.inl rfl)
      · exact h.respondEngine o w _ _
    · next j hj =>
      refine h.seqStep (i := .magcfg sel data) hj hi rfl (by simp) (fun u hu _ ho hj => hrelease j u hu ho hj)
        (fun o w _ _ => h.respondEngine o w _ _)
        (.inr rfl) hx
  | rdacc =>
    simp only [exec, execRdacc] at hx
    split at hx
    · next hn =>
      cases hx
      obtain ⟨o, w⟩ := h.seqIdle hn
      split
      · exact h.respondEngine o w _ _
      · exact h.acquireSeq hn hi rfl _ (.inl rfl)
    · next j hj =>
      refine h.seqStep (i := .rdacc) hj hi rfl ?_ (fun u hu _ ho hj => hrelease j u hu ho hj)
        (fun o w _ _ => h.respondEngine o w _ _)
        (.inr rfl) hx
      rintro op hop reg v st rfl
      unfold rdaccList axisReads at hop
      grind
  | rdmag =>
    simp only [exec, execRdmag] at hx
    split at hx
    · next hn => cases hx; exact h.acquireSeq hn hi rfl _ (.inl rfl)
    · next j hj =>
      refine h.seqStep (i := .rdmag) hj hi rfl ?_ (fun u hu _ ho hj => hrelease j u hu ho hj)
        (fun o w _ _ => h.respondEngine o w _ _)
        (.inr rfl) hx
      rintro op hop reg v st rfl
      simp [rdmagList] at hop
  | _ => simp [Instr.portClass] at hc

end Sys2Proof.Machine
end

