-- ==== Sys2Proof/Laws/Effects.lean ====
section
/-! SUPPORT. Everything one step of a command can do, in a few shapes: the statements about all commands go through these and
not through the twenty meanings. -/

namespace Sys2Proof.Machine

/-- What a step of the bus-family command `i` can do. -/
inductive BusEffect (i : Instr) (s : State) : State → Prop where
  /-- No step. -/
  | stay : BusEffect i s s
  /-- A response, and nothing else. -/
  | respond (st : Status) (d : Data) : BusEffect i s (s.respondPort st d)
  /-- The owner's BEGIN. -/
  | retarget (a : DevAddr) (d : Data) (hk : acquireKind i = .explicit a) (ho : s.arb.owner = some s.self) :
    BusEffect i s ((s.retarget s.self a).respondPort .ok d)
  /-- The release and the response: END by the owner, or LDCFG and STCFG done. -/
  | release (st : Status) (d : Data) (hi : releasesBus i = true)
    (hd : s.arb.owner = some s.self ∨ s.phase = .done st d) : BusEffect i s ((s.release s.self).respondPort st d)
  /-- Into WAITQ. -/
  | wait (kind : WaitKind) (ho : s.arb.owner ≠ some s.self) :
    BusEffect i s ((s.enqueue s.self kind).setPhase .awaiting)
  /-- The command's primitive, of the owner. -/
  | prim (p : Prim) (ph : Phase) (hp : s.portPrim i = some p) (ho : s.arb.owner = some s.self) :
    BusEffect i s ((s.transfer s.self p).setPhase ph)
  /-- The command's primitive, of the owner, after its retarget to the address of the primitive (LDCFG and STCFG). -/
  | retargetPrim (p : Prim) (ph : Phase) (hk : acquireKind i = .explicit p.dev) (hp : s.portPrim i = some p)
    (ho : s.arb.owner = some s.self) : BusEffect i s (((s.retarget s.self p.dev).transfer s.self p).setPhase ph)

theorem BusEffect.lastPrim {i : Instr} {s : State} {p : Prim} (hp : s.portPrim i = some p)
    (ho : s.arb.owner = some s.self) (good : Byte → Data) : BusEffect i s (s.lastPrim p good) := by
  rcases lastPrim_cases p good s with ⟨b, -, he⟩ | ⟨k, c, -, he⟩ <;> rw [he] <;> exact .prim _ _ hp ho

theorem BusEffect.lastPrim_retarget {i : Instr} {s : State} {p : Prim} (hk : acquireKind i = .explicit p.dev)
    (hp : s.portPrim i = some p) (ho : s.arb.owner = some s.self) (good : Byte → Data) :
    BusEffect i s ((s.retarget s.self p.dev).lastPrim p good) := by
  rcases lastPrim_cases p good (s.retarget s.self p.dev) with ⟨b, -, he⟩ | ⟨k, c, -, he⟩ <;> rw [he] <;>
  exact .retargetPrim _ _ hk hp ho

/-- The shared part of the commands that acquire the bus, whose part on the bus is `body`. -/
theorem BusEffect.withBus {i : Instr} {s : State} {body : State → State}
    (hbody : s.phase.beforeBus = true → s.arb.owner = some s.self → BusEffect i s (body s))
    (hexp : ∀ a, acquireKind i = .explicit a → s.phase.beforeBus = true → s.arb.owner = some s.self →
      BusEffect i s (body (s.retarget s.self a))) :
    BusEffect i s (s.withBus (acquireKind i) body) := by
  rcases withBus_cases (acquireKind i) body s with ⟨hp, ho, -, he⟩ | ⟨a, hp, ho, hk, he⟩ | ⟨hp, ho, he⟩ |
    ⟨-, -, -, -, he⟩ | ⟨-, ho, -, he⟩ | ⟨-, -, he⟩ <;> rw [he]
  · exact hbody (by rw [hp]; rfl) ho
  · exact hexp a hk (by rw [hp]; rfl) ho
  · exact hbody (by rw [hp]; rfl) ho
  · exact .respond _ _
  · exact .wait _ ho
  · exact .stay

/-- Every step of a bus-family command is one of these. -/
theorem exec_bus {i : Instr} {s t : State} (hc : i.portClass = .bus) (hx : exec i s = .next t) : BusEffect i s t := by
  cases i with
  | busBegin a =>
    cases hx
    exact .withBus (i := .busBegin a) (fun _ _ => .respond _ _) (fun b hb _ ho => .retarget b _ hb ho)
  | busEnd =>
    simp only [exec, execBusEnd, Host.Outcome.next.injEq] at hx
    subst hx
    split
    · exact .release _ _ rfl (.inl ‹_›)
    · exact .respond _ _
  | rdb reg =>
    simp only [exec, execRdb, Host.Outcome.next.injEq] at hx
    subst hx
    split
    · exact .respond _ _
    · exact .withBus (i := .rdb reg) (fun hp ho => .lastPrim (by simp [State.portPrim, hp]) ho _) (by simp [acquireKind])
  | rdw reg flip =>
    simp only [exec, execRdw] at hx
    split at hx
    · cases hx; exact .respond _ _
    · next b0 hp =>
      rw [requireOwner_next] at hx
      obtain ⟨ho, rfl⟩ := hx
      exact .lastPrim (by simp [State.portPrim, hp]) ho _
    · cases hx
      refine .withBus (i := .rdw reg flip) (fun hp ho => ?_) (by simp [acquireKind])
      have hp : s.portPrim (.rdw reg flip) = some (.read s.arb.activeAddr reg) := by
        revert hp
        unfold State.portPrim
        cases s.phase <;> simp [Phase.beforeBus]
      rcases firstRead_cases reg s with ⟨b, -, he⟩ | ⟨k, c, -, he⟩ <;> rw [he] <;> exact .prim _ _ hp ho
  | wrb reg data =>
    simp only [exec, execWrb, Host.Outcome.next.injEq] at hx
    subst hx
    split
    · exact .respond _ _
    · exact .withBus (i := .wrb reg data) (fun hp ho => .lastPrim (by simp [State.portPrim, hp]) ho _)
        (by simp [acquireKind])
  | ldcfg a reg =>
    simp only [exec, execLdcfg, Host.Outcome.next.injEq] at hx
    subst hx
    split
    · exact .release _ _ rfl (.inr ‹_›)
    · refine .withBus (i := .ldcfg a reg) (fun hp ho => .lastPrim (by simp [State.portPrim, hp]) ho _)
        (fun b hb hp ho => ?_)
      cases hb
      exact .lastPrim_retarget (p := .read a reg) rfl (by simp [State.portPrim, hp]) ho _
  | stcfg a reg data =>
    simp only [exec, execStcfg, Host.Outcome.next.injEq] at hx
    subst hx
    split
    · exact .release _ _ rfl (.inr ‹_›)
    · refine .withBus (i := .stcfg a reg data) (fun hp ho => .lastPrim (by simp [State.portPrim, hp]) ho _)
        (fun b hb hp ho => ?_)
      cases hb
      exact .lastPrim_retarget (p := .write a reg data) rfl (by simp [State.portPrim, hp]) ho _
  | _ => simp [Instr.portClass] at hc

/-- What a step of the engine-family command `i` can do. The engine's registers are written with a response only. -/
inductive EngineEffect (i : Instr) (s : State) : State → Prop where
  /-- No step. -/
  | stay : EngineEffect i s s
  /-- The commit and the response: an error writes nothing, but STAGE <- Idle for a failed reading. -/
  | respond (e : Engine) (n : Nat) (st : Status) (d : Data)
    (he : st = .ok ∨ e = s.eng ∨ ((i = .rdtemp ∨ i = .rdpres) ∧ e = { s.eng with stage := .idle })) :
    EngineEffect i s ({ s with eng := e, out.draws := n }.respondEngine st d)
  /-- A move that touches neither the arbiter nor the transport: a wait, or work off the bus. -/
  | offBus (b : Bool) (j : Job) : EngineEffect i s ({ s with ports.engBusy := b }.setJob j)
  /-- The list's primitive, of SEQ as owner. -/
  | prim (p : Prim) (j : Job) (hu : usesSeq i = true) (hp : s.seqPrimNext i p) (ho : s.arb.owner = some .seq) :
    EngineEffect i s ((s.transfer .seq p).setJob j)
  /-- The release. -/
  | release (j : Job) (hu : usesSeq i = true) (ho : s.arb.owner = some .seq) :
    EngineEffect i s ((s.release .seq).setJob j)
  /-- The start, as owner already. -/
  | retarget (j : Job) (hu : usesSeq i = true) (ho : s.arb.owner = some .seq) :
    EngineEffect i s (({ s with ports.engBusy := true }.retarget .seq (seqDev i)).setJob j)
  /-- The start: into WAITQ. -/
  | wait (j : Job) (hu : usesSeq i = true) (ho : s.arb.owner ≠ some .seq) :
    EngineEffect i s (({ s with ports.engBusy := true }.enqueue .seq (.explicit (seqDev i))).setJob j)

theorem EngineEffect.acquireSeq {i : Instr} (hu : usesSeq i = true) (s : State) (j : Job) :
    EngineEffect i s (s.acquireSeq (seqDev i) j) := by
  rcases acquireSeq_cases (seqDev i) j s with ⟨ho, he⟩ | ⟨ho, he⟩ <;> rw [he]
  · exact .retarget _ hu ho
  · exact .wait _ hu ho

/-- A step of a begun bus sequence, whose list is the command's: on the bus its next element or the release, off it what
`finish` does, or the answer of a failure. -/
theorem EngineEffect.seqStep {i : Instr} {s t : State} {j : Job} {list : Job → List SeqOp}
    {onRelease finish : Job → State → State} {onFail : State → State}
    (hx : s.seqStep (seqDev i) list onRelease finish onFail j = .next t) (hj : s.ports.seq = some j)
    (hu : usesSeq i = true) (hlist : list j = seqList i s j)
    (hrel : ∃ j', onRelease { j with phase := .offBus } (s.release .seq) = (s.release .seq).setJob j')
    (hfin : EngineEffect i s (finish j s))
    (hfail : onFail s = s ∨ ((i = .rdtemp ∨ i = .rdpres) ∧ onFail s = s.endCycle)) :
    EngineEffect i s t := by
  rcases seqStep_cases hx with ⟨ho, -, rfl⟩ | ⟨-, -, rfl⟩ | ⟨st, d, -, -, -, rfl⟩ | ⟨-, -, -, rfl⟩
  · rcases seqOnBus_cases (seqDev i) list onRelease j s with ⟨f, -, he⟩ | ⟨op, hf, hop, he⟩ | ⟨-, -, he⟩ <;> rw [he]
    · exact .release _ hu ho
    · obtain ⟨j', -, -, -, hc⟩ := seqOp_cases (seqDev i) j op s
      rcases hc with ⟨p, -, hp, he⟩ | he <;> rw [he]
      · exact .prim p j' hu ⟨j, op, hj, hf, hlist ▸ hop, hp⟩ ho
      · exact .offBus s.ports.engBusy j'
    · obtain ⟨j', he⟩ := hrel
      rw [he]
      exact .release j' hu ho
  · exact .stay
  · rcases hfail with he | ⟨hi, he⟩ <;> rw [he]
    · exact .respond s.eng s.out.draws st d (.inr (.inl rfl))
    · exact .respond { s.eng with stage := .idle } s.out.draws st d (.inr (.inr ⟨hi, rfl⟩))
  · exact hfin

/-- Every step of an engine-family command is one of these. -/
theorem exec_engine {i : Instr} {s t : State} (hc : i.portClass = .engine) (hx : exec i s = .next t) :
    EngineEffect i s t := by
  have good (e : Engine) (d : Data) : EngineEffect i s ({ s with eng := e }.respondEngine .ok d) :=
    .respond e s.out.draws .ok d (.inl rfl)
  have bare (st : Status) (d : Data) : EngineEffect i s (s.respondEngine st d) :=
    .respond s.eng s.out.draws st d (.inr (.inl rfl))
  have ended (hi : i = .rdtemp ∨ i = .rdpres) (st : Status) (d : Data) : EngineEffect i s (s.endCycle.respondEngine st d) :=
    .respond { s.eng with stage := .idle } s.out.draws st d (.inr (.inr ⟨hi, rfl⟩))
  have temp (hi : i = .rdtemp) (ut : BitVec 16) : EngineEffect i s (s.finishTemp ut) := by
    unfold State.finishTemp
    split
    · exact ended (.inl hi) _ _
    · exact good _ _
  cases i with
  | setoss m => cases hx; exact good _ _
  | setsrc m => cases hx; exact good _ _
  | injut m => cases hx; exact good _ _
  | injup m => cases hx; exact good _ _
  | wrcal sel imm =>
    simp only [exec, execWrcal, Host.Outcome.next.injEq] at hx
    subst hx
    split
    · exact good _ _
    · exact bare _ _
  | rdreg sel =>
    simp only [exec, execRdreg, Host.Outcome.next.injEq] at hx
    subst hx
    split
    · split
      · exact bare _ _
      · exact .respond s.eng (s.out.draws + 1) _ _ (.inl rfl)
    · exact bare _ _
  | acqcal =>
    simp only [exec, execAcqcal] at hx
    split at hx
    · cases hx
      split
      · exact good _ _
      · exact .acquireSeq (i := .acqcal) rfl s _
    · next j hj => exact .seqStep (i := .acqcal) hx hj rfl rfl ⟨_, rfl⟩ (good _ _) (.inl rfl)
  | rdtemp =>
    simp only [exec, execRdtemp] at hx
    split at hx
    · cases hx
      split
      · exact temp rfl _
      · exact .acquireSeq (i := .rdtemp) rfl s _
    · next j hj => exact .seqStep (i := .rdtemp) hx hj rfl rfl ⟨_, rfl⟩ (temp rfl _) (.inr ⟨.inl rfl, rfl⟩)
  | rdpres =>
    simp only [exec, execRdpres] at hx
    split at hx
    · cases hx
      unfold State.startPres
      split
      · split
        · exact .offBus true _
        · exact .acquireSeq (i := .rdpres) rfl s _
      · exact bare _ _
    · next j hj =>
      refine .seqStep (i := .rdpres) hx hj rfl rfl ⟨_, rfl⟩ ?_ (.inr ⟨.inr rfl, rfl⟩)
      unfold State.finishPres
      split
      · exact good _ _
      · split
        · exact .offBus s.ports.engBusy _
        · unfold State.computePres
          split
          · exact ended (.inr rfl) _ _
          · exact .offBus s.ports.engBusy _
  | acccfg data =>
    simp only [exec, execAcccfg] at hx
    split at hx
    · cases hx; exact .acquireSeq (i := .acccfg data) rfl s _
    · next j hj => exact .seqStep (i := .acccfg data) hx hj rfl rfl ⟨_, rfl⟩ (good _ _) (.inl rfl)
  | magcfg sel data =>
    simp only [exec, execMagcfg] at hx
    split at hx
    · cases hx
      split
      · exact .acquireSeq (i := .magcfg sel data) rfl s _
      · exact bare _ _
    · next j hj => exact .seqStep (i := .magcfg sel data) hx hj rfl rfl ⟨_, rfl⟩ (bare _ _) (.inl rfl)
  | rdacc =>
    simp only [exec, execRdacc] at hx
    split at hx
    · cases hx
      split
      · exact bare _ _
      · exact .acquireSeq (i := .rdacc) rfl s _
    · next j hj => exact .seqStep (i := .rdacc) hx hj rfl rfl ⟨_, rfl⟩ (bare _ _) (.inl rfl)
  | rdmag =>
    simp only [exec, execRdmag] at hx
    split at hx
    · cases hx; exact .acquireSeq (i := .rdmag) rfl s _
    · next j hj => exact .seqStep (i := .rdmag) hx hj rfl rfl ⟨_, rfl⟩ (bare _ _) (.inl rfl)
  | _ => simp [Instr.portClass] at hc

/-- A word that decodes on a port decodes to a command of the port's class. -/
theorem decode_class {k w i} (h : decode k w = .ok i) : i.portClass = k := by
  unfold decode at h
  split at h
  · simp at h
  · next r hr =>
    split at h
    · simp at h
    · next hk =>
      split at h
      · simp at h
      · split at h
        · cases h
          rw [not_not] at hk
          rw [← hk]
          simp only [opcodeRow, opcodeMap, List.lookup] at hr
          repeat' split at hr
          all_goals first | (cases hr; rfl) | (simp at hr)
        · simp at h

/-- Everything one step of the machine can do; `i` is the command that moves, and any command where the word is ILLEGAL. -/
theorem step_effects {s t : State} (hx : step s = .next t) :
    (∃ n i, s.nextEvent = .advance (.port n) ∧ s.slot n ≠ none ∧ BusEffect i (s.dropEvent.actAs n) t) ∨
    (∃ i, s.nextEvent = .advance .seq ∧ s.ports.pendEng ≠ none ∧ EngineEffect i s.dropEvent t) ∨
    (∃ c kind, s.nextEvent = .grant c ∧ s.arb.owner = none ∧ s.waitKind c = some kind ∧
      t = s.dropEvent.takeBus c (s.grantAddr kind)) ∨
    (∃ p w, s.nextEvent = .issue p w ∧ t = s.dropEvent.accept p w) ∨
    (s.nextEvent = .reset ∧ t = s.dropEvent.resetMachine) ∨
    (s.nextEvent ≠ .reset ∧ t = s.dropEvent) := by
  rcases step_cases hx with ⟨p, w, h, rfl⟩ | ⟨n, h, hx⟩ | ⟨h, hx⟩ | ⟨c, h, rfl⟩ | ⟨h, rfl⟩
  · exact .inr (.inr (.inr (.inl ⟨p, w, h, rfl⟩)))
  · have hslot : s.dropEvent.slot n = s.slot n := slot_congr (by simp) n
    rcases advancePort_cases hx with ⟨-, rfl⟩ | ⟨sl, e, hs, -, rfl⟩ | ⟨sl, i, hs, he, hx⟩
    · simp [h]
    · exact .inl ⟨n, .busEnd, h, by simp [← hslot, hs], .respond _ _⟩
    · exact .inl ⟨n, i, h, by simp [← hslot, hs], exec_bus (decode_class he) hx⟩
  · rcases advanceSeq_cases hx with ⟨-, rfl⟩ | ⟨w, e, hs, -, rfl⟩ | ⟨w, i, hs, he, hx⟩
    · simp [h]
    · exact .inr (.inl ⟨.rdtemp, h, by simpa using ne_of_eq_of_ne hs (by simp),
        .respond s.dropEvent.eng s.dropEvent.out.draws _ _ (.inr (.inl rfl))⟩)
    · exact .inr (.inl ⟨i, h, by simpa using ne_of_eq_of_ne hs (by simp), exec_engine (decode_class he) hx⟩)
  · have hw : s.dropEvent.waitKind c = s.waitKind c := waitKind_congr (by simp) c
    rcases grant_cases c s.dropEvent with ⟨k, ho, hk, he⟩ | ⟨-, he⟩ <;> rw [he]
    · refine .inr (.inr (.inl ⟨c, k, h, by simpa using ho, hw ▸ hk, ?_⟩))
      cases k <;> simp [State.grantAddr]
    · simp [h]
  · exact .inr (.inr (.inr (.inr (.inl ⟨h, rfl⟩))))

end Sys2Proof.Machine
end

