-- ==== Sys2Proof/Laws/Frames.lean ====
section
/-! SUPPORT. The frames of Safety.lean as the shared operations establish them: a port answered, a port's command going on,
the engine port answered, an engine command going on. `u` is the state the operation is applied to, which may differ from
`s` in the arbiter, the answers used and the transport order only. -/

namespace Sys2Proof.Machine

/-- `u` differs from `s` in the arbiter, the answers used, the draws and the transport order only. -/
structure SameButBus (s u : State) : Prop where
  ports : u.ports = s.ports
  eng : u.eng = s.eng
  events : u.out.events = s.out.events
  ticks : u.out.ticks = s.out.ticks
  actPort : u.out.actPort = s.out.actPort
  responses : u.out.responses = s.out.responses

theorem SameButBus.refl (s : State) : SameButBus s s := ⟨rfl, rfl, rfl, rfl, rfl, rfl⟩

theorem SameButBus.retarget {s u : State} (h : SameButBus s u) (c : Requester) (a : DevAddr) :
    SameButBus s (u.retarget c a) := ⟨h.ports, h.eng, h.events, h.ticks, h.actPort, h.responses⟩

theorem SameButBus.release {s u : State} (h : SameButBus s u) (c : Requester) : SameButBus s (u.release c) :=
  ⟨h.ports, h.eng, h.events, h.ticks, h.actPort, h.responses⟩

theorem SameButBus.enqueue {s u : State} (h : SameButBus s u) (c : Requester) (kind : WaitKind) :
    SameButBus s (u.enqueue c kind) := ⟨h.ports, h.eng, h.events, h.ticks, h.actPort, h.responses⟩

theorem SameButBus.transfer {s u : State} (h : SameButBus s u) (c : Requester) (p : Prim) :
    SameButBus s (u.transfer c p) := ⟨h.ports, h.eng, h.events, h.ticks, h.actPort, h.responses⟩

theorem SameButBus.portFrame {s u : State} (h : SameButBus s u) : PortFrame s u :=
  ⟨h.eng, by rw [h.ports], by rw [h.ports], by rw [h.ports], fun m _ => slot_congr (by rw [h.ports]) m, h.events, h.ticks,
    h.actPort⟩

theorem PortFrame.respondPort {s u : State} (h : PortFrame s u) (hr : u.out.responses = s.out.responses) (st : Status)
    (d : Data) : PortAnswered s (u.respondPort st d) st d where
  eng := h.eng
  pendEng := h.pendEng
  engBusy := h.engBusy
  seq := h.seq
  slots m hm := by rw [slot_respondPort_ne (by rw [h.actPort]; exact hm.symm), h.slots m hm]
  events := h.events
  ticks := h.ticks
  actPort := h.actPort
  slot := by rw [← h.actPort]; exact slot_respondPort_self ..
  responses := by simp [h.actPort, hr]

theorem PortFrame.setPhase {s u : State} (h : PortFrame s u) (hr : u.out.responses = s.out.responses) {sl : Slot}
    {ph₀ : Phase} (hs : u.slot s.out.actPort = some { sl with phase := ph₀ }) (ph : Phase) :
    PortGoesOn s (u.setPhase ph) sl ph where
  eng := by simpa using h.eng
  pendEng := by simpa using h.pendEng
  engBusy := by simpa using h.engBusy
  seq := by simpa using h.seq
  slots m hm := by rw [slot_setPhase_ne (by rw [h.actPort]; exact hm.symm), h.slots m hm]
  events := by simpa using h.events
  ticks := by simpa using h.ticks
  actPort := by simpa using h.actPort
  slot := by
    rw [← h.actPort] at hs ⊢
    exact slot_setPhase_self hs ph
  responses := by simpa using hr

theorem SameButBus.respondPort {s u : State} (h : SameButBus s u) (st : Status) (d : Data) :
    PortAnswered s (u.respondPort st d) st d := h.portFrame.respondPort h.responses st d

theorem SameButBus.setPhase {s u : State} (h : SameButBus s u) {sl : Slot} (hs : s.slot s.out.actPort = some sl)
    (ph : Phase) : PortGoesOn s (u.setPhase ph) sl ph :=
  h.portFrame.setPhase (ph₀ := sl.phase) h.responses (by rw [slot_congr (s := s) (by rw [h.ports])]; exact hs) ph

theorem setPhase_waitKind (s : State) (ph : Phase) (c : Requester) : (s.setPhase ph).waitKind c = s.waitKind c :=
  waitKind_congr (by simp) c

/-- The engine port answered, from any state whose bus ports and schedule are those of `s`. -/
theorem EngineFrame.respondEngine {s u : State} (h : EngineFrame s u) (hr : u.out.responses = s.out.responses)
    (st : Status) (d : Data) : EngineAnswered s (u.respondEngine st d) st d where
  pend := h.pend
  events := h.events
  ticks := h.ticks
  actPort := h.actPort
  pendEng := rfl
  engBusy := rfl
  seq := rfl
  responses := by simp [hr]

theorem EngineFrame.refl (s : State) : EngineFrame s s := ⟨rfl, rfl, rfl, rfl⟩

theorem EngineFrame.trans {s u t : State} (h : EngineFrame s u) (h' : EngineFrame u t) : EngineFrame s t :=
  ⟨h'.pend.trans h.pend, h'.events.trans h.events, h'.ticks.trans h.ticks, h'.actPort.trans h.actPort⟩

end Sys2Proof.Machine
end

