-- ==== Sys2Proof/Laws/PerInstr.lean ====
section
/-! SUPPORT. Family OpcodeField: every command's word carries its own opcode, and that opcode's row of the opcode map is of
the command's port class (30_encoding.md R62, R66). -/

namespace Sys2Proof.Laws.OpcodeField

/-- The word's OPC field is the command's opcode, which the map lists with the command's port class. -/
def Statement (i : Instr) : Prop :=
  fieldOpc (encode i) = i.opcode ∧ (opcodeRow i.opcode).map OpcodeRow.cls = some i.portClass

/-- OPC of a format B word. -/
theorem opc_formatB (opc : BitVec 5) (addr : DevAddr) (reg : RegAddr) (data : Byte) (f : BitVec 1) :
    fieldOpc (formatB opc addr reg data f) = opc := by
  apply BitVec.eq_of_getLsbD_eq
  intro i hi
  have : (opc ++ addr ++ reg ++ data ++ f ++ 0#3 : BitVec (5 + 7 + 8 + 8 + 1 + 3)).getLsbD (27 + i) = opc.getLsbD i := by
    simp only [BitVec.getLsbD_append]
    rw [if_neg (by omega), if_neg (by omega), if_neg (by omega), if_neg (by omega), if_neg (by omega)]
    congr 1
    omega
  simpa [fieldOpc, formatB, hi] using this

/-- OPC of a format E word. -/
theorem opc_formatE (opc sel : BitVec 5) (imm : BitVec 19) : fieldOpc (formatE opc sel imm) = opc := by
  apply BitVec.eq_of_getLsbD_eq
  intro i hi
  have : (opc ++ sel ++ 0#3 ++ imm : BitVec (5 + 5 + 3 + 19)).getLsbD (27 + i) = opc.getLsbD i := by
    simp only [BitVec.getLsbD_append]
    rw [if_neg (by omega), if_neg (by omega), if_neg (by omega)]
    congr 1
    omega
  simpa [fieldOpc, formatE, hi] using this

theorem busBegin (addr : DevAddr) : Statement (.busBegin addr) := ⟨opc_formatB .., rfl⟩
theorem busEnd : Statement .busEnd := ⟨opc_formatB .., rfl⟩
theorem rdb (reg : RegAddr) : Statement (.rdb reg) := ⟨opc_formatB .., rfl⟩
theorem rdw (reg : RegAddr) (flip : BitVec 1) : Statement (.rdw reg flip) := ⟨opc_formatB .., rfl⟩
theorem wrb (reg : RegAddr) (data : Byte) : Statement (.wrb reg data) := ⟨opc_formatB .., rfl⟩
theorem ldcfg (addr : DevAddr) (reg : RegAddr) : Statement (.ldcfg addr reg) := ⟨opc_formatB .., rfl⟩
theorem stcfg (addr : DevAddr) (reg : RegAddr) (data : Byte) : Statement (.stcfg addr reg data) := ⟨opc_formatB .., rfl⟩
theorem acqcal : Statement .acqcal := ⟨opc_formatE .., rfl⟩
theorem setoss (mode : BitVec 2) : Statement (.setoss mode) := ⟨opc_formatE .., rfl⟩
theorem rdtemp : Statement .rdtemp := ⟨opc_formatE .., rfl⟩
theorem rdpres : Statement .rdpres := ⟨opc_formatE .., rfl⟩
theorem wrcal (sel : BitVec 5) (imm : BitVec 16) : Statement (.wrcal sel imm) := ⟨opc_formatE .., rfl⟩
theorem setsrc (src : BitVec 1) : Statement (.setsrc src) := ⟨opc_formatE .., rfl⟩
theorem injut (imm : BitVec 16) : Statement (.injut imm) := ⟨opc_formatE .., rfl⟩
theorem injup (imm : BitVec 19) : Statement (.injup imm) := ⟨opc_formatE .., rfl⟩
theorem rdreg (sel : BitVec 5) : Statement (.rdreg sel) := ⟨opc_formatE .., rfl⟩
theorem acccfg (data : Byte) : Statement (.acccfg data) := ⟨opc_formatE .., rfl⟩
theorem magcfg (sel : BitVec 5) (data : Byte) : Statement (.magcfg sel data) := ⟨opc_formatE .., rfl⟩
theorem rdacc : Statement .rdacc := ⟨opc_formatE .., rfl⟩
theorem rdmag : Statement .rdmag := ⟨opc_formatE .., rfl⟩

end Sys2Proof.Laws.OpcodeField
end

