-- ==== Sys2Proof/Laws/Sequence.lean ====
section
/-! SUPPORT. SEQ's bus sequences run several steps at a time: a stretch of reads that all succeed, and the single steps
around it. -/

namespace Sys2Proof.Machine

/-- Steps of one command in a row compose. -/
theorem execTimes_add {i : Instr} {s t : State} {m : Nat} (h : execTimes i m s = .next t) (n : Nat) :
    execTimes i (m + n) s = execTimes i n t := by
  induction m generalizing s with
  | zero => cases h; simp
  | succ m ih =>
    rw [Nat.succ_add]
    simp only [execTimes] at h ⊢
    cases hx : exec i s with
    | next u => rw [hx] at h; simpa using ih h
    | fault r => rw [hx] at h; cases h
    | refused r => rw [hx] at h; cases h

theorem execTimes_one {i : Instr} {s t : State} (h : exec i s = .next t) : execTimes i 1 s = .next t := by
  simp [execTimes, h]

/-- SEQ on the bus with nothing failed performs the next element of its list. -/
theorem seqStep_op {dev : DevAddr} {list : Job → List SeqOp} {onRelease finish : Job → State → State}
    {onFail : State → State} {j : Job} {s : State} {op : SeqOp} (ho : s.arb.owner = some .seq)
    (hp : j.phase = .awaiting ∨ j.phase = .running) (hf : j.failure = none) (hop : (list j)[j.step]? = some op) :
    s.seqStep dev list onRelease finish onFail j = .next (s.seqOp dev j op) := by
  rcases hp with hp | hp <;> simp [State.seqStep, hp, ho, requireOwner, State.seqOnBus, hf, hop]

/-- SEQ on the bus with nothing failed and its list done releases the bus. -/
theorem seqStep_release {dev : DevAddr} {list : Job → List SeqOp} {onRelease finish : Job → State → State}
    {onFail : State → State} {j : Job} {s : State} (ho : s.arb.owner = some .seq)
    (hp : j.phase = .awaiting ∨ j.phase = .running) (hf : j.failure = none) (hop : (list j)[j.step]? = none) :
    s.seqStep dev list onRelease finish onFail j = .next (onRelease { j with phase := .offBus } (s.release .seq)) := by
  rcases hp with hp | hp <;> simp [State.seqStep, hp, ho, requireOwner, State.seqOnBus, hf, hop]

/-- SEQ on the bus after a failed primitive releases the bus. -/
theorem seqStep_failed {dev : DevAddr} {list : Job → List SeqOp} {onRelease finish : Job → State → State}
    {onFail : State → State} {j : Job} {s : State} {f : Status × Data} (ho : s.arb.owner = some .seq)
    (hp : j.phase = .awaiting ∨ j.phase = .running) (hf : j.failure = some f) :
    s.seqStep dev list onRelease finish onFail j = .next ((s.release .seq).setJob { j with phase := .offBus }) := by
  rcases hp with hp | hp <;> simp [State.seqStep, hp, ho, requireOwner, State.seqOnBus, hf]

/-- SEQ's slot after the reads `l`, each a register and the byte it gave. -/
def Job.after (j : Job) (l : List (RegAddr × Byte)) : Job :=
  { j with phase := .running, step := j.step + l.length, reads := l.reverse ++ j.reads }

/-- The state after SEQ has performed the reads `l` at `dev`, all of them answered from the listed answers. -/
def State.afterReads (dev : DevAddr) (j : Job) (l : List (RegAddr × Byte)) (s : State) : State :=
  { s with
    ports.seq := some (j.after l)
    out.answers := s.out.answers.drop l.length
    out.order := (l.map fun p => .prim .seq (.read dev p.1) (.ok p.2)).reverse ++ s.out.order }

theorem seqOp_read {dev : DevAddr} {j : Job} {s : State} {reg : RegAddr} {b : Byte} {rest : List Answer}
    (ha : s.out.answers = .ok b :: rest) : s.seqOp dev j (.read reg) = s.afterReads dev j [(reg, b)] := by
  simp [State.seqOp, State.seqPrim, State.nextAnswer, ha, State.transfer, State.setJob, State.afterReads, Job.after]

/-- A stretch of reads at the front of what is left of SEQ's list: `list` gives them one after the other, and the transport
answers each. `i` is any command whose step, with a slot in use and the engine registers `e`, is `seqStep` of that list. -/
theorem execTimes_reads {i : Instr} {dev : DevAddr} {list : Job → List SeqOp} {onRelease finish : Job → State → State}
    {onFail : State → State} {e : Engine}
    (hi : ∀ (s : State) (j : Job), s.eng = e → s.ports.seq = some j → exec i s = s.seqStep dev list onRelease finish onFail j)
    (l : List (RegAddr × Byte)) : ∀ (s : State) (j : Job) (rest : List Answer),
    s.eng = e → s.ports.seq = some j → s.arb.owner = some .seq → j.phase = .running ∨ (j.phase = .awaiting ∧ l ≠ []) →
    j.failure = none →
    (∀ (k : Nat) (hk : k < l.length) (j' : Job), j'.mode = j.mode → j'.step = j.step + k →
      j'.reads = (l.take k).reverse ++ j.reads → (list j')[j.step + k]? = some (.read l[k].1)) →
    s.out.answers = (l.map fun p => Answer.ok p.2) ++ rest →
    execTimes i l.length s = .next (s.afterReads dev j l) := by
  induction l with
  | nil =>
    intro s j rest _ hs _ hp _ _ _
    have hp : j.phase = .running := by simpa using hp
    obtain ⟨arb, ports, eng, out⟩ := s
    obtain ⟨ph, st, rd, fl, md, b, u⟩ := j
    simp only at hs hp
    subst hp
    simp [execTimes, State.afterReads, Job.after, ← hs]
  | cons p l ih =>
    intro s j rest he hs ho hp hf hl ha
    have h0 := hl 0 (by simp) j rfl rfl rfl
    have hstep : exec i s = .next (s.afterReads dev j [p]) := by
      rw [hi s j he hs, seqStep_op ho (hp.symm.imp And.left id) hf h0]
      exact congrArg _ (seqOp_read (by simpa using ha))
    have hrest := ih (s.afterReads dev j [p]) (j.after [p]) rest he rfl ho (.inl rfl) hf
      (fun k hk j' hm hst hr => by
        have := hl (k + 1) (by simpa using hk) j' hm (by rw [hst]; simp [Job.after]; omega) (by simpa [Job.after] using hr)
        simpa [Job.after, Nat.add_assoc, Nat.add_comm 1 k] using this)
      (by simp [State.afterReads, ha])
    rw [List.length_cons, Nat.add_comm, execTimes_add (execTimes_one hstep), hrest]
    simp [State.afterReads, Job.after, Nat.add_comm 1, Nat.add_assoc]

end Sys2Proof.Machine
end

