-- ==== Sys2Proof/Tests/Slice0.lean ====
section
/-! SUPPORT. Tests on fixed values, each taken from spec/ (its rule or vector is named), and for every statement with
hypotheses the states and operands that meet them. -/

namespace Sys2Proof.Tests

open Sys2Proof.Machine

/-! Small states. -/

/-- Reset, with these moves of the environment to come. -/
def upNext (es : List Event) : State := { State.reset with out.events := es }

/-- Port 0 holds word `w` at phase `ph`; the bus is `owner`'s, at 0x77, which was the last address granted. -/
def port0 (w : Word) (ph : Phase) (owner : Option Requester) (answers : List Answer) : State :=
  { State.reset with
    arb.owner := owner
    arb.activeV := owner.isSome
    arb.activeAddr := if owner.isSome then 0x77 else 0
    arb.lastV := true
    arb.lastAddr := 0x77
    ports.pend := [⟨0, w, ph⟩]
    out.answers := answers }

/-- Port 0 owns the bus and its command `w` is about to act. -/
def owning0 (w : Word) (answers : List Answer) : State := port0 w .issued (some (.port 0)) answers

/-- Port 0 was granted the bus it waited for. -/
def granted0 (w : Word) (answers : List Answer) : State := port0 w .awaiting (some (.port 0)) answers

/-- SEQ was granted the bus at `dev` for the engine command `w`. -/
def seqOn (dev : DevAddr) (w : Word) (j : Job) (answers : List Answer) : State :=
  { State.reset with
    arb.owner := some .seq
    arb.activeV := true
    arb.activeAddr := dev
    arb.lastV := true
    arb.lastAddr := dev
    ports.pendEng := some w
    ports.engBusy := true
    ports.seq := some j
    out.answers := answers }

/-- An engine command word stands in PEND_ENG, with these engine registers. -/
def engineHas (w : Word) (e : Engine) : State :=
  { State.reset with eng := e, ports.pendEng := some w, out.events := [.advance .seq] }

/-- Engine registers with the injected source (R23). -/
def injected : Engine := { Engine.reset with src := 1 }

/-- Engine registers after a successful RDTEMP of the golden vector (95_test_vectors.md L1.1). -/
def afterTemp : Engine := { injected with stage := .temperatureRead, b5 := 2399, t := 150, ut := 27898, tempWritten := true }

/-- The one response a step gave, if it gave one. -/
def answer (o : Host.Outcome State Fault Refusal) : Option (Status × Data) :=
  match o with
  | .next t => t.out.responses.head?.map fun r => (r.status, r.data)
  | _ => none

/-- What a step makes of part of the state. -/
def after {α : Type} (f : State → α) (o : Host.Outcome State Fault Refusal) : Option α :=
  match o with
  | .next t => some (f t)
  | _ => none

/-! WellFormed (R66, R69). -/

theorem test_wellFormed_wrcal : Instr.wellFormed (.wrcal 10 0) = true ∧ Instr.wellFormed (.wrcal 11 0) = false := by decide
theorem test_wellFormed_rdreg : Instr.wellFormed (.rdreg 28) = true ∧ Instr.wellFormed (.rdreg 29) = false := by decide
theorem test_wellFormed_magcfg : Instr.wellFormed (.magcfg 2 0) = true ∧ Instr.wellFormed (.magcfg 3 0) = false := by
  decide

/-! Decoding: every command's word, bit by bit from R63 to R66: OPC, ADDR, REG, DATA, F, Z; or OPC, SEL, Z, IMM. -/

theorem test_decode_begin : decode .bus 0b00001_1110111_00000000_00000000_0_000 = .ok (.busBegin 0x77) := by decide
theorem test_decode_end : decode .bus 0b00010_0000000_00000000_00000000_0_000 = .ok .busEnd := by decide
theorem test_decode_rdb : decode .bus 0b00011_0000000_11110110_00000000_0_000 = .ok (.rdb 0xF6) := by decide
theorem test_decode_rdw : decode .bus 0b00100_0000000_11110110_00000000_1_000 = .ok (.rdw 0xF6 1) := by decide
theorem test_decode_wrb : decode .bus 0b00101_0000000_11110100_00101110_0_000 = .ok (.wrb 0xF4 0x2E) := by decide
theorem test_decode_ldcfg : decode .bus 0b00110_0011001_00100000_00000000_0_000 = .ok (.ldcfg 0x19 0x20) := by decide
theorem test_decode_stcfg : decode .bus 0b00111_0011001_00100000_01010111_0_000 = .ok (.stcfg 0x19 0x20 0x57) := by
  decide
theorem test_decode_acqcal : decode .engine 0b10000_00000_000_0000000000000000000 = .ok .acqcal := by decide
theorem test_decode_setoss : decode .engine 0b10001_00000_000_0000000000000000011 = .ok (.setoss 3) := by decide
theorem test_decode_rdtemp : decode .engine 0b10010_00000_000_0000000000000000000 = .ok .rdtemp := by decide
theorem test_decode_rdpres : decode .engine 0b10011_00000_000_0000000000000000000 = .ok .rdpres := by decide
theorem test_decode_wrcal : decode .engine 0b10100_01001_000_0001101110111111001 = .ok (.wrcal 9 0xDDF9) := by decide
theorem test_decode_setsrc : decode .engine 0b10101_00000_000_0000000000000000001 = .ok (.setsrc 1) := by decide
theorem test_decode_injut : decode .engine 0b10110_00000_000_0000110110011111010 = .ok (.injut 27898) := by decide
theorem test_decode_injup : decode .engine 0b10111_00000_000_1111111111111111111 = .ok (.injup 524287) := by decide
theorem test_decode_rdreg : decode .engine 0b11000_11100_000_0000000000000000000 = .ok (.rdreg 28) := by decide
theorem test_decode_acccfg : decode .engine 0b11001_00000_000_0000000000001010111 = .ok (.acccfg 0x57) := by decide
theorem test_decode_magcfg : decode .engine 0b11010_00010_000_0000000000000000000 = .ok (.magcfg 2 0) := by decide
theorem test_decode_rdacc : decode .engine 0b11011_00000_000_0000000000000000000 = .ok .rdacc := by decide
theorem test_decode_rdmag : decode .engine 0b11100_00000_000_0000000000000000000 = .ok .rdmag := by decide

/-- The ILLEGAL words of V-ENC, each with its reason. -/
theorem test_decode_illegal_bus :
    decode .bus 0x00000000 = .error .reservedOpcode ∧ decode .bus 0x40000000 = .error .reservedOpcode ∧
    decode .bus 0x0F700001 = .error .mustBeZero ∧ decode .bus 0x10000001 = .error .mustBeZero ∧
    decode .bus 0x180F6010 = .error .mustBeZero ∧ decode .bus 0x200F6001 = .error .mustBeZero ∧
    decode .bus 0x31920001 = .error .mustBeZero ∧ decode .bus 0x90000000 = .error .wrongPort := by decide

theorem test_decode_illegal_engine :
    decode .engine 0x78000000 = .error .reservedOpcode ∧ decode .engine 0xE8000000 = .error .reservedOpcode ∧
    decode .engine 0xF8000000 = .error .reservedOpcode ∧ decode .engine 0x0F700000 = .error .wrongPort ∧
    decode .engine 0x88000004 = .error .mustBeZero ∧ decode .engine 0xA8000002 = .error .mustBeZero ∧
    decode .engine 0xB0010000 = .error .mustBeZero ∧ decode .engine 0xB8080000 = .error .mustBeZero ∧
    decode .engine 0xA2C00000 = .error .selOutOfRange ∧ decode .engine 0xC7400000 = .error .selOutOfRange ∧
    decode .engine 0xD0C00000 = .error .selOutOfRange := by decide

/-! The host's questions. -/

theorem test_decodeTableWord : decodeTableWord 32 0x0F700000 = some (.busBegin 0x77) ∧
    decodeTableWord 32 0xC8000057 = some (.acccfg 0x57) ∧ decodeTableWord 32 0xF8000000 = none := by decide

theorem test_withFetchWord_end :
    answer (step (State.reset.withFetchWord 32 0x10000000)) = some (.notOwner, 0) := by decide

/-! The arbiter (V-BUS). -/

/-- V-BUS.1: BEGIN on a free bus waits for its grant. -/
theorem test_begin_waits : after (fun t => (t.arb.waitq, t.arb.owner))
    (exec (.busBegin 0x77) (port0 0x0F700000 .issued none [])) = some ([⟨.port 0, .explicit 0x77⟩], none) := by decide

/-- V-BUS.8: the owner's BEGIN retargets. -/
theorem test_begin_retargets : after (fun t => (t.arb.owner, t.arb.activeAddr, t.arb.lastAddr))
    (exec (.busBegin 0x1E) (owning0 0x09E00000 [])) = some (some (.port 0), 0x1E, 0x1E) := by decide

/-- V-BUS.1: END clears ACTIVE and keeps LAST. -/
theorem test_end : after (fun t => (t.arb.owner, t.arb.activeAddr, t.arb.lastV, t.arb.lastAddr))
    (exec .busEnd (owning0 0x10000000 [])) = some (none, 0, true, 0x77) := by decide

/-- V-BUS.2: END with another owner. -/
theorem test_end_not_owner : after (fun t => (t.arb.owner, t.out.responses.map Response.status))
    (exec .busEnd (port0 0x10000000 .issued (some (.port 1)) [])) = some (some (.port 1), [.notOwner]) := by decide

/-- V-BUS.6: from reset, an auto-begin has no target. -/
theorem test_rdb_no_target : answer (exec (.rdb 0xF6) State.reset) = some (.noTarget, 0) := by decide

/-- V-BUS.7: the byte of RDB. -/
theorem test_rdb : answer (exec (.rdb 0xF6) (port0 0x180F6000 (.done .ok 0x6C) (some (.port 0)) [])) =
    some (.ok, 0x6C) := by decide

/-- V-BUS.3: the second read of RDW at 0xFF is at 0x00, and the first byte is the high one. -/
theorem test_rdw_wraps : after (fun t => (t.out.order, t.phase))
    (exec (.rdw 0xFF 0) (port0 0x200FF000 (.firstByte 0x12) (some (.port 0)) [.ok 0x34])) =
    some ([.prim (.port 0) (.read 0x77 0x00) (.ok 0x34)], .done .ok 0x1234) := by decide

/-- V-BUS.4: RDW failing on its second read. -/
theorem test_rdw_fails : after (fun t => (t.arb.owner, t.phase))
    (exec (.rdw 0xF6 0) (port0 0x200F6000 (.firstByte 0x6C) (some (.port 0)) [.fail .retryable 0x20])) =
    some (some (.port 0), .done .xportRetry 0x0077F720) := by decide

/-- V-BUS.5: WRB failing. -/
theorem test_wrb_fails : after (fun t => (t.arb.owner, t.phase))
    (exec (.wrb 0xF4 0x2E) (owning0 0x280F42E0 [.fail .fatal 0x01])) =
    some (some (.port 0), .done .xportFatal 0x00F7F401) := by decide

/-- V-BUS.9: LDCFG by the owner retargets before its read. -/
theorem test_ldcfg : after (fun t => (t.arb.activeAddr, t.phase, t.out.order))
    (exec (.ldcfg 0x19 0x20) (owning0 0x31920000 [.ok 0x57])) =
    some (0x19, .done .ok 0x57,
      [.prim (.port 0) (.read 0x19 0x20) (.ok 0x57), .retarget (.port 0) 0x19]) := by decide

/-- V-BUS.10: a failed STCFG releases the bus with its response. -/
theorem test_stcfg_fails : after (fun t => (t.arb.owner, t.arb.activeAddr, t.out.responses))
    (exec (.stcfg 0x1E 0x02 0x00) (port0 0x39E02000 (.done .xportFatal 0x009E0205) (some (.port 0)) [])) =
    some (none, 0, [⟨.bus 0, .xportFatal, 0x009E0205⟩]) := by decide

/-- V-BUS.11: either waiter can be chosen. -/
theorem test_grant_free_choice :
    let s := { State.reset with arb.waitq := [⟨.port 1, .explicit 0x77⟩, ⟨.port 2, .explicit 0x1E⟩] }
    ((s.grant (.port 1)).arb.owner, (s.grant (.port 1)).arb.activeAddr) = (some (.port 1), 0x77) ∧
    ((s.grant (.port 2)).arb.owner, (s.grant (.port 2)).arb.activeAddr) = (some (.port 2), 0x1E) := by decide

/-! Engine configuration (V-CFG). -/

/-- V-CFG.2: ACQCAL in test mode loads the default set. -/
theorem test_acqcal_injected : after (fun t => t.eng.cal)
    (exec .acqcal { State.reset with eng := { injected with cal.ac1 := 0 } }) = some calDefault := by decide

/-- V-CFG.1: the first two of the 22 registers ACQCAL reads, and the last. -/
theorem test_acqcal_list : acqcalList[0]? = some (.read 0xAA) ∧ acqcalList[1]? = some (.read 0xAB) ∧
    acqcalList[21]? = some (.read 0xBF) ∧ acqcalList[22]? = none := by decide

/-- V-CFG.3: WRCAL 9, -8711 and the integer read there. -/
theorem test_wrcal : after (fun t => (t.eng.cal.mc, t.eng.cal.MC, t.eng.stage))
    (exec (.wrcal 9 0xDDF9) { State.reset with eng := afterTemp }) = some (0xDDF9, -8711, .idle) := by decide

/-- V-CFG.3: WRCAL 3, -1 is AC4 = 65535. -/
theorem test_wrcal_unsigned : after (fun t => t.eng.cal.AC4) (exec (.wrcal 3 0xFFFF) State.reset) = some 65535 := by decide

/-- V-CFG.4: SETOSS keeps the cycle. -/
theorem test_setoss : after (fun t => (t.eng.oss, t.eng.stage)) (exec (.setoss 3) { State.reset with eng := afterTemp }) =
    some (3, .temperatureRead) := by decide

/-- V-CFG.4: SETSRC ends the cycle although SRC held the value. -/
theorem test_setsrc : after (fun t => (t.eng.src, t.eng.stage)) (exec (.setsrc 1) { State.reset with eng := afterTemp }) =
    some (1, .idle) := by decide

/-- R109, R110. -/
theorem test_inject : after (fun t => t.eng.injUt) (exec (.injut 20000) State.reset) = some 20000 ∧
    after (fun t => t.eng.injUp) (exec (.injup 524287) State.reset) = some 524287 := by decide

/-- V-CFG.3: the views of a signed entry and of an unsigned one. -/
theorem test_rdreg_cal : answer (exec (.rdreg 1) State.reset) = some (.ok, 0xFFFFFFB8) ∧
    answer (exec (.rdreg 5) State.reset) = some (.ok, 0x00005A71) ∧
    answer (exec (.rdreg 8) State.reset) = some (.ok, 0xFFFF8000) := by decide

/-- V-CFG.5, and RDREG 18 after the golden RDTEMP (R111). -/
theorem test_rdreg_others : answer (exec (.rdreg 14) State.reset) = some (.ok, 0x00006CFA) ∧
    answer (exec (.rdreg 15) State.reset) = some (.ok, 0x00005D23) ∧
    answer (exec (.rdreg 18) { State.reset with eng := afterTemp }) = some (.ok, 0x0000095F) := by decide

/-! Temperature (V-T) and pressure (V-P). -/

/-- The rows of V-T: X1, X2, B5, T. -/
theorem test_temperature :
    temperature calDefault 0 = some ⟨-23146, 879, -22267, -1392⟩ ∧
    temperature calDefault 20000 = some ⟨-3152, 62817, 59665, 3729⟩ ∧
    temperature calDefault 23153 = some ⟨0, -6221, -6221, -389⟩ ∧
    temperature calDefault 65535 = some ⟨42367, -395, 41972, 2623⟩ := by decide

/-- V-T: the zero divisor, and the extreme LUT. -/
theorem test_temperature_corners :
    temperature { calDefault with md := -4743 } 27898 = none ∧
    temperature { calDefault with mc := -32768, md := -4742 } 27898 =
      some ⟨4743, -67108864, 0xFC001287, 0xFFC00128⟩ := by decide

/-- V-T: DIV_ZERO writes STAGE and nothing else. -/
theorem test_rdtemp_div_zero :
    after (fun t => (t.out.responses, t.eng.stage, t.eng.b5))
      (exec .rdtemp { State.reset with eng := { afterTemp with cal.md := -4743 } }) =
    some ([⟨.engine, .divZero, 1⟩], .idle, 2399) := by decide

/-- L1.1: RDTEMP of the golden vector. -/
theorem test_rdtemp : after (fun t => (t.out.responses, t.eng.stage, t.eng.b5, t.eng.t))
      (exec .rdtemp { State.reset with eng := injected }) =
    some ([⟨.engine, .ok, 0x96⟩], .temperatureRead, 2399, 150) := by decide

/-- V-P.2: the same UP in modes 1 to 3, B7 and P. -/
theorem test_pressure_modes :
    (pressure calDefault 2399 23843 1).map (fun r => (r.b3, r.b7, r.p)) = some (845, 574950000, 34416) ∧
    (pressure calDefault 2399 23843 2).map (fun r => (r.b3, r.b7, r.p)) = some (1689, 276925000, 16686) ∧
    (pressure calDefault 2399 23843 3).map (fun r => (r.b3, r.b7, r.p)) = some (3378, 127906250, 7831) := by decide

/-- V-P.3: the trigger bytes and the composed UP of the same triple. -/
theorem test_compose_up :
    [pressureTrigger 0, pressureTrigger 1, pressureTrigger 2, pressureTrigger 3] = [0x34, 0x74, 0xB4, 0xF4] ∧
    [composeUp 0x5D 0x23 0x00 0, composeUp 0x5D 0x23 0x00 1, composeUp 0x5D 0x23 0x00 2, composeUp 0x5D 0x23 0x00 3] =
      [23843, 47686, 95372, 190744] := by decide

/-- V-P.5 and V-P.6: the largest UP, and B4 = 0. -/
theorem test_pressure_corners :
    (pressure calDefault 2399 524287 0).map (fun r => (r.b7, r.x1, r.x2, r.p)) = some (423446224, 445, -2842, 25399) ∧
    pressure { calDefault with ac4 := 0 } 2399 23843 0 = none := by decide

/-- V-P.9: RDPRES from reset. -/
theorem test_rdpres_stage_order : answer (exec .rdpres State.reset) = some (.stageOrder, 0) := by decide

/-- R127: with SRC = 1 the walk is the same: PressureRequested first, PressureRead next, and STAGE itself still 2. -/
theorem test_rdpres_walk :
    after (fun t => (t.stageNow.code, t.eng.stage.code)) (exec .rdpres { State.reset with eng := afterTemp }) =
      some (3, 2) ∧
    after (fun t => (t.stageNow.code, t.eng.stage.code))
      (exec .rdpres { State.reset with
        eng := afterTemp, ports.seq := some { Job.start with phase := .offBus, walk := some .pressureRequested } }) =
      some (4, 2) := by decide

/-- V-P.11: the DATA of a failed read of 0xF8, as RDPRES's last read. -/
theorem test_rdpres_fails : xportData (.read 0x77 0xF8) 0x02 = 0x0077F802 := by decide

/-! The multi-axis client (V-MA). -/

/-- V-MA.1: X and Z are read, Y is not. -/
theorem test_rdacc_list :
    rdaccList 0x57 { Job.start with reads := [(0x27, 0x05)] } =
      [.read 0x27, .read 0x28, .read 0x29, .read 0x2C, .read 0x2D] := by decide

/-- V-MA.1: the triple. -/
theorem test_rdacc_value :
    let j := { Job.start with reads := [(0x2D, 0x40), (0x2C, 0x00), (0x29, 0xFF), (0x28, 0x10), (0x27, 0x05)] }
    tripleData (axisValue j 0) (axisValue j 1) (axisValue j 2) = 0x000040000000FF10 := by decide

/-- V-MA.3: powered off, no bus access. -/
theorem test_rdacc_off : after (fun t => (t.out.responses, t.arb.waitq))
    (exec .rdacc { State.reset with eng.accCtrl := 0x07 }) = some ([⟨.engine, .ok, 0⟩], []) := by decide

/-- V-MA.4: both axis orders. -/
theorem test_magData : magData .xyz 0x0064 0xFF9C 0x0100 = 0x00000100FF9C0064 ∧
    magData .xzy 0x0064 0xFF9C 0x0100 = 0x0000FF9C01000064 := by decide

/-- R157: the registers RDMAG reads. -/
theorem test_rdmag_list : rdmagList = [.read 0x03, .read 0x04, .read 0x05, .read 0x06, .read 0x07, .read 0x08] := by decide

/-- R151: ACCCFG's commit, off the bus. -/
theorem test_acccfg : after (fun t => t.eng.accCtrl)
    (exec (.acccfg 0x57) { State.reset with ports.seq := some { Job.start with phase := .offBus } }) = some 0x57 := by decide

/-- R153: MAGCFG's primitive, whose register is SEL. -/
theorem test_magcfg : after (fun t => t.out.order) (exec (.magcfg 2 0) (seqOn 0x1E 0xD0800000 .start [.ok 0])) =
    some [.prim .seq (.write Config.magAddr 0x02 0) (.ok 0)] := rfl

/-! Reset (R227). -/

theorem test_reset : State.reset.eng.cal = calDefault ∧ State.reset.eng.injUt = 27898 ∧ State.reset.eng.injUp = 23843 ∧
    State.reset.eng.stage = .idle ∧ State.reset.arb.owner = none ∧ State.reset.arb.lastV = false := by decide

/-! Witnesses: for every statement with hypotheses, states and operands that meet them, each clause in turn. A witness is
named after its statement. -/

theorem witness_DecodeOfEncode : Instr.wellFormed (.wrcal 10 0xFFFF) = true ∧ Instr.wellFormed (.rdreg 28) = true ∧
    Instr.wellFormed (.magcfg 2 0xFF) = true ∧ Instr.wellFormed (.injup 524287) = true := by decide

theorem witness_EncodeOfDecode : decode .bus 0x39920570 = .ok (.stcfg 0x19 0x20 0x57) ∧
    decode .engine 0xB807FFFF = .ok (.injup 524287) := by decide

theorem witness_PortClassesSeparate : decode .bus 0x0FF00000 = .ok (.busBegin 0x7F) ∧
    decode .engine 0xE0000000 = .ok .rdmag := by decide

theorem witness_ReservedWordsIllegal :
    fieldOpc 0x00000000 = 0x00 ∧ fieldOpc 0x40000000 = 0x08 ∧ fieldOpc 0x78000000 = 0x0F ∧ fieldOpc 0xE8000000 = 0x1D ∧
    11 ≤ (11 : BitVec 5).toNat ∧ 29 ≤ (29 : BitVec 5).toNat ∧ 3 ≤ (3 : BitVec 5).toNat ∧ 3 ≤ (31 : BitVec 5).toNat := by
  decide

/-- Port 0's word `w` as the owner's, with port 0 to move. -/
def moving0 (w : Word) : State :=
  { owning0 w [] with out.events := [.advance (.port 0)], out.order := [.grant (.port 0) 0x77] }

theorem witness_StepRunsDecodedCommand :
    ((moving0 0x10000000).nextEvent = .advance (.port 0) ∧
      (moving0 0x10000000).slot 0 = some ⟨0, 0x10000000, .issued⟩ ∧ decode .bus 0x10000000 = .ok .busEnd) ∧
    ((engineHas 0x88000003 .reset).nextEvent = .advance .seq ∧
      (engineHas 0x88000003 .reset).ports.pendEng = some 0x88000003 ∧
      decode .engine 0x88000003 = .ok (.setoss 3)) := by decide

theorem witness_IllegalWordAnswered :
    ((moving0 0x0F700001).nextEvent = .advance (.port 0) ∧
      (moving0 0x0F700001).slot 0 = some ⟨0, 0x0F700001, .issued⟩ ∧
      decode .bus 0x0F700001 = .error .mustBeZero ∧ 0 < Config.nPorts) ∧
    ((engineHas 0xC7400000 .reset).nextEvent = .advance .seq ∧
      (engineHas 0xC7400000 .reset).ports.pendEng = some 0xC7400000 ∧
      decode .engine 0xC7400000 = .error .selOutOfRange) :=
  ⟨⟨rfl, rfl, rfl, Nat.succ_pos _⟩, rfl, rfl, rfl⟩

theorem witness_PortAcceptsWhenFree :
    ((upNext [.issue (.bus 0) 0x10000000]).nextEvent = .issue (.bus 0) 0x10000000 ∧ 0 < Config.nPorts ∧
      (upNext [.issue (.bus 0) 0x10000000]).slot 0 = none) ∧
    ((upNext [.issue (.bus Config.nPorts) 0x10000000]).nextEvent = .issue (.bus Config.nPorts) 0x10000000 ∧
      Config.nPorts ≤ Config.nPorts) ∧
    (({ owning0 0x10000000 [] with out.events := [.issue (.bus 0) 0x10000000] } : State).nextEvent =
        .issue (.bus 0) 0x10000000 ∧
      ({ owning0 0x10000000 [] with out.events := [.issue (.bus 0) 0x10000000] } : State).slot 0 ≠ none) ∧
    ((upNext [.issue .engine 0x80000000]).nextEvent = .issue .engine 0x80000000 ∧
      (upNext [.issue .engine 0x80000000]).ports.pendEng = none) ∧
    (({ engineHas 0x90000000 .reset with out.events := [.issue .engine 0x80000000] } : State).nextEvent =
        .issue .engine 0x80000000 ∧
      ({ engineHas 0x90000000 .reset with out.events := [.issue .engine 0x80000000] } : State).ports.pendEng ≠ none) :=
  ⟨⟨rfl, Nat.succ_pos _, rfl⟩, ⟨rfl, le_rfl⟩, ⟨rfl, by decide⟩, ⟨rfl, rfl⟩, rfl, by decide⟩

theorem witness_ResetStep : (upNext [.reset]).nextEvent = .reset := rfl

/-- Two requesters wait on a free bus, and the arbiter chooses `c`. -/
def waiting (c : Requester) : State :=
  { upNext [.grant c] with arb.lastV := true, arb.waitq := [⟨.seq, .explicit 0x1E⟩, ⟨.port 0, .auto⟩] }

theorem witness_GrantStep :
    ((waiting .seq).nextEvent = .grant .seq ∧ (waiting .seq).arb.owner = none ∧
      (waiting .seq).waitKind .seq = some (.explicit 0x1E)) ∧
    ((waiting (.port 0)).nextEvent = .grant (.port 0) ∧ (waiting (.port 0)).arb.owner = none ∧
      (waiting (.port 0)).waitKind (.port 0) = some .auto) ∧
    ((waiting (.port 1)).nextEvent = .grant (.port 1) ∧ (waiting (.port 1)).waitKind (.port 1) = none) ∧
    (({ owning0 0x10000000 [] with out.events := [.grant .seq] } : State).nextEvent = .grant .seq ∧
      ({ owning0 0x10000000 [] with out.events := [.grant .seq] } : State).arb.owner ≠ none) := by decide

theorem witness_BeginCompletes :
    ((owning0 0x09E00000 []).phase = .issued ∧ (owning0 0x09E00000 []).arb.owner = some (owning0 0x09E00000 []).self) ∧
    ((port0 0x09E00000 .issued none []).slot 0 = some ⟨0, 0x09E00000, .issued⟩ ∧
      (port0 0x09E00000 .issued none []).arb.owner ≠ some (port0 0x09E00000 .issued none []).self) ∧
    ((granted0 0x0F700000 []).phase = .awaiting ∧
      (granted0 0x0F700000 []).arb.owner = some (granted0 0x0F700000 []).self) := by decide

theorem witness_EndCompletes : (owning0 0x10000000 []).arb.owner = some (owning0 0x10000000 []).self ∧
    State.reset.arb.owner ≠ some State.reset.self := by decide

/-- RDB and WRB, from their start and from their grant. -/
theorem witness_RdbCompletes :
    ((owning0 0x180F6000 [.ok 0x6C]).slot 0 = some ⟨0, 0x180F6000, .issued⟩ ∧
      (owning0 0x180F6000 [.ok 0x6C]).arb.owner = some (owning0 0x180F6000 [.ok 0x6C]).self ∧
      (owning0 0x180F6000 [.ok 0x6C]).nextAnswer = .ok 0x6C) ∧
    ((granted0 0x180F6000 [.ok 0x6C]).slot 0 = some ⟨0, 0x180F6000, .awaiting⟩ ∧
      (granted0 0x180F6000 [.ok 0x6C]).arb.owner = some (granted0 0x180F6000 [.ok 0x6C]).self ∧
      (granted0 0x180F6000 [.ok 0x6C]).nextAnswer = .ok 0x6C) := by decide

theorem witness_RdwCompletes :
    (owning0 0x200FF000 [.ok 0x12, .ok 0x34]).slot 0 = some ⟨0, 0x200FF000, .issued⟩ ∧
    (owning0 0x200FF000 [.ok 0x12, .ok 0x34]).arb.owner = some (owning0 0x200FF000 [.ok 0x12, .ok 0x34]).self ∧
    (owning0 0x200FF000 [.ok 0x12, .ok 0x34]).out.answers = .ok 0x12 :: .ok 0x34 :: [] := by decide

theorem witness_WrbCompletes :
    (owning0 0x280F42E0 [.ok 0]).slot 0 = some ⟨0, 0x280F42E0, .issued⟩ ∧
    (owning0 0x280F42E0 [.ok 0]).arb.owner = some (owning0 0x280F42E0 [.ok 0]).self ∧
    (owning0 0x280F42E0 [.ok 0]).nextAnswer = .ok 0 := by decide

theorem witness_LdcfgCompletes :
    ((granted0 0x31920000 [.ok 0x57]).slot 0 = some ⟨0, 0x31920000, .awaiting⟩ ∧
      (granted0 0x31920000 [.ok 0x57]).arb.owner = some (granted0 0x31920000 [.ok 0x57]).self ∧
      (granted0 0x31920000 [.ok 0x57]).nextAnswer = .ok 0x57) ∧
    ((owning0 0x31920000 [.ok 0x57]).slot 0 = some ⟨0, 0x31920000, .issued⟩ ∧
      (owning0 0x31920000 [.ok 0x57]).arb.owner = some (owning0 0x31920000 [.ok 0x57]).self ∧
      (owning0 0x31920000 [.ok 0x57]).nextAnswer = .ok 0x57) := by decide

theorem witness_StcfgCompletes :
    ((granted0 0x39E02000 [.ok 0]).slot 0 = some ⟨0, 0x39E02000, .awaiting⟩ ∧
      (granted0 0x39E02000 [.ok 0]).arb.owner = some (granted0 0x39E02000 [.ok 0]).self ∧
      (granted0 0x39E02000 [.ok 0]).nextAnswer = .ok 0) ∧
    ((owning0 0x39E02000 [.ok 0]).slot 0 = some ⟨0, 0x39E02000, .issued⟩ ∧
      (owning0 0x39E02000 [.ok 0]).arb.owner = some (owning0 0x39E02000 [.ok 0]).self ∧
      (owning0 0x39E02000 [.ok 0]).nextAnswer = .ok 0) := by decide

theorem witness_AutoBegin :
    (State.reset.phase = .issued ∧ State.reset.arb.owner ≠ some State.reset.self ∧ State.reset.arb.lastV = false) ∧
    ((port0 0x180F6000 .issued none []).slot 0 = some ⟨0, 0x180F6000, .issued⟩ ∧
      (port0 0x180F6000 .issued none []).arb.owner ≠ some (port0 0x180F6000 .issued none []).self ∧
      (port0 0x180F6000 .issued none []).arb.lastV = true) := by decide

theorem witness_ConfigTransferWaits :
    (port0 0x31920000 .issued none []).slot 0 = some ⟨0, 0x31920000, .issued⟩ ∧
    (port0 0x31920000 .issued none []).arb.owner ≠ some (port0 0x31920000 .issued none []).self := by decide

theorem witness_AwaitHasNoStep : Instr.portClass (.rdb 0xF6) = .bus ∧ Instr.rdb 0xF6 ≠ .busEnd ∧
    (port0 0x180F6000 .awaiting (some .seq) []).phase = .awaiting ∧
    (port0 0x180F6000 .awaiting (some .seq) []).arb.owner ≠
      some (port0 0x180F6000 .awaiting (some .seq) []).self := by decide

/-- A failing transport, for each command's points at which it issues a primitive: from its start as the owner of an open
transaction (V-BUS.4, V-BUS.5), from its grant, and for RDW's second read. -/
theorem witness_PortFailureReported :
    let s (w : Word) (ph : Phase) := port0 w ph (some (.port 0)) [.fail .retryable 0x20]
    ∀ p ∈ ([(0x180F6000, .awaiting), (0x200F6000, .awaiting), (0x280F42E0, .awaiting), (0x31920000, .awaiting),
        (0x39E02000, .awaiting), (0x180F6000, .issued), (0x200F6000, .issued), (0x280F42E0, .issued),
        (0x31920000, .issued), (0x39E02000, .issued), (0x200F6000, .firstByte 0x6C)] : List (Word × Phase)),
      (s p.1 p.2).slot 0 = some ⟨0, p.1, p.2⟩ ∧ (s p.1 p.2).arb.owner = some (s p.1 p.2).self ∧
      (s p.1 p.2).nextAnswer = .fail .retryable 0x20 := by decide

/-- END, and the primitive of WRB. -/
theorem witness_BusCommandFrame :
    (∃ t, Instr.busEnd.portClass = .bus ∧ exec .busEnd (owning0 0x10000000 []) = .next t) ∧
    ∃ t, exec (.wrb 0xF4 0x2E) (owning0 0x280F42E0 [.ok 0]) = .next t ∧
      (owning0 0x280F42E0 [.ok 0]).portPrim (.wrb 0xF4 0x2E) = some (.write 0x77 0xF4 0x2E) :=
  ⟨⟨_, rfl, rfl⟩, _, rfl, rfl⟩

theorem witness_WrcalCompletes : (10 : BitVec 5).toNat ≤ 10 ∧ (0 : BitVec 5).toNat ≤ 10 := by decide

theorem witness_RdregCompletes : (28 : BitVec 5).toNat ≤ 28 ∧ afterTemp.tempWritten = true ∧
    afterTemp.presWritten = false ∧ Engine.reset.tempWritten = false ∧
    ({ afterTemp with presWritten := true } : Engine).presWritten = true := by decide

theorem witness_TemperatureExact : temperature calDefault 27898 = some ⟨4743, -2344, 2399, 150⟩ ∧
    temperature { calDefault with md := -4743 } 27898 = none := by decide

theorem witness_PressureFormula : (pressure calDefault 2399 23843 0).isSome = true ∧
    pressure { calDefault with ac4 := 0 } 2399 23843 0 = none := by decide

theorem witness_EngineCommandAcquires :
    (State.reset.ports.seq = none ∧ State.reset.arb.owner ≠ some .seq ∧ State.reset.eng.src = 0) ∧
    ((engineHas 0x98000000 { afterTemp with src := 0 }).ports.seq = none ∧
      (engineHas 0x98000000 { afterTemp with src := 0 }).arb.owner ≠ some .seq ∧
      (engineHas 0x98000000 { afterTemp with src := 0 }).eng.src = 0 ∧
      (engineHas 0x98000000 { afterTemp with src := 0 }).eng.stage = .temperatureRead) ∧
    ((engineHas 0xD8000000 { Engine.reset with accCtrl := 0x57 }).ports.seq = none ∧
      (engineHas 0xD8000000 { Engine.reset with accCtrl := 0x57 }).eng.accCtrl.extractLsb' 4 4 ≠ 0) ∧
    (2 : BitVec 5).toNat ≤ 2 := by decide

theorem witness_AcqcalInjectedCompletes : (engineHas 0x80000000 injected).ports.seq = none ∧
    (engineHas 0x80000000 injected).eng.src = 1 := by decide

/-- SEQ granted the bus, for any device and any answers to come. -/
theorem seqOn_granted (dev : DevAddr) (w : Word) (answers : List Answer) :
    SeqGranted (seqOn dev w .start answers) dev .start :=
  ⟨rfl, rfl, rfl, rfl, rfl, rfl, rfl⟩

theorem witness_AcqcalBusCompletes :
    ∃ s j rest, SeqGranted s Config.baroAddr j ∧
      s.out.answers = (List.range 22).map (fun k => Answer.ok (BitVec.ofNat 8 k)) ++ rest :=
  ⟨seqOn Config.baroAddr 0x80000000 .start ((List.range 22).map (fun k => Answer.ok (BitVec.ofNat 8 k)) ++ []), .start, [],
    seqOn_granted _ _ _, rfl⟩

theorem witness_RdtempInjectedCompletes :
    ((engineHas 0x90000000 injected).ports.seq = none ∧ (engineHas 0x90000000 injected).eng.src = 1 ∧
      (temperature (engineHas 0x90000000 injected).eng.cal (engineHas 0x90000000 injected).eng.injUt).isSome = true) ∧
    (temperature (engineHas 0x90000000 { injected with cal.md := -4743 }).eng.cal
      (engineHas 0x90000000 { injected with cal.md := -4743 }).eng.injUt = none) := by decide

theorem witness_RdtempBusCompletes :
    let s := seqOn Config.baroAddr 0x90000000 .start [.ok 0, .ok 0x6C, .ok 0xFA]
    SeqGranted s Config.baroAddr .start ∧ s.out.answers = .ok 0 :: .ok 0x6C :: .ok 0xFA :: [] ∧
      temperature s.eng.cal ((0x6C : Byte) ++ (0xFA : Byte)) = some ⟨4743, -2344, 2399, 150⟩ :=
  ⟨seqOn_granted _ _ _, rfl, by decide⟩

/-- The DIV_ZERO clause: the same bytes with MD = -4743. -/
theorem witness_RdtempBusCompletes_divZero :
    let s := { seqOn Config.baroAddr 0x90000000 .start [.ok 0, .ok 0x6C, .ok 0xFA] with eng.cal.md := -4743 }
    SeqGranted s Config.baroAddr .start ∧ s.out.answers = .ok 0 :: .ok 0x6C :: .ok 0xFA :: [] ∧
      temperature s.eng.cal ((0x6C : Byte) ++ (0xFA : Byte)) = none :=
  ⟨⟨rfl, rfl, rfl, rfl, rfl, rfl, rfl⟩, rfl, by decide⟩

theorem witness_RdpresStageOrder : State.reset.ports.seq = none ∧ State.reset.eng.stage.code ≠ 2 := by decide

theorem witness_RdpresInjectedCompletes :
    ((engineHas 0x98000000 afterTemp).ports.seq = none ∧ (engineHas 0x98000000 afterTemp).eng.stage = .temperatureRead ∧
      (engineHas 0x98000000 afterTemp).eng.src = 1 ∧
      (pressure afterTemp.cal afterTemp.b5 afterTemp.injUp afterTemp.oss).isSome = true) ∧
    pressure { afterTemp.cal with ac4 := 0 } afterTemp.b5 afterTemp.injUp afterTemp.oss = none := by decide

theorem witness_RdpresBusCompletes :
    let j := { Job.start with mode := 3, b5 := 2399 }
    let s := seqOn Config.baroAddr 0x98000000 j [.ok 0, .ok 0x5D, .ok 0x23, .ok 0x00]
    SeqGranted s Config.baroAddr j ∧ s.out.answers = .ok 0 :: .ok 0x5D :: .ok 0x23 :: .ok 0x00 :: [] ∧
      (pressure s.eng.cal j.b5 (composeUp 0x5D 0x23 0x00 j.mode) j.mode).isSome = true :=
  ⟨⟨rfl, rfl, rfl, rfl, rfl, rfl, rfl⟩, rfl, by decide⟩

/-- The DIV_ZERO clause: the same bytes with AC4 = 0. -/
theorem witness_RdpresBusCompletes_divZero :
    let j := { Job.start with mode := 3, b5 := 2399 }
    let s := { seqOn Config.baroAddr 0x98000000 j [.ok 0, .ok 0x5D, .ok 0x23, .ok 0x00] with eng.cal.ac4 := 0 }
    SeqGranted s Config.baroAddr j ∧ s.out.answers = .ok 0 :: .ok 0x5D :: .ok 0x23 :: .ok 0x00 :: [] ∧
      pressure s.eng.cal j.b5 (composeUp 0x5D 0x23 0x00 j.mode) j.mode = none :=
  ⟨⟨rfl, rfl, rfl, rfl, rfl, rfl, rfl⟩, rfl, by decide⟩

theorem witness_AcccfgCompletes :
    let s := seqOn Config.accAddr 0xC8000057 .start [.ok 0]
    SeqGranted s Config.accAddr .start ∧ s.nextAnswer = .ok 0 := ⟨seqOn_granted _ _ _, rfl⟩

theorem witness_MagcfgCompletes :
    let s := seqOn Config.magAddr 0xD0800000 .start [.ok 0]
    (2 : BitVec 5).toNat ≤ 2 ∧ SeqGranted s Config.magAddr .start ∧ s.nextAnswer = .ok 0 :=
  ⟨by decide, seqOn_granted _ _ _, rfl⟩

theorem witness_RdaccCompletes :
    ((engineHas 0xD8000000 { Engine.reset with accCtrl := 0x07 }).ports.seq = none ∧
      (engineHas 0xD8000000 { Engine.reset with accCtrl := 0x07 }).eng.accCtrl.extractLsb' 4 4 = 0) ∧
    ∃ s j, SeqGranted s Config.accAddr j ∧
      (∀ a, a < 3 → (fun a => decide (a ≠ 1)) a = ((0x05 : Byte).getLsbD a && s.eng.accCtrl.getLsbD a)) ∧
      s.out.answers = .ok 0x05 ::
        (([0, 1, 2].filter fun a => decide (a ≠ 1)).flatMap fun a =>
          [Answer.ok (BitVec.ofNat 8 a), Answer.ok (BitVec.ofNat 8 (a + 1))]) ++ [] :=
  ⟨by decide, { seqOn Config.accAddr 0xD8000000 .start [.ok 0x05, .ok 0, .ok 1, .ok 2, .ok 3] with eng.accCtrl := 0x57 },
    .start, ⟨rfl, rfl, rfl, rfl, rfl, rfl, rfl⟩, by decide, rfl⟩

theorem witness_RdmagCompletes :
    ∃ s j rest, SeqGranted s Config.magAddr j ∧
      s.out.answers = (List.range 6).map (fun k => Answer.ok (BitVec.ofNat 8 k)) ++ rest :=
  ⟨seqOn Config.magAddr 0xE0000000 .start ((List.range 6).map (fun k => Answer.ok (BitVec.ofNat 8 k)) ++ []), .start, [],
    seqOn_granted _ _ _, rfl⟩

/-- V-MA.5: RDACC's first read fails. -/
theorem witness_SeqFailureReleases :
    let s := seqOn Config.accAddr 0xD8000000 .start [.fail .retryable 0x20]
    usesSeq .rdacc = true ∧ s.ports.seq = some .start ∧ Job.start.phase = .awaiting ∧ s.arb.owner = some .seq ∧
      Job.start.failure = none ∧ (seqList .rdacc s .start)[Job.start.step]? = some (.read 0x27) ∧
      SeqOp.prim (seqDev .rdacc) (.read 0x27) = some (.read Config.accAddr 0x27) ∧
      s.nextAnswer = .fail .retryable 0x20 :=
  ⟨rfl, rfl, rfl, rfl, rfl, rfl, rfl, rfl⟩

theorem witness_SeqAwaitHasNoStep :
    let s := { seqOn 0 0x80000000 .start [] with arb.owner := some (.port 0) }
    usesSeq .acqcal = true ∧ s.ports.seq = some .start ∧ Job.start.phase = .awaiting ∧ s.arb.owner ≠ some .seq := by decide

theorem witness_RdtempDeterministic :
    let s := engineHas 0x90000000 injected
    let s' := engineHas 0x90000000 { injected with oss := 3, ut := 1 }
    s.ports.seq = none ∧ s'.ports.seq = none ∧ s.eng.src = 1 ∧ s'.eng.src = 1 ∧ s.eng.cal = s'.eng.cal ∧
      s.eng.injUt = s'.eng.injUt := by decide

/-- RDTEMP, and the primitive of RDACC's first element. -/
theorem witness_EngineCommandFrame :
    (∃ t, Instr.rdtemp.portClass = .engine ∧ exec .rdtemp State.reset = .next t) ∧
    ∃ t, exec .rdacc (seqOn Config.accAddr 0xD8000000 .start [.ok 0x05]) = .next t ∧
      (seqOn Config.accAddr 0xD8000000 .start [.ok 0x05]).seqPrimNext .rdacc (.read Config.accAddr 0x27) :=
  ⟨⟨_, rfl, rfl⟩, _, rfl, .start, .read 0x27, rfl, rfl, rfl, rfl⟩

theorem witness_RegisterFrame : ∃ t, exec (.setoss 3) State.reset = .next t := ⟨_, rfl⟩

/-- STAGE_ORDER, a step with no response, and a failed RDTEMP's. -/
theorem witness_ErrorsCommitNothing :
    (∃ t, exec .rdpres State.reset = .next t ∧
      t.out.responses = ⟨.engine, .stageOrder, 0⟩ :: State.reset.out.responses ∧ Status.stageOrder ≠ .ok) ∧
    (∃ t, exec .rdtemp State.reset = .next t ∧ t.out.responses = State.reset.out.responses) ∧
    ∃ t, exec .rdtemp { State.reset with eng := { afterTemp with cal.md := -4743 } } = .next t ∧
      t.out.responses = [⟨.engine, .divZero, 1⟩] ∧ Status.divZero ≠ .ok :=
  ⟨⟨_, rfl, rfl, by decide⟩, ⟨_, rfl, rfl⟩, _, rfl, rfl, by decide⟩

/-- A state of the invariant that is not reset: port 0 owns the bus and its command is about to act. -/
theorem moving0_consistent (w : Word) : Consistent (moving0 w) where
  active := rfl
  activeAddr h := by simp [moving0, owning0, port0] at h
  last _ := ⟨rfl, rfl⟩
  waitq := .nil
  waitAuto _ h := by simp [State.waitKind, moving0, owning0, port0, State.reset, Arbiter.reset, findKey] at h
  ownerLeft _ _ := rfl
  pend := List.pairwise_singleton _ _
  ports sl h := by
    obtain rfl : sl = ⟨0, w, .issued⟩ := by simpa [moving0, owning0, port0] using h
    exact Nat.succ_pos _
  slots n sl h := by
    obtain rfl : sl = ⟨0, w, .issued⟩ := by simpa [moving0, owning0, port0] using slot_mem h
    trivial
  waiters n h := absurd rfl h
  seq := ⟨by simp [moving0, owning0, port0], rfl⟩
  busy := rfl
  stage := rfl
  walk _ h := by simp [moving0, owning0, port0, State.reset, Ports.reset] at h
  b5 h := by simp [moving0, owning0, port0, State.reset, Engine.reset] at h
  order := rfl

/-- For StepKeepsInvariant, StepNeverStops and OnePrimitivePerStep, with an RDB. -/
theorem witness_StepKeepsInvariant : Consistent (moving0 0x180F6000) ∧ ∃ t, step (moving0 0x180F6000) = .next t :=
  ⟨moving0_consistent _, _, rfl⟩

theorem witness_ReservedStatusesNotProduced : NoReserved (upNext [.reset]) ∧ ∃ t, step (upNext [.reset]) = .next t :=
  ⟨⟨by simp [upNext, State.reset, Outside.start], by simp [upNext, State.reset, Ports.reset],
    by simp [upNext, State.reset, Ports.reset]⟩, _, rfl⟩

theorem witness_OneResponsePerStep : ∃ t, step (moving0 0x10000000) = .next t := ⟨_, rfl⟩

/-- END frees the bus. -/
theorem witness_OwnerWriters : Consistent (moving0 0x10000000) ∧
    ∃ t, step (moving0 0x10000000) = .next t ∧ t.arb.owner ≠ (moving0 0x10000000).arb.owner :=
  ⟨moving0_consistent _, _, rfl, by decide⟩

/-- SEQ off the bus in an RDPRES with the injected source, at PressureRequested. -/
def walking : State :=
  { engineHas 0x98000000 afterTemp with
    ports.engBusy := true
    ports.seq := some { Job.start with phase := .offBus, b5 := 2399, walk := some .pressureRequested } }

theorem walking_consistent : Consistent walking where
  active := rfl
  activeAddr _ := rfl
  last h := absurd rfl h
  waitq := .nil
  waitAuto _ h := by simp [State.waitKind, walking, engineHas, State.reset, Arbiter.reset, findKey] at h
  ownerLeft _ h := by simp [walking, engineHas, State.reset, Arbiter.reset] at h
  pend := .nil
  ports _ h := by simp [walking, engineHas, State.reset, Ports.reset] at h
  slots _ _ h := by simp [State.slot, walking, engineHas, State.reset, Ports.reset, findKey] at h
  waiters _ h := absurd rfl h
  seq := ⟨.rdpres, ⟨0x98000000, rfl, by decide⟩, rfl, by simp [walking, engineHas, State.reset, Arbiter.reset], rfl⟩
  busy := rfl
  stage := rfl
  walk _ _ _ := .inr ⟨0x98000000, rfl, by decide⟩
  b5 _ := rfl
  order := rfl

theorem witness_StageBetweenCommands :
    (Consistent (moving0 0x10000000) ∧ (moving0 0x10000000).ports.seq = none) ∧
    (∃ s i, Consistent s ∧ s.ports.engineCommand i ∧ usesSeq i = false) ∧
    (Consistent walking ∧ walking.stageNow.transient = true) := by
  refine ⟨⟨moving0_consistent _, rfl⟩, ⟨(moving0 0x10000000).accept .engine 0xC3000000, .rdreg 12,
    (moving0_consistent _).accept _ _, ⟨0xC3000000, rfl, ?_⟩, rfl⟩, walking_consistent, rfl⟩
  decide

/-- A grant at address 0, the first after reset, sets LAST_V with LAST_ADDR unchanged (R77). -/
def firstGrant : State :=
  { upNext [.grant (.port 0)] with
    arb.waitq := [⟨.port 0, .explicit 0x00⟩], ports.pend := [⟨0, 0x08000000, .awaiting⟩] }

theorem firstGrant_consistent : Consistent firstGrant where
  active := rfl
  activeAddr _ := rfl
  last h := absurd rfl h
  waitq := List.pairwise_singleton _ _
  waitAuto c h := by
    cases c with
    | port n => cases n <;> simp [State.waitKind, firstGrant, findKey, Waiter.key, Requester.key] at h
    | seq => simp [State.waitKind, firstGrant, findKey, Waiter.key, Requester.key] at h
  ownerLeft _ h := by simp [firstGrant, upNext, State.reset, Arbiter.reset] at h
  pend := List.pairwise_singleton _ _
  ports sl h := by
    obtain rfl : sl = ⟨0, 0x08000000, .awaiting⟩ := by simpa [firstGrant] using h
    exact Nat.succ_pos _
  slots n sl h := by
    obtain rfl : sl = ⟨0, 0x08000000, .awaiting⟩ := by simpa [firstGrant] using slot_mem h
    exact ⟨.busBegin 0, by decide, by simp, .inl rfl⟩
  waiters n h := by
    cases n with
    | zero => exact ⟨_, rfl, rfl⟩
    | succ n => simp [State.waitKind, firstGrant, findKey, Waiter.key, Requester.key] at h
  seq := ⟨by simp [firstGrant, upNext, State.reset, Arbiter.reset], rfl⟩
  busy := rfl
  stage := rfl
  walk _ h := by simp [firstGrant, upNext, State.reset, Ports.reset] at h
  b5 h := by simp [firstGrant, upNext, State.reset, Engine.reset] at h
  order := rfl

theorem witness_LastWriters_grant : Consistent firstGrant ∧ firstGrant.nextEvent ≠ .reset ∧
    ∃ t, step firstGrant = .next t ∧ t.arb.lastV ≠ firstGrant.arb.lastV ∧ t.arb.lastAddr = firstGrant.arb.lastAddr :=
  ⟨firstGrant_consistent, by decide, _, rfl, by decide, rfl⟩

/-- The owner's BEGIN moves LAST, and reset clears it. -/
theorem witness_LastWriters :
    (Consistent (moving0 0x09E00000) ∧ (moving0 0x09E00000).nextEvent ≠ .reset ∧ (moving0 0x09E00000).arb.lastV = true ∧
      ∃ t, step (moving0 0x09E00000) = .next t ∧ t.arb.lastAddr ≠ (moving0 0x09E00000).arb.lastAddr) ∧
    ((upNext [.reset]).nextEvent = .reset ∧ ∃ t, step (upNext [.reset]) = .next t) :=
  ⟨⟨moving0_consistent _, by decide, rfl, _, rfl, by decide⟩, rfl, _, rfl⟩

/-- WRCAL 3, 0 changes the LUT. -/
theorem witness_LutWriteEndsCycle : ∃ t, step (engineHas 0xA0C00000 .reset) = .next t ∧
    t.eng.cal ≠ (engineHas 0xA0C00000 .reset).eng.cal := ⟨_, rfl, by decide⟩

theorem witness_B5ValidOnlyAfterRdtemp : ∃ t, step (engineHas 0x90000000 injected) = .next t ∧
    t.eng.stage = .temperatureRead ∧ (engineHas 0x90000000 injected).eng.stage ≠ .temperatureRead :=
  ⟨_, rfl, by decide, by decide⟩

end Sys2Proof.Tests
end

section
/-! PROOFS, family 00_scope.md. The arithmetic of R7 and R8, and the frame of the bus-family commands (R3, R41, R42, R84). -/

namespace Sys2Proof.Machine

/-! The arithmetic against the library's floor and against congruence modulo 2^32. -/

/-- R7's floor, by the sign of the divisor: a negative one is moved into the dividend. -/
theorem fdiv_eq_floor (a b : Int) : fdiv a b = ⌊(a : ℚ) / (b : ℚ)⌋ := by
  have hnat (a : Int) (d : ℕ) : fdiv a d = ⌊(a : ℚ) / (d : ℚ)⌋ := by
    rw [Rat.floor_intCast_div_natCast]
    exact Int.fdiv_eq_ediv_of_nonneg a d.cast_nonneg
  obtain ⟨d, rfl | rfl⟩ := b.eq_nat_or_neg
  · simpa using hnat a d
  · have hneg : fdiv a (-d) = fdiv (-a) d := by simpa [fdiv] using (Int.neg_fdiv_neg a (-d)).symm
    rw [hneg, hnat]
    simp [neg_div, div_neg]

theorem w32_range (x : Int) : -2 ^ 31 ≤ w32 x ∧ w32 x < 2 ^ 31 := by
  unfold w32
  omega

theorem w32_sub_self_dvd (x : Int) : (2 ^ 32 : Int) ∣ w32 x - x := by
  unfold w32
  omega

theorem u32_range (x : Int) : 0 ≤ u32 x ∧ u32 x < 2 ^ 32 := by
  unfold u32
  omega

theorem u32_sub_self_dvd (x : Int) : (2 ^ 32 : Int) ∣ u32 x - x :=
  Int.dvd_emod_sub_self

/-- The pattern read as a signed integer (R8). -/
theorem pattern32_toInt (x : Int) : (pattern32 x).toInt = w32 x := by
  rw [pattern32, BitVec.toInt_ofInt, Int.bmod_def, w32]
  split <;> omega

/-- The pattern read as an unsigned integer (R8). -/
theorem pattern32_toNat (x : Int) : ((pattern32 x).toNat : Int) = u32 x := by
  rw [pattern32, BitVec.toNat_ofInt, u32]
  omega

/-- Settles O27, from the spec lemmas of `fdiv`, `w32`, `u32` and `pattern32`. -/
theorem floorAndWraps : Obligations.FloorAndWraps :=
  ⟨fun a b _ => fdiv_eq_floor a b,
    fun x => ⟨(w32_range x).1, (w32_range x).2, w32_sub_self_dvd x, pattern32_toInt x⟩,
    fun x => ⟨(u32_range x).1, (u32_range x).2, u32_sub_self_dvd x, pattern32_toNat x⟩⟩

/-! The frame of the bus-family commands: each clause holds of every `BusEffect`. -/

/-- A phase change frames everything but the acting port's slot, whether or not that slot is in use. -/
theorem PortFrame.setPhase_portFrame {s u : State} (h : PortFrame s u) (ph : Phase) : PortFrame s (u.setPhase ph) where
  eng := by simpa using h.eng
  pendEng := by simpa using h.pendEng
  engBusy := by simpa using h.engBusy
  seq := by simpa using h.seq
  slots m hm := by rw [slot_setPhase_ne (by rw [h.actPort]; exact hm.symm), h.slots m hm]
  events := by simpa using h.events
  ticks := by simpa using h.ticks
  actPort := by simpa using h.actPort

theorem BusEffect.portFrame {i : Instr} {s t : State} (h : BusEffect i s t) : PortFrame s t := by
  have hs := SameButBus.refl s
  cases h with
  | stay => exact hs.portFrame
  | respond st d => exact (hs.respondPort st d).toPortFrame
  | retarget a d _ _ => exact ((hs.retarget s.self a).respondPort .ok d).toPortFrame
  | release st d _ _ => exact ((hs.release s.self).respondPort st d).toPortFrame
  | wait kind _ => exact (hs.enqueue s.self kind).portFrame.setPhase_portFrame .awaiting
  | prim p ph _ _ => exact (hs.transfer s.self p).portFrame.setPhase_portFrame ph
  | retargetPrim p ph _ _ _ => exact ((hs.retarget s.self p.dev).transfer s.self p).portFrame.setPhase_portFrame ph

/-- Only the requester's own entry into WAITQ writes WAITQ. -/
theorem BusEffect.waitKind_ne {i : Instr} {s t : State} (h : BusEffect i s t) {c : Requester} (hc : c ≠ s.self) :
    t.waitKind c = s.waitKind c := by
  cases h with
  | wait kind _ => rw [setPhase_waitKind, waitKind_enqueue_ne hc.symm]
  | stay | respond | retarget | release => rfl
  | prim | retargetPrim => exact setPhase_waitKind _ _ _

/-- What one step of bus-family command `i` may add to the transport order, newest first: nothing, the owner's retarget,
the release, or the command's primitive, the last also right after a retarget to its device. -/
def State.busEntries (s : State) (i : Instr) (l : List BusEvent) : Prop :=
  l = [] ∨
  (∃ a, acquireKind i = .explicit a ∧ l = [.retarget s.self a]) ∨
  (releasesBus i = true ∧ l = [.release s.self]) ∨
  ∃ p, s.portPrim i = some p ∧
    (l = [.prim s.self p s.nextAnswer] ∨
     (acquireKind i = .explicit p.dev ∧ l = [.prim s.self p s.nextAnswer, .retarget s.self p.dev]))

theorem BusEffect.order {i : Instr} {s t : State} (h : BusEffect i s t) :
    ∃ l, t.out.order = l ++ s.out.order ∧ s.busEntries i l := by
  cases h with
  | stay => exact ⟨[], rfl, .inl rfl⟩
  | respond st d => exact ⟨[], rfl, .inl rfl⟩
  | retarget a d hk _ => exact ⟨_, rfl, .inr (.inl ⟨a, hk, rfl⟩)⟩
  | release st d hi _ => exact ⟨_, rfl, .inr (.inr (.inl ⟨hi, rfl⟩))⟩
  | wait kind _ => exact ⟨[], by simp, .inl rfl⟩
  | prim p ph hp _ => exact ⟨[_], by simp, .inr (.inr (.inr ⟨p, hp, .inl rfl⟩))⟩
  | retargetPrim p ph hk hp _ =>
    exact ⟨[_, _], by simp [State.nextAnswer], .inr (.inr (.inr ⟨p, hp, .inr ⟨hk, rfl⟩⟩))⟩

/-- A primitive among the added entries is the one the command issues next. -/
theorem State.busEntries.portPrim_eq {s : State} {i : Instr} {l : List BusEvent} (h : s.busEntries i l) {c : Requester}
    {p : Prim} {r : Answer} (hm : BusEvent.prim c p r ∈ l) : s.portPrim i = some p := by
  rcases h with rfl | ⟨a, -, rfl⟩ | ⟨-, rfl⟩ | ⟨q, hq, hl⟩
  · simp at hm
  · simp at hm
  · simp at hm
  · obtain ⟨-, rfl, -⟩ : c = s.self ∧ p = q ∧ r = s.nextAnswer := by
      rcases hl with rfl | ⟨-, rfl⟩ <;> simpa using hm
    exact hq

/-- RDB, RDW and LDCFG write no device byte (R89, R91, R95). -/
theorem State.portPrim_ne_write {s : State} {i : Instr}
    (hi : (∃ reg, i = .rdb reg) ∨ (∃ reg flip, i = .rdw reg flip) ∨ ∃ a reg, i = .ldcfg a reg) (dev : DevAddr)
    (reg : RegAddr) (v : Byte) : s.portPrim i ≠ some (.write dev reg v) := by
  rcases hi with ⟨reg, rfl⟩ | ⟨reg, flip, rfl⟩ | ⟨a, reg, rfl⟩
  · simp [State.portPrim]
  · cases hp : s.phase <;> simp [State.portPrim, hp]
  · simp [State.portPrim]

/-- Settles O23: every step of a bus-family command is a `BusEffect`, and each clause holds of every one of those. -/
theorem busCommandFrame : Obligations.BusCommandFrame := by
  intro i s t hc hx
  have he := exec_bus hc hx
  obtain ⟨l, hl, hadd⟩ := he.order
  refine ⟨he.portFrame, fun c hne => he.waitKind_ne hne, l, hl, hadd, fun hi c p r hm => ?_, fun hi c dev reg v r hm => ?_⟩
  · have hp := hadd.portPrim_eq hm
    rcases hi with ⟨a, rfl⟩ | rfl <;> cases hp
  · exact State.portPrim_ne_write hi dev reg v (hadd.portPrim_eq hm)

end Sys2Proof.Machine
end

section
/-! PROOFS, family 10_state.md. Who writes which part of the state: the ports, the LUT and the engine's registers, OWNER
and LAST; what ACQCAL, WRCAL and RDREG do with the registers; and STAGE under the invariant. -/

namespace Sys2Proof.Machine

/-! The LUT as the list of its eleven entries (R16). -/

/-- The entries, by index. -/
def Calib.toList (c : Calib) : List (BitVec 16) :=
  [c.ac1, c.ac2, c.ac3, c.ac4, c.ac5, c.ac6, c.b1, c.b2, c.mb, c.mc, c.md]

theorem Calib.get_eq_toList (c : Calib) : ∀ k, c.get k = c.toList[k]?
  | 0 | 1 | 2 | 3 | 4 | 5 | 6 | 7 | 8 | 9 | 10 => rfl
  | _ + 11 => rfl

theorem Calib.toList_set (c : Calib) (v : BitVec 16) : ∀ i, (c.set i v).toList = c.toList.set i v
  | 0 | 1 | 2 | 3 | 4 | 5 | 6 | 7 | 8 | 9 | 10 => rfl
  | _ + 11 => rfl

theorem Calib.get_set_self (c : Calib) {i : Nat} (hi : i ≤ 10) (v : BitVec 16) : (c.set i v).get i = some v := by
  rw [Calib.get_eq_toList, Calib.toList_set, List.getElem?_set_self (by simp [Calib.toList]; omega)]

theorem Calib.get_set_ne (c : Calib) {i k : Nat} (hk : k ≠ i) (v : BitVec 16) : (c.set i v).get k = c.get k := by
  rw [Calib.get_eq_toList, Calib.toList_set, List.getElem?_set_ne hk.symm, ← Calib.get_eq_toList]

theorem Calib.get_ofFun (f : Nat → BitVec 16) {k : Nat} (hk : k ≤ 10) : (Calib.ofFun f).get k = some (f k) := by
  have hl : (Calib.ofFun f).toList = (List.range 11).map f := rfl
  simp [Calib.get_eq_toList, hl, show k < 11 by omega]

/-- The engine port answered right after a commit of registers. -/
theorem EngineFrame.commit {s u : State} (h : EngineFrame s u) (hr : u.out.responses = s.out.responses) (e : Engine)
    (st : Status) (d : Data) : EngineAnswered s ({ u with eng := e }.respondEngine st d) st d :=
  EngineFrame.respondEngine (s := s) (u := { u with eng := e }) ⟨h.pend, h.events, h.ticks, h.actPort⟩ hr st d

/-- Settles O24, from the lookups in the LUT after one entry is replaced. -/
theorem wrcalCompletes : Obligations.WrcalCompletes := by
  intro s sel imm hsel
  refine ⟨_, congrArg Host.Outcome.next (if_pos hsel), (EngineFrame.refl s).commit rfl _ .ok 0, rfl, rfl, rfl,
    Calib.get_set_self _ hsel imm, fun k hk => Calib.get_set_ne _ hk imm⟩

/-! RDREG (R28, R29). -/

/-- What RDREG answers for register `sel`: its pattern, or the next free value where R29 gives a draw. -/
def State.rdregWord (s : State) (sel : Nat) : Reg32 := (s.eng.view sel).getD (Config.freeWord s.out.draws)

theorem exec_rdreg (s : State) {sel : BitVec 5} (hsel : sel.toNat ≤ 28) :
    ∃ t, exec (.rdreg sel) s = .next t ∧ EngineAnswered s t .ok ((s.rdregWord sel.toNat).setWidth 64) ∧
      t.arb = s.arb ∧ t.eng = s.eng ∧ t.out.order = s.out.order := by
  simp only [exec, execRdreg, hsel, if_true, State.rdregWord]
  cases s.eng.view sel.toNat with
  | some v => exact ⟨_, rfl, (EngineFrame.refl s).respondEngine rfl .ok _, rfl, rfl, rfl⟩
  | none =>
    have hdraw : EngineFrame s s.draw := ⟨rfl, rfl, rfl, rfl⟩
    exact ⟨_, rfl, hdraw.respondEngine rfl .ok _, rfl, rfl, rfl⟩

/-- Settles O26: `State.rdregWord` at each of the 29 registers, the ones of R29 with their mark set and clear. -/
theorem rdregCompletes : Obligations.RdregCompletes := by
  intro s sel hsel
  obtain ⟨t, hx, hans, harb, heng, hord⟩ := exec_rdreg s hsel
  refine ⟨t, s.rdregWord sel.toNat, hx, hans, harb, heng, hord, ?_⟩
  and_intros
  iterate 17 rintro rfl; rfl
  · intro ht
    and_intros <;> rintro rfl <;> simp [State.rdregWord, Engine.view, whenWritten, ht]
  · intro hp
    and_intros <;> rintro rfl <;> simp [State.rdregWord, Engine.view, whenWritten, hp]
  · intro hw
    and_intros <;> rintro rfl <;> simp [State.rdregWord, Engine.view, whenWritten, hw]
  · rintro ht (rfl | rfl | rfl) <;> simp [State.rdregWord, Engine.view, whenWritten, ht]
  · rintro hp (rfl | rfl | rfl | rfl | rfl | rfl | rfl) <;> simp [State.rdregWord, Engine.view, whenWritten, hp]
  · rintro ht hp (rfl | rfl) <;> simp [State.rdregWord, Engine.view, whenWritten, ht, hp]

/-! ACQCAL on the bus (R103). -/

/-- The stretch of `n` reads from register `base` on, whose bytes are `f 0`, `f 1`, ... . -/
def readRun (base n : Nat) (f : Nat → Byte) : List (RegAddr × Byte) :=
  (List.range n).map fun k => (regAt (base + k), f k)

@[simp] theorem readRun_length (base n : Nat) (f : Nat → Byte) : (readRun base n f).length = n := by simp [readRun]

theorem regAt_inj {m n : Nat} (hm : m < 256) (hn : n < 256) : regAt m = regAt n ↔ m = n := by
  simp only [regAt, ← BitVec.toNat_inj, BitVec.toNat_ofNat]
  omega

/-- After a run of reads of distinct registers, the byte at each of them is the one read there. -/
theorem byte_after_readRun (j : Job) {base n k : Nat} (f : Nat → Byte) (hn : base + n ≤ 256) (hk : k < n) :
    (j.after (readRun base n f)).byte (regAt (base + k)) = f k := by
  have hlookup : ((readRun base n f).reverse ++ j.reads).lookup (regAt (base + k)) = some (f k) := by
    induction n with
    | zero => omega
    | succ n ih =>
      simp only [readRun, List.range_succ, List.map_append, List.map_singleton, List.reverse_append,
        List.reverse_singleton, List.cons_append, List.lookup_cons]
      by_cases hkn : k = n
      · simp [hkn]
      · have hne : regAt (base + k) ≠ regAt (base + n) := by
          rw [Ne, regAt_inj (by omega) (by omega)]; omega
        rw [beq_false_of_ne hne]
        exact ih (by omega) (by omega)
  exact congrArg (·.getD 0) hlookup

/-- The step of ACQCAL once its slot is in use. -/
theorem exec_acqcal_of_seq {s : State} {j : Job} (hj : s.ports.seq = some j) :
    exec .acqcal s = s.seqStep Config.baroAddr (fun _ => acqcalList) State.setJob
      (fun j s => s.commitCal (Calib.ofFun fun i => j.wordBE (0xAA + 2 * i))) id j := by
  simp [exec, execAcqcal, hj]

theorem acqcalList_getElem? {k : Nat} (hk : k < 22) : acqcalList[k]? = some (.read (regAt (0xAA + k))) := by
  simp [acqcalList, hk]

/-- Off the bus with nothing failed, the step of a bus sequence is its work off the bus. -/
theorem seqStep_finish {dev : DevAddr} {list : Job → List SeqOp} {onRelease finish : Job → State → State}
    {onFail : State → State} {j : Job} {s : State} (hp : j.phase = .offBus) (hf : j.failure = none) :
    s.seqStep dev list onRelease finish onFail j = .next (finish j s) := by
  simp [State.seqStep, hp, hf]

/-- The 22 reads of ACQCAL, from the grant. -/
theorem acqcal_reads {s : State} {j : Job} {f : Nat → Byte} {rest : List Answer} (hg : SeqGranted s Config.baroAddr j)
    (ha : s.out.answers = (List.range 22).map (fun k => Answer.ok (f k)) ++ rest) :
    execTimes .acqcal 22 s = .next (s.afterReads Config.baroAddr j (readRun 0xAA 22 f)) := by
  have h : execTimes .acqcal (readRun 0xAA 22 f).length s = _ :=
    execTimes_reads (e := s.eng) (fun s j _ hj => exec_acqcal_of_seq hj) (readRun 0xAA 22 f) s j rest rfl hg.seq hg.owner
      (.inr ⟨hg.phase, by simp [readRun]⟩) hg.failure (fun k hk j' _ _ _ => ?_) (by simp [ha, readRun])
  · rwa [readRun_length] at h
  · rw [hg.step, Nat.zero_add, acqcalList_getElem? (by simpa using hk)]
    simp [readRun]

/-- ACQCAL between the release and its commit. -/
def State.acqcalOffBus (j : Job) (f : Nat → Byte) (s : State) : State :=
  ((s.afterReads Config.baroAddr j (readRun 0xAA 22 f)).release .seq).setJob
    { j.after (readRun 0xAA 22 f) with phase := .offBus }

theorem acqcal_reads_release {s : State} {j : Job} {f : Nat → Byte} {rest : List Answer}
    (hg : SeqGranted s Config.baroAddr j)
    (ha : s.out.answers = (List.range 22).map (fun k => Answer.ok (f k)) ++ rest) :
    execTimes .acqcal 23 s = .next (s.acqcalOffBus j f) := by
  rw [execTimes_add (acqcal_reads hg ha) 1]
  refine execTimes_one ?_
  rw [exec_acqcal_of_seq rfl]
  exact seqStep_release hg.owner (.inr rfl) hg.failure (by simp [Job.after, hg.step, acqcalList])

theorem exec_acqcalOffBus {s : State} {j : Job} (f : Nat → Byte) (hf : j.failure = none) :
    exec .acqcal (s.acqcalOffBus j f) =
      .next ((s.acqcalOffBus j f).commitCal (Calib.ofFun fun i => (j.after (readRun 0xAA 22 f)).wordBE (0xAA + 2 * i))) := by
  rw [exec_acqcal_of_seq (j := { j.after (readRun 0xAA 22 f) with phase := .offBus }) rfl]
  exact seqStep_finish rfl hf

theorem acqcalOffBus_frame (j : Job) (f : Nat → Byte) (s : State) : EngineFrame s (s.acqcalOffBus j f) :=
  ⟨rfl, rfl, rfl, rfl⟩

/-- Settles O34: the reads, the release, and the commit of the words the reads gave. -/
theorem acqcalBusCompletes : Obligations.AcqcalBusCompletes := by
  intro s j f rest hg ha
  refine ⟨s.acqcalOffBus j f, _, acqcal_reads_release hg ha, rfl, exec_acqcalOffBus f hg.failure,
    (acqcalOffBus_frame j f s).commit rfl _ .ok 0, rfl, rfl, fun k hk => ?_, ?_⟩
  · have hbyte (i : Nat) (hi : i < 22) := byte_after_readRun j f (base := 0xAA) (by omega) hi
    refine (Calib.get_ofFun _ hk).trans (congrArg some ?_)
    exact congrArg₂ word16 (hbyte (2 * k) (by omega)) (hbyte (2 * k + 1) (by omega))
  · exact congrArg (fun l => BusEvent.release .seq :: (l.reverse ++ s.out.order)) List.map_map

/-! The ports (R15, R72). -/

theorem step_issue {s : State} {p : Port} {w : Word} (h : s.nextEvent = .issue p w) :
    step s = .next (s.dropEvent.accept p w) := by
  simp [step, perform, h]

@[simp] theorem State.slot_dropEvent (s : State) (n : Nat) : s.dropEvent.slot n = s.slot n := slot_congr (by simp) n

theorem accept_bus_taken {s : State} {n : Nat} (hn : n < Config.nPorts) (hs : s.slot n = none) (w : Word) :
    s.accept (.bus n) w = { s with ports.pend := insertKey Slot.port ⟨n, w, .issued⟩ s.ports.pend } :=
  if_pos ⟨hn, hs⟩

theorem accept_bus_refused {s : State} {n : Nat} (h : Config.nPorts ≤ n ∨ s.slot n ≠ none) (w : Word) :
    s.accept (.bus n) w = s :=
  if_neg fun ⟨hn, hs⟩ => h.elim (fun hle => absurd hn (by omega)) (fun hne => hne hs)

theorem slot_accept_self {s : State} {n : Nat} (hn : n < Config.nPorts) (hs : s.slot n = none) (w : Word) :
    (s.accept (.bus n) w).slot n = some ⟨n, w, .issued⟩ := by
  rw [accept_bus_taken hn hs]
  exact findKey_insertKey_self (key := Slot.port) ⟨n, w, .issued⟩ s.ports.pend

theorem slot_accept_ne (s : State) {m n : Nat} (hm : m ≠ n) (w : Word) : (s.accept (.bus n) w).slot m = s.slot m := by
  simp only [State.accept]
  split
  · exact findKey_insertKey_ne (key := Slot.port) (x := ⟨n, w, .issued⟩) hm.symm _
  · rfl

theorem accept_bus_pendEng (s : State) (n : Nat) (w : Word) :
    (s.accept (.bus n) w).ports.pendEng = s.ports.pendEng := by
  simp only [State.accept]
  split <;> rfl

theorem accept_engine_pend (s : State) (w : Word) : (s.accept .engine w).ports.pend = s.ports.pend := by
  simp only [State.accept]
  split <;> rfl

/-- Settles O9, by what each kind of port does with an offered word. -/
theorem portAcceptsWhenFree : Obligations.PortAcceptsWhenFree := by
  constructor
  · intro s n w h
    refine ⟨_, step_issue h, by simp, by simp, by simp, by simp, ?_, by simp, by simp, fun m hm => ?_,
      fun hn hs => slot_accept_self hn (by simpa using hs) w, fun hr => ?_⟩
    · simp [accept_bus_pendEng]
    · simp [slot_accept_ne _ hm]
    · rw [accept_bus_refused (by simpa using hr), State.slot_dropEvent]
  · intro s w h
    refine ⟨_, step_issue h, by simp, by simp, by simp, by simp, ?_, by simp, by simp, fun hs => ?_, fun hs => ?_⟩
    · simp [accept_engine_pend]
    · simp [State.accept, hs]
    · simp [State.accept, hs]

/-! The writers of the engine's registers (R18 to R27). -/

/-- What a command may commit to the registers `e` with its response: the new registers, the status and DATA. -/
inductive Commit (e : Engine) : Instr → Engine → Status → Data → Prop where
  | acqcal (cal : Calib) : Commit e .acqcal { e with cal := cal, stage := .idle } .ok 0
  | wrcal (sel : BitVec 5) (imm : BitVec 16) :
    Commit e (.wrcal sel imm) { e with cal := e.cal.set sel.toNat imm, stage := .idle } .ok 0
  | setoss (mode : BitVec 2) : Commit e (.setoss mode) { e with oss := mode } .ok 0
  | setsrc (src : BitVec 1) : Commit e (.setsrc src) { e with src := src, stage := .idle } .ok 0
  | injut (imm : BitVec 16) : Commit e (.injut imm) { e with injUt := imm } .ok 0
  | injup (imm : BitVec 19) : Commit e (.injup imm) { e with injUp := imm } .ok 0
  | acccfg (data : Byte) : Commit e (.acccfg data) { e with accCtrl := data } .ok 0
  | rdtemp (ut : BitVec 16) (r : TempRegs) (hr : temperature e.cal ut = some r) :
    Commit e .rdtemp
      { e with ut := ut, x1 := r.x1, x2 := r.x2, b5 := r.b5, t := r.t, stage := .temperatureRead, tempWritten := true }
      .ok (zextData r.t)
  | rdpres (up : BitVec 19) (r : PresRegs) :
    Commit e .rdpres
      { e with
        up := up, b6 := r.b6, b3 := r.b3, b4 := r.b4, b7 := r.b7, x1 := r.x1, x2 := r.x2, x3 := r.x3, p := r.p,
        stage := .idle, presWritten := true }
      .ok (zextData r.p)
  /-- A failed reading. -/
  | endCycle (i : Instr) (hi : i = .rdtemp ∨ i = .rdpres) (st : Status) (d : Data) :
    Commit e i { e with stage := .idle } st d

/-- A step of command `i` writes no register, or is the command's commit with its response. -/
inductive RegWrite (i : Instr) (s t : State) : Prop where
  | none (h : t.eng = s.eng)
  | commit (e : Engine) (st : Status) (d : Data) (hc : Commit s.eng i e st d)
    (ht : t = { s with eng := e }.respondEngine st d)

theorem acquireSeq_eng (dev : DevAddr) (j : Job) (s : State) : (s.acquireSeq dev j).eng = s.eng := by
  rcases acquireSeq_cases dev j s with ⟨-, he⟩ | ⟨-, he⟩ <;> rw [he] <;> rfl

theorem seqOp_eng (dev : DevAddr) (j : Job) (op : SeqOp) (s : State) : (s.seqOp dev j op).eng = s.eng := by
  obtain ⟨j', -, -, -, ⟨p, -, -, he⟩ | he⟩ := seqOp_cases dev j op s <;> rw [he] <;> rfl

theorem seqOnBus_eng {onRelease : Job → State → State} (hrel : ∀ j u, (onRelease j u).eng = u.eng) (dev : DevAddr)
    (list : Job → List SeqOp) (j : Job) (s : State) : (s.seqOnBus dev list onRelease j).eng = s.eng := by
  rcases seqOnBus_cases dev list onRelease j s with ⟨f, -, he⟩ | ⟨op, -, -, he⟩ | ⟨-, -, he⟩ <;> rw [he]
  · rfl
  · exact seqOp_eng dev j op s
  · rw [hrel, State.release_eng]

/-- A step of a begun bus sequence writes registers only off the bus: by `finish`, or by `onFail` with the failure. -/
theorem RegWrite.seqStep {i : Instr} {s t : State} {j : Job} {dev : DevAddr} {list : Job → List SeqOp}
    {onRelease finish : Job → State → State} {onFail : State → State}
    (hx : s.seqStep dev list onRelease finish onFail j = .next t) (hrel : ∀ j u, (onRelease j u).eng = u.eng)
    (hfin : RegWrite i s (finish j s)) (hfail : ∀ st d, RegWrite i s ((onFail s).respondEngine st d)) :
    RegWrite i s t := by
  rcases seqStep_cases hx with ⟨-, -, rfl⟩ | ⟨-, -, rfl⟩ | ⟨st, d, -, -, -, rfl⟩ | ⟨-, -, -, rfl⟩
  · exact .none (seqOnBus_eng hrel ..)
  · exact .none rfl
  · exact hfail st d
  · exact hfin

theorem RegWrite.endCycle {i : Instr} (hi : i = .rdtemp ∨ i = .rdpres) (s : State) (st : Status) (d : Data) :
    RegWrite i s (s.endCycle.respondEngine st d) :=
  .commit _ st d (.endCycle i hi st d) rfl

theorem RegWrite.finishTemp (s : State) (ut : BitVec 16) : RegWrite .rdtemp s (s.finishTemp ut) := by
  unfold State.finishTemp
  split
  · exact .endCycle (.inl rfl) s _ _
  · next r hr => exact .commit _ _ _ (.rdtemp ut r hr) rfl

theorem RegWrite.finishPres (s : State) (j : Job) : RegWrite .rdpres s (s.finishPres j) := by
  unfold State.finishPres
  split
  · next r _ => exact .commit _ _ _ (.rdpres j.up r) rfl
  · split
    · exact .none rfl
    · unfold State.computePres
      split
      · exact .endCycle (.inr rfl) s _ _
      · exact .none rfl

/-- Every step of every command writes no register, or is the command's commit. -/
theorem exec_regWrite {i : Instr} {s t : State} (hx : exec i s = .next t) : RegWrite i s t := by
  have bus (hc : i.portClass = .bus) : RegWrite i s t := .none (exec_bus hc hx).portFrame.eng
  cases i with
  | busBegin | busEnd | rdb | rdw | wrb | ldcfg | stcfg => exact bus rfl
  | setoss mode => cases hx; exact .commit _ _ _ (.setoss mode) rfl
  | setsrc src => cases hx; exact .commit _ _ _ (.setsrc src) rfl
  | injut imm => cases hx; exact .commit _ _ _ (.injut imm) rfl
  | injup imm => cases hx; exact .commit _ _ _ (.injup imm) rfl
  | wrcal sel imm =>
    cases hx
    split
    · exact .commit _ _ _ (.wrcal sel imm) rfl
    · exact .none rfl
  | rdreg sel =>
    cases hx
    refine .none ?_
    split
    · split <;> rfl
    · rfl
  | acqcal =>
    simp only [exec, execAcqcal] at hx
    split at hx
    · cases hx
      split
      · exact .commit _ _ _ (.acqcal calDefault) rfl
      · exact .none (acquireSeq_eng ..)
    · exact .seqStep hx (fun _ _ => rfl) (.commit _ _ _ (.acqcal _) rfl) fun _ _ => .none rfl
  | rdtemp =>
    simp only [exec, execRdtemp] at hx
    split at hx
    · cases hx
      split
      · exact .finishTemp s _
      · exact .none (acquireSeq_eng ..)
    · exact .seqStep hx (fun _ _ => rfl) (.finishTemp s _) (RegWrite.endCycle (.inl rfl) s)
  | rdpres =>
    simp only [exec, execRdpres] at hx
    split at hx
    · cases hx
      refine .none ?_
      unfold State.startPres
      split
      · split
        · rfl
        · exact acquireSeq_eng ..
      · rfl
    · exact .seqStep hx (fun _ _ => rfl) (.finishPres s _) (RegWrite.endCycle (.inr rfl) s)
  | acccfg data =>
    simp only [exec, execAcccfg] at hx
    split at hx
    · cases hx; exact .none (acquireSeq_eng ..)
    · exact .seqStep hx (fun _ _ => rfl) (.commit _ _ _ (.acccfg data) rfl) fun _ _ => .none rfl
  | magcfg sel data =>
    simp only [exec, execMagcfg] at hx
    split at hx
    · cases hx
      refine .none ?_
      split
      · exact acquireSeq_eng ..
      · rfl
    · exact .seqStep hx (fun _ _ => rfl) (.none rfl) fun _ _ => .none rfl
  | rdacc =>
    simp only [exec, execRdacc] at hx
    split at hx
    · cases hx
      refine .none ?_
      split
      · rfl
      · exact acquireSeq_eng ..
    · exact .seqStep hx (fun _ _ => rfl) (.none rfl) fun _ _ => .none rfl
  | rdmag =>
    simp only [exec, execRdmag] at hx
    split at hx
    · cases hx; exact .none (acquireSeq_eng ..)
    · exact .seqStep hx (fun _ _ => rfl) (.none rfl) fun _ _ => .none rfl

/-- Settles O48: the clauses hold of each commit. -/
theorem registerFrame : Obligations.RegisterFrame := by
  intro i s t hx
  cases exec_regWrite hx with
  | none h => simp [h]
  | commit e st d hc ht =>
    subst ht
    cases hc with
    | endCycle _ hi _ _ => rcases hi with rfl | rfl <;> simp
    | _ => simp

/-- What a step of the machine can do to the engine's registers. -/
theorem step_regWrite {s t : State} (hx : step s = .next t) :
    t.eng = s.eng ∨ (s.nextEvent = .reset ∧ t.eng = .reset) ∨
    (s.nextEvent = .advance .seq ∧ ∃ i, s.ports.engineCommand i ∧ RegWrite i s.dropEvent t) := by
  rcases step_cases hx with ⟨p, w, -, rfl⟩ | ⟨n, -, hx⟩ | ⟨he, hx⟩ | ⟨c, -, rfl⟩ | ⟨he, rfl⟩
  · exact .inl (by simp)
  · rcases advancePort_cases hx with ⟨-, rfl⟩ | ⟨sl, e, -, -, rfl⟩ | ⟨sl, i, -, hd, hx⟩
    · exact .inl (by simp)
    · exact .inl (by simp)
    · exact .inl (by simpa using (exec_bus (decode_class hd) hx).portFrame.eng)
  · rcases advanceSeq_cases hx with ⟨-, rfl⟩ | ⟨w, e, -, -, rfl⟩ | ⟨w, i, hw, hd, hx⟩
    · exact .inl (by simp)
    · exact .inl (by simp)
    · exact .inr (.inr ⟨he, i, ⟨w, by simpa using hw, hd⟩, exec_regWrite hx⟩)
  · exact .inl (by simp)
  · exact .inr (.inl ⟨he, rfl⟩)

/-- Settles O59: of the commits, ACQCAL's and WRCAL's alone write the LUT. -/
theorem lutWriteEndsCycle : Obligations.LutWriteEndsCycle := by
  intro s t hx hne
  rcases step_regWrite hx with h | ⟨he, h⟩ | ⟨he, i, hi, hw⟩
  · exact absurd (by rw [h]) hne
  · exact ⟨by rw [h]; rfl, .inl he⟩
  · cases hw with
    | none h => exact absurd (by simp [h]) hne
    | commit e st d hc ht =>
      subst ht
      cases hc with
      | acqcal cal => exact ⟨rfl, .inr ⟨he, _, hi, .inl rfl⟩⟩
      | wrcal sel imm => exact ⟨rfl, .inr ⟨he, _, hi, .inr ⟨sel, imm, rfl⟩⟩⟩
      | _ => exact absurd (by simp) hne

/-- Settles O60: of the commits, RDTEMP's alone sets STAGE to TemperatureRead. -/
theorem b5ValidOnlyAfterRdtemp : Obligations.B5ValidOnlyAfterRdtemp := by
  intro s t hx ht hs
  rcases step_regWrite hx with h | ⟨-, h⟩ | ⟨he, i, hi, hw⟩
  · exact absurd (h ▸ ht) hs
  · simp [h, Engine.reset] at ht
  · cases hw with
    | none h => exact absurd (by simpa [h] using ht) hs
    | commit e st d hc ht' =>
      subst ht'
      cases hc with
      | rdtemp ut r hr =>
        exact ⟨he, hi, ut, r, by simpa using hr, rfl, rfl, (EngineFrame.refl s.dropEvent).commit rfl _ .ok _⟩
      | setoss | injut | injup | acccfg => exact absurd (by simpa using ht) hs
      | acqcal | wrcal | setsrc | rdpres | endCycle => cases ht

/-! The writers of OWNER and LAST (R11, R13). -/

/-- What a step of requester `c`'s command can do to OWNER and LAST: nothing; as owner, the retarget, which sets LAST to
the active address; or as owner, the release, which keeps LAST. -/
inductive ArbiterMove (c : Requester) (a b : Arbiter) : Prop where
  | keep (ho : b.owner = a.owner) (hv : b.lastV = a.lastV) (hl : b.lastAddr = a.lastAddr)
  | retarget (ha : a.owner = some c) (ho : b.owner = some c) (hv : b.lastV = true) (hl : b.lastAddr = b.activeAddr)
  | release (ha : a.owner = some c) (ho : b.owner = none) (hv : b.lastV = a.lastV) (hl : b.lastAddr = a.lastAddr)

theorem ArbiterMove.of_eq {c : Requester} {a b : Arbiter} (h : b = a) : ArbiterMove c a b := by
  subst h
  exact .keep rfl rfl rfl

theorem BusEffect.arbiterMove {i : Instr} {s t : State} (h : BusEffect i s t) (hc : Consistent s)
    (hs : s.slot s.out.actPort ≠ none) : ArbiterMove s.self s.arb t.arb := by
  cases h with
  | stay => exact .of_eq rfl
  | respond st d => exact .of_eq rfl
  | retarget a d _ ho => exact .retarget ho ho rfl rfl
  | release st d _ hd =>
    obtain ⟨sl, hsl⟩ := Option.ne_none_iff_exists'.1 hs
    exact .release (hd.elim id (hc.done hsl)) rfl rfl rfl
  | wait kind _ => exact .keep (by simp) (by simp) (by simp)
  | prim p ph _ _ => exact .of_eq (by simp)
  | retargetPrim p ph _ _ ho => exact .retarget ho (by simpa using ho) (by simp) (by simp)

theorem EngineEffect.arbiterMove {i : Instr} {s t : State} (h : EngineEffect i s t) :
    ArbiterMove .seq s.arb t.arb := by
  cases h with
  | stay | respond | offBus | prim => exact .of_eq rfl
  | release j _ ho => exact .release ho rfl rfl rfl
  | retarget j _ ho => exact .retarget ho ho rfl rfl
  | wait j _ _ => exact .keep rfl rfl rfl

/-- What a step of the machine can do to OWNER and LAST. -/
theorem step_arbiter {s t : State} (hc : Consistent s) (hx : step s = .next t) :
    (∃ c, s.nextEvent = .advance c ∧ ArbiterMove c s.arb t.arb) ∨
    (∃ c a, s.nextEvent = .grant c ∧ s.arb.owner = none ∧ t.arb = (s.takeBus c a).arb) ∨
    (s.nextEvent = .reset ∧ t.arb = .reset) ∨
    (s.nextEvent ≠ .reset ∧ t.arb = s.arb) := by
  rcases step_effects hx with ⟨n, i, he, hs, h⟩ | ⟨i, he, -, h⟩ | ⟨c, kind, he, ho, -, rfl⟩ | ⟨p, w, he, rfl⟩ | ⟨he, rfl⟩ |
    ⟨he, rfl⟩
  · have hs' : (s.dropEvent.actAs n).slot n ≠ none := by
      rwa [slot_congr (s := s) (by simp)]
    exact .inl ⟨.port n, he, by simpa [State.self] using h.arbiterMove (hc.dropEvent.actAs n) hs'⟩
  · exact .inl ⟨.seq, he, by simpa using h.arbiterMove⟩
  · exact .inr (.inl ⟨c, s.grantAddr kind, he, ho, by simp [State.takeBus]⟩)
  · exact .inr (.inr (.inr ⟨by simp [he], by simp⟩))
  · exact .inr (.inr (.inl ⟨he, rfl⟩))
  · exact .inr (.inr (.inr ⟨he, by simp⟩))

/-- Settles O56: of the moves, the grant and the owner's release alone change OWNER. -/
theorem ownerWriters : Obligations.OwnerWriters := by
  intro s t hc hx hne
  rcases step_arbiter hc hx with ⟨c, he, hm⟩ | ⟨c, a, he, ho, harb⟩ | ⟨he, harb⟩ | ⟨-, harb⟩
  · cases hm with
    | keep ho _ _ => exact absurd ho hne
    | retarget ha ho _ _ => exact absurd (ho.trans ha.symm) hne
    | release ha ho _ _ => exact .inr (.inl ⟨c, he, ha, ho⟩)
  · exact .inl ⟨c, he, ho, by rw [harb, State.takeBus_arb_owner]⟩
  · exact .inr (.inr ⟨he, by rw [harb]; rfl⟩)
  · exact absurd (by rw [harb]) hne

/-- A step keeps LAST, or sets it to the active address of the owner it granted or retargeted, or is reset. -/
theorem step_last {s t : State} (hc : Consistent s) (hx : step s = .next t) :
    (s.nextEvent ≠ .reset ∧ t.arb.lastV = s.arb.lastV ∧ t.arb.lastAddr = s.arb.lastAddr) ∨
    (s.nextEvent ≠ .reset ∧ t.arb.lastV = true ∧ t.arb.lastAddr = t.arb.activeAddr ∧
      ∃ c, t.arb.owner = some c ∧ (s.nextEvent = .grant c ∨ (s.nextEvent = .advance c ∧ s.arb.owner = some c))) ∨
    (s.nextEvent = .reset ∧ t.arb = .reset) := by
  rcases step_arbiter hc hx with ⟨c, he, hm⟩ | ⟨c, a, he, -, harb⟩ | hreset | ⟨hr, harb⟩
  · have hr : s.nextEvent ≠ .reset := by simp [he]
    cases hm with
    | keep _ hv hl | release _ _ hv hl => exact .inl ⟨hr, hv, hl⟩
    | retarget ha ho hv hl => exact .inr (.inl ⟨hr, hv, hl, c, ho, .inr ⟨he, ha⟩⟩)
  · exact .inr (.inl ⟨by simp [he], by simp [harb], by simp [harb], c, by simp [harb], .inl he⟩)
  · exact .inr (.inr hreset)
  · exact .inl ⟨hr, by rw [harb], by rw [harb]⟩

/-- Settles O58, by what the step does to LAST. -/
theorem lastWriters : Obligations.LastWriters := by
  intro s t hc hx
  rcases step_last hc hx with ⟨hr, hv, hl⟩ | ⟨hr, hv, hset⟩ | ⟨he, harb⟩
  · exact ⟨fun _ h => hv.trans h, fun _ h => absurd h (by simp [hv, hl]), fun h => absurd h hr⟩
  · exact ⟨fun _ _ => hv, fun _ _ => ⟨hv, hset⟩, fun h => absurd h hr⟩
  · exact ⟨fun h => absurd he h, fun h => absurd he h, fun _ => by rw [harb]; exact ⟨rfl, rfl⟩⟩

/-! The invariant at reset, and what it says of STAGE (R12, R21). -/

/-- Settles O50: after reset the bus is free, every slot is empty and nothing is recorded. -/
theorem resetMeetsInvariant : Obligations.ResetMeetsInvariant where
  left :=
    { active := rfl
      activeAddr := fun _ => rfl
      last := fun h => absurd rfl h
      waitq := List.Pairwise.nil
      waitAuto := fun _ h => nomatch h
      ownerLeft := fun _ h => nomatch h
      pend := List.Pairwise.nil
      ports := fun _ h => nomatch h
      slots := fun _ _ h => nomatch h
      waiters := fun _ h => absurd rfl h
      seq := ⟨nofun, rfl⟩
      busy := rfl
      stage := rfl
      walk := nofun
      b5 := nofun
      order := rfl }
  right :=
    { answered := fun _ h => nomatch h
      inSlot := fun _ h => nomatch h
      inSeq := nofun }

theorem Stage.transient_eq_false_iff (st : Stage) : st.transient = false ↔ st.code = 0 ∨ st.code = 2 := by
  cases st <;> decide

/-- SEQ's slot is in use only by a command that has a bus sequence. -/
theorem Consistent.seq_eq_none {s : State} (h : Consistent s) {i : Instr} (hi : s.ports.engineCommand i)
    (hu : usesSeq i = false) : s.ports.seq = none := by
  cases hj : s.ports.seq with
  | none => rfl
  | some j =>
    have hq := h.seq
    simp only [State.seqAgrees, hj] at hq
    obtain ⟨i', hi', hu', -⟩ := hq
    obtain rfl := engineCommand_unique hi hi'
    simp [hu] at hu'

/-- Where the reading cycle is off STAGE, the walk of SEQ's slot says so. -/
theorem Consistent.walk_of_transient {s : State} (h : Consistent s) (ht : s.stageNow.transient = true) :
    ∃ j, s.ports.seq = some j ∧ j.walk ≠ none := by
  by_contra hn
  have hw : s.ports.seq.bind Job.walk = none := by
    cases hj : s.ports.seq with
    | none => rfl
    | some j => exact not_not.1 fun hw => hn ⟨j, hj, hw⟩
  simp [State.stageNow, hw, h.stage] at ht

/-- Settles O57, from the clauses `stage`, `seq` and `walk` of the invariant. -/
theorem stageBetweenCommands : Obligations.StageBetweenCommands := by
  have hidle (s : State) (h : Consistent s) (hn : s.ports.seq = none) : s.stageNow.code = 0 ∨ s.stageNow.code = 2 := by
    rw [State.stageNow_idle hn]
    exact (Stage.transient_eq_false_iff _).1 h.stage
  refine ⟨fun s h => (Stage.transient_eq_false_iff _).1 h.stage, hidle,
    fun s i h hi hu => hidle s h (h.seq_eq_none hi hu), fun s h ht => ?_⟩
  obtain ⟨j, hj, hw⟩ := h.walk_of_transient ht
  exact ⟨by simp [hj], h.walk j hj hw⟩

end Sys2Proof.Machine
end

section
/-! PROOFS, family 20_memory.md. The invariant through every step; the entries a step adds to the transport order (R48,
R49, R53, R78); the frame of the engine-family commands (R41, R42, R184); and RDW (R43, R44, R91). -/

namespace Sys2Proof.Machine

/-! The invariant through every move. -/

/-- SEQ's slot is in use only by a command, so not while the word on the engine port is ILLEGAL. -/
theorem Consistent.seq_eq_none_of_illegal {s : State} (h : Consistent s) {w : Word} {e : Illegal}
    (hw : s.ports.pendEng = some w) (he : decode .engine w = .error e) : s.ports.seq = none := by
  cases hj : s.ports.seq with
  | none => rfl
  | some j =>
    have hq := h.seq
    simp only [State.seqAgrees, hj] at hq
    obtain ⟨i, ⟨w', hw', hd⟩, -⟩ := hq
    obtain rfl := Option.some.inj (hw.symm.trans hw')
    simp [he] at hd

/-- A port whose word is ILLEGAL is not at its await. -/
theorem Consistent.phase_ne_awaiting_of_illegal {s : State} (h : Consistent s) {n : Nat} {sl : Slot} {e : Illegal}
    (hs : s.slot n = some sl) (he : decode .bus sl.word = .error e) : sl.phase ≠ .awaiting := by
  intro hp
  have ha := h.slots n sl hs
  simp only [State.slotAgrees, hp] at ha
  obtain ⟨i, hd, -⟩ := ha
  simp [he] at hd

theorem Consistent.advancePort {s t : State} (h : Consistent s) {n : Nat} (hx : advancePort n s = .next t) :
    Consistent t := by
  rcases advancePort_cases hx with ⟨-, rfl⟩ | ⟨sl, e, hs, he, rfl⟩ | ⟨sl, i, hs, hd, hx⟩
  · exact h
  · refine (h.actAs n).respondPort ((h.actAs n).notWaiting fun sl' hs' => ?_) _ _
    obtain rfl := Option.some.inj (hs.symm.trans hs')
    exact h.phase_ne_awaiting_of_illegal hs he
  · exact (h.actAs n).execBus hs hd (decode_class hd) hx

theorem Consistent.advanceSeq {s t : State} (h : Consistent s) (hx : advanceSeq s = .next t) : Consistent t := by
  rcases advanceSeq_cases hx with ⟨-, rfl⟩ | ⟨w, e, hw, he, rfl⟩ | ⟨w, i, hw, hd, hx⟩
  · exact h
  · obtain ⟨howner, hwait⟩ := h.seqIdle (h.seq_eq_none_of_illegal hw he)
    exact h.respondEngine howner hwait _ _
  · exact h.execEngine ⟨w, hw, hd⟩ (decode_class hd) hx

/-- Settles O51: each kind of move keeps the invariant. -/
theorem stepKeepsInvariant : Obligations.StepKeepsInvariant := by
  intro s t h hx
  rcases step_cases hx with ⟨p, w, -, rfl⟩ | ⟨n, -, hx⟩ | ⟨-, hx⟩ | ⟨c, -, rfl⟩ | ⟨-, rfl⟩
  · exact h.dropEvent.accept p w
  · exact h.dropEvent.advancePort hx
  · exact h.dropEvent.advanceSeq hx
  · exact h.dropEvent.grant c
  · exact h.dropEvent.resetMachine

/-! The entries a step adds to the transport order. -/

/-- What one step of engine-family command `i` may add to the transport order: nothing, SEQ's retarget to the command's
device, SEQ's release, or the primitive that is next in the command's list. -/
def State.engineEntries (s : State) (i : Instr) (l : List BusEvent) : Prop :=
  l = [] ∨ l = [.retarget .seq (seqDev i)] ∨ l = [.release .seq] ∨
  ∃ p, s.seqPrimNext i p ∧ l = [.prim .seq p s.nextAnswer]

theorem EngineEffect.order {i : Instr} {s t : State} (h : EngineEffect i s t) :
    ∃ l, t.out.order = l ++ s.out.order ∧ s.engineEntries i l ∧ (usesSeq i = false → l = []) := by
  cases h with
  | stay | respond | offBus | wait => exact ⟨[], rfl, .inl rfl, fun _ => rfl⟩
  | retarget j hu _ => exact ⟨_, rfl, .inr (.inl rfl), by simp [hu]⟩
  | release j hu _ => exact ⟨_, rfl, .inr (.inr (.inl rfl)), by simp [hu]⟩
  | prim p j hu hp _ => exact ⟨_, rfl, .inr (.inr (.inr ⟨p, hp, rfl⟩)), by simp [hu]⟩

/-- A primitive among the added entries is the one that is next in the command's list. -/
theorem State.engineEntries.seqPrimNext {s : State} {i : Instr} {l : List BusEvent} (h : s.engineEntries i l)
    {c : Requester} {p : Prim} {r : Answer} (hm : BusEvent.prim c p r ∈ l) : s.seqPrimNext i p := by
  rcases h with rfl | rfl | rfl | ⟨q, hq, rfl⟩
  · simp at hm
  · simp at hm
  · simp at hm
  · obtain ⟨-, rfl, -⟩ : c = .seq ∧ p = q ∧ r = s.nextAnswer := by simpa using hm
    exact hq

@[simp] theorem State.nextAnswer_dropEvent (s : State) : s.dropEvent.nextAnswer = s.nextAnswer := by
  simp [State.nextAnswer]

@[simp] theorem State.nextAnswer_actAs (n : Nat) (s : State) : (s.actAs n).nextAnswer = s.nextAnswer := rfl

/-- The entries `l`, newest first, hold at most one primitive: of `c`, answered `r`, alone or right after `c`'s retarget. -/
def atMostOnePrim (c : Requester) (r : Answer) (l : List BusEvent) : Prop :=
  (∀ c' p r', BusEvent.prim c' p r' ∉ l) ∨ ∃ p, l = [.prim c p r] ∨ ∃ a, l = [.prim c p r, .retarget c a]

theorem State.busEntries.atMostOnePrim {s : State} {i : Instr} {l : List BusEvent} (h : s.busEntries i l) :
    atMostOnePrim s.self s.nextAnswer l := by
  rcases h with rfl | ⟨a, -, rfl⟩ | ⟨-, rfl⟩ | ⟨p, -, hl⟩
  · exact .inl (by simp)
  · exact .inl (by simp)
  · exact .inl (by simp)
  · exact .inr ⟨p, hl.imp id fun ⟨_, hl⟩ => ⟨_, hl⟩⟩

theorem State.engineEntries.atMostOnePrim {s : State} {i : Instr} {l : List BusEvent} (h : s.engineEntries i l) :
    atMostOnePrim .seq s.nextAnswer l := by
  rcases h with rfl | rfl | rfl | ⟨p, -, hl⟩
  · exact .inl (by simp)
  · exact .inl (by simp)
  · exact .inl (by simp)
  · exact .inr ⟨p, .inl hl⟩

/-- A step only adds to the transport order, and a primitive among what it adds is of the requester that moves. -/
theorem step_order {s t : State} (hx : step s = .next t) :
    ∃ l, t.out.order = l ++ s.out.order ∧
      ((∀ c p r, BusEvent.prim c p r ∉ l) ∨ ∃ c, s.nextEvent = .advance c ∧ atMostOnePrim c s.nextAnswer l) := by
  rcases step_effects hx with ⟨n, i, he, -, h⟩ | ⟨i, he, -, h⟩ | ⟨c, kind, -, -, -, rfl⟩ | ⟨p, w, -, rfl⟩ | ⟨-, rfl⟩ |
    ⟨-, rfl⟩
  · obtain ⟨l, hl, hadd⟩ := h.order
    exact ⟨l, by simpa using hl, .inr ⟨.port n, he, by simpa [State.self] using hadd.atMostOnePrim⟩⟩
  · obtain ⟨l, hl, hadd, -⟩ := h.order
    exact ⟨l, by simpa using hl, .inr ⟨.seq, he, by simpa using hadd.atMostOnePrim⟩⟩
  · exact ⟨[.grant c (s.grantAddr kind)], by simp, .inl (by simp)⟩
  · exact ⟨[], by simp, .inl (by simp)⟩
  · exact ⟨[.reset], by simp, .inl (by simp)⟩
  · exact ⟨[], by simp, .inl (by simp)⟩

/-! What mutual exclusion on the transport order says of its newest entry. -/

/-- A primitive is of the holder, at its address, and changes neither. -/
theorem BusEvent.after_prim {c : Requester} {p : Prim} {r : Answer} {held held' : Option (Requester × DevAddr)}
    (h : (BusEvent.prim c p r).after held = some held') : held = some (c, p.dev) ∧ held' = some (c, p.dev) := by
  rcases held with - | ⟨o, a⟩
  · simp [BusEvent.after] at h
  · simp only [BusEvent.after, Option.ite_none_right_eq_some, Option.some.injEq] at h
    obtain ⟨⟨rfl, rfl⟩, rfl⟩ := h
    exact ⟨rfl, rfl⟩

/-- A retarget is of the holder. -/
theorem BusEvent.after_retarget {c : Requester} {a : DevAddr} {held held' : Option (Requester × DevAddr)}
    (h : (BusEvent.retarget c a).after held = some held') : ∃ a₀, held = some (c, a₀) := by
  rcases held with - | ⟨o, a₀⟩
  · simp [BusEvent.after] at h
  · simp only [BusEvent.after, Option.ite_none_right_eq_some] at h
    obtain ⟨rfl, -⟩ := h
    exact ⟨a₀, rfl⟩

theorem replay_cons {e : BusEvent} {older : List BusEvent} {held : Option (Requester × DevAddr)}
    (h : replay (e :: older) = some held) : ∃ held₀, replay older = some held₀ ∧ e.after held₀ = some held :=
  Option.bind_eq_some_iff.1 h

theorem Arbiter.held_eq_some {a : Arbiter} {c : Requester} {dev : DevAddr} :
    a.held = some (c, dev) ↔ a.owner = some c ∧ a.activeAddr = dev := by
  simp [Arbiter.held]

/-- Where a state of the invariant has one primitive more than another, its requester owns the bus in both. -/
theorem owner_of_prim_added {s t : State} (hs : Consistent s) (ht : Consistent t) {c : Requester} {p : Prim} {r : Answer}
    {l : List BusEvent} (hl : l = [.prim c p r] ∨ ∃ a, l = [.prim c p r, .retarget c a])
    (hord : t.out.order = l ++ s.out.order) :
    s.arb.owner = some c ∧ t.arb.owner = some c ∧ t.arb.activeAddr = p.dev := by
  have hafter := ht.order
  rw [hord] at hafter
  rcases hl with rfl | ⟨a, rfl⟩
  · obtain ⟨held, hr, hp⟩ := replay_cons hafter
    obtain rfl := Option.some.inj (hs.order.symm.trans hr)
    obtain ⟨hbefore, hnow⟩ := BusEvent.after_prim hp
    exact ⟨(Arbiter.held_eq_some.1 hbefore).1, Arbiter.held_eq_some.1 hnow⟩
  · obtain ⟨held, hr, hp⟩ := replay_cons hafter
    obtain ⟨held₀, hr₀, hq⟩ := replay_cons hr
    obtain rfl := Option.some.inj (hs.order.symm.trans hr₀)
    obtain ⟨a₀, hbefore⟩ := BusEvent.after_retarget hq
    exact ⟨(Arbiter.held_eq_some.1 hbefore).1, Arbiter.held_eq_some.1 (BusEvent.after_prim hp).2⟩

/-- Settles O54: the step adds at most one primitive, and the invariant after the step says that it respects mutual
exclusion. -/
theorem onePrimitivePerStep : Obligations.OnePrimitivePerStep := by
  intro s t hs hx
  obtain ⟨l, hord, hadd⟩ := step_order hx
  refine ⟨l, hord, fun c p r hm => ?_⟩
  rcases hadd with hnone | ⟨c', he, hnone | ⟨p', hl⟩⟩
  · exact absurd hm (hnone c p r)
  · exact absurd hm (hnone c p r)
  · obtain ⟨rfl, rfl, rfl⟩ : c = c' ∧ p = p' ∧ r = s.nextAnswer := by
      rcases hl with rfl | ⟨a, rfl⟩ <;> simpa using hm
    obtain ⟨hs', ht', hdev⟩ := owner_of_prim_added hs (stepKeepsInvariant s t hs hx) hl hord
    exact ⟨he, rfl, hs', ht', hdev.symm, hl⟩

/-! The frame of the engine-family commands. -/

theorem EngineEffect.engineFrame {i : Instr} {s t : State} (h : EngineEffect i s t) : EngineFrame s t := by
  cases h <;> exact ⟨rfl, rfl, rfl, rfl⟩

/-- Of WAITQ, an engine-family command writes SEQ's own place only. -/
theorem EngineEffect.waitKind_ne {i : Instr} {s t : State} (h : EngineEffect i s t) {c : Requester} (hc : c ≠ .seq) :
    t.waitKind c = s.waitKind c := by
  cases h with
  | wait j _ _ => exact waitKind_enqueue_ne hc.symm _ _
  | stay | respond | offBus | prim | release | retarget => rfl

/-- The elements of the lists of ACQCAL, RDACC and RDMAG are reads (R103, R155, R157). -/
theorem seqList_mem_read {i : Instr} (hi : i = .acqcal ∨ i = .rdacc ∨ i = .rdmag) {s : State} {j : Job} {op : SeqOp}
    (hop : op ∈ seqList i s j) : ∃ reg, op = .read reg := by
  have haxis (ctrl status : Byte) (a : Nat) (hop : op ∈ axisReads ctrl status a) : ∃ reg, op = .read reg := by
    unfold axisReads at hop
    split at hop
    · rcases List.mem_pair.1 hop with rfl | rfl <;> exact ⟨_, rfl⟩
    · simp at hop
  rcases hi with rfl | rfl | rfl
  · obtain ⟨k, -, rfl⟩ := List.mem_map.1 hop
    exact ⟨_, rfl⟩
  · rcases List.mem_cons.1 hop with rfl | hop
    · exact ⟨_, rfl⟩
    · split at hop
      · simp at hop
      · simp only [List.mem_append] at hop
        rcases hop with (hop | hop) | hop <;> exact haxis _ _ _ hop
  · obtain ⟨k, -, rfl⟩ := List.mem_map.1 hop
    exact ⟨_, rfl⟩

theorem State.not_seqPrimNext_write {s : State} {i : Instr} (hi : i = .acqcal ∨ i = .rdacc ∨ i = .rdmag) (dev : DevAddr)
    (reg : RegAddr) (v : Byte) : ¬ s.seqPrimNext i (.write dev reg v) := by
  rintro ⟨j, op, -, -, hop, hp⟩
  obtain ⟨reg', rfl⟩ := seqList_mem_read hi (List.mem_of_getElem? hop)
  simp [SeqOp.prim] at hp

/-- Settles O47: every step of an engine-family command is an `EngineEffect`, and each clause holds of every one of
those. -/
theorem engineCommandFrame : Obligations.EngineCommandFrame := by
  intro i s t hc hx
  have he := exec_engine hc hx
  obtain ⟨l, hord, hadd, hnone⟩ := he.order
  exact ⟨he.engineFrame, fun c hne => he.waitKind_ne hne, l, hord, hadd, hnone,
    fun hi c dev reg v r hm => State.not_seqPrimNext_write hi dev reg v (hadd.seqPrimNext hm)⟩

/-! RDW, a step at a time (R91). -/

theorem PortFrame.trans {s u t : State} (h : PortFrame s u) (h' : PortFrame u t) : PortFrame s t where
  eng := h'.eng.trans h.eng
  pendEng := h'.pendEng.trans h.pendEng
  engBusy := h'.engBusy.trans h.engBusy
  seq := h'.seq.trans h.seq
  slots m hm := (h'.slots m (by rwa [h.actPort])).trans (h.slots m hm)
  events := h'.events.trans h.events
  ticks := h'.ticks.trans h.ticks
  actPort := h'.actPort.trans h.actPort

theorem PortFrame.self_eq {s t : State} (h : PortFrame s t) : t.self = s.self := congrArg Requester.port h.actPort

/-- A port's command at the point it has gone on to. -/
theorem PortGoesOn.phase_eq {s t : State} {sl : Slot} {ph : Phase} (h : PortGoesOn s t sl ph) : t.phase = ph :=
  phase_of_slot (sl := { sl with phase := ph }) (by rw [h.actPort]; exact h.slot)

/-- A port's command that has gone on performs a primitive and goes on from there. -/
theorem PortGoesOn.transfer_setPhase {s t : State} {sl : Slot} {ph : Phase} (h : PortGoesOn s t sl ph) (c : Requester)
    (p : Prim) (ph' : Phase) : PortGoesOn s ((t.transfer c p).setPhase ph') sl ph' :=
  (h.toPortFrame.trans ((SameButBus.refl t).transfer c p).portFrame).setPhase h.responses h.slot ph'

/-- A port's command that has gone on is answered. -/
theorem PortGoesOn.respondPort {s t : State} {sl : Slot} {ph : Phase} (h : PortGoesOn s t sl ph) (st : Status)
    (d : Data) : PortAnswered s (t.respondPort st d) st d := h.toPortFrame.respondPort h.responses st d

/-- The owner of an open transaction, or of a granted auto-begin, goes on at once (R76, R77). -/
theorem withBus_auto_owner {s : State} (hp : s.phase = .issued ∨ s.phase = .awaiting) (ho : s.arb.owner = some s.self)
    (body : State → State) : s.withBus .auto body = body s := by
  rcases hp with hp | hp <;> simp [State.withBus, hp, ho]

theorem exec_rdw_first {s : State} {b0 : Byte} (hp : s.phase = .issued ∨ s.phase = .awaiting)
    (ho : s.arb.owner = some s.self) (ha : s.nextAnswer = .ok b0) (reg : RegAddr) (flip : BitVec 1) :
    exec (.rdw reg flip) s =
      .next ((s.transfer s.self (.read s.arb.activeAddr reg)).setPhase (.firstByte b0)) := by
  have hbody : exec (.rdw reg flip) s = .next (s.withBus .auto (State.firstRead reg)) := by
    rcases hp with hp | hp <;> simp [exec, execRdw, hp]
  rw [hbody, withBus_auto_owner hp ho]
  simp [State.firstRead, ha]

theorem exec_rdw_second {s : State} {b0 b1 : Byte} (hp : s.phase = .firstByte b0) (ho : s.arb.owner = some s.self)
    (ha : s.nextAnswer = .ok b1) (reg : RegAddr) (flip : BitVec 1) :
    exec (.rdw reg flip) s =
      .next ((s.transfer s.self (.read s.arb.activeAddr (nextReg reg))).setPhase
        (.done .ok (zextData (composeWord flip b0 b1)))) := by
  simp [exec, execRdw, hp, requireOwner, ho, State.lastPrim, ha]

theorem exec_rdw_done {s : State} {st : Status} {d : Data} (hp : s.phase = .done st d) (reg : RegAddr)
    (flip : BitVec 1) : exec (.rdw reg flip) s = .next (s.respondPort st d) := by
  simp [exec, execRdw, hp]

/-- R43's wrap at the end of the register space. -/
theorem nextReg_eq (reg : RegAddr) : nextReg reg = BitVec.ofNat 8 ((reg.toNat + 1) % 256) := by
  apply BitVec.eq_of_toNat_eq
  simp [nextReg]

/-- Settles O15: the two reads and the response, each a step of the owner. -/
theorem rdwCompletes : Obligations.RdwCompletes := by
  intro s sl reg flip b0 b1 rest hslot hph ho hans
  have hp : s.phase = .issued ∨ s.phase = .awaiting := by rwa [phase_of_slot hslot]
  have ha0 : s.nextAnswer = .ok b0 := by simp [State.nextAnswer, hans]
  have hfirst := exec_rdw_first hp ho ha0 reg flip
  have hon₁ := ((SameButBus.refl s).transfer s.self (.read s.arb.activeAddr reg)).setPhase hslot (.firstByte b0)
  generalize ht₁ : (s.transfer s.self (.read s.arb.activeAddr reg)).setPhase (.firstByte b0) = t₁ at hfirst hon₁
  have harb₁ : t₁.arb = s.arb := by simp [← ht₁]
  have ha1 : t₁.nextAnswer = .ok b1 := by simp [← ht₁, State.nextAnswer, hans]
  have hself := hon₁.self_eq
  have hsecond := exec_rdw_second hon₁.phase_eq (by rw [harb₁, hself, ho]) ha1 reg flip
  have hon₂ := hon₁.transfer_setPhase t₁.self (.read t₁.arb.activeAddr (nextReg reg))
    (.done .ok (zextData (composeWord flip b0 b1)))
  refine ⟨t₁, _, _, hfirst, hon₁, harb₁, by simp [← ht₁, ha0], hsecond, by simp [harb₁], ?_,
    exec_rdw_done hon₂.phase_eq reg flip, hon₂.respondPort .ok _, by simp [harb₁], by simp⟩
  simp [hself, harb₁, ha1, nextReg_eq]

end Sys2Proof.Machine
end

section
/-! PROOFS, family 30_encoding.md. The map of R66 as the inverse of the encoder, and from that the decoder's statements
(R62 to R70, R75); the step of a requester whose word decodes, and its one response (R68, R72). -/

namespace Sys2Proof

/-! Slices of words. -/

/-- A concatenation is the word whose high and low slices it joins. -/
theorem append_eq_iff {m n : Nat} {a : BitVec m} {b : BitVec n} {x : BitVec (m + n)} :
    a ++ b = x ↔ a = x.extractLsb' n m ∧ b = x.extractLsb' 0 n := by
  constructor
  · rintro rfl
    exact ⟨BitVec.extractLsb'_append_eq_left.symm, BitVec.extractLsb'_append_eq_right.symm⟩
  · rintro ⟨rfl, rfl⟩
    exact BitVec.extractLsb'_append_extractLsb'

theorem extractLsb'_of_slice {n s l s' l' : Nat} (h : s' + l' ≤ l) (x : BitVec n) :
    (x.extractLsb' s l).extractLsb' s' l' = x.extractLsb' (s + s') l' := by
  ext i hi
  simp [show s' + i < l by omega, Nat.add_assoc]

theorem and_eq_self_of_allOnes {n : Nat} {x m : BitVec n} (hm : m = .allOnes n) : x &&& m = x := by
  rw [hm, BitVec.and_allOnes]

/-- The low `n` bits of `x` are all of it exactly when its bits from `n` on are zero. -/
theorem setWidth_setWidth_eq_iff {k : Nat} (n : Nat) (x : BitVec k) :
    (x.setWidth n).setWidth k = x ↔ 0 = x &&& (BitVec.allOnes k <<< n) := by
  simp only [BitVec.eq_of_getLsbD_eq_iff]
  refine forall₂_congr fun i hi => ?_
  by_cases hin : i < n <;> simp [hi, hin]

/-! A word is written by a format exactly when the operands are its fields and its Z bits are zero (R63, R64). -/

theorem formatB_eq_iff {opc : BitVec 5} {addr : DevAddr} {reg : RegAddr} {data : Byte} {f : BitVec 1} {w : Word} :
    formatB opc addr reg data f = w ↔
      opc = fieldOpc w ∧ addr = fieldAddr w ∧ reg = fieldReg w ∧ data = fieldData w ∧ f = fieldF w ∧
        0 = w.extractLsb' 0 3 := by
  change (_ : BitVec (5 + 7 + 8 + 8 + 1 + 3)) = w ↔ _
  simp only [formatB, append_eq_iff, and_assoc]
  simp [fieldOpc, fieldAddr, fieldReg, fieldData, fieldF, extractLsb'_of_slice]

theorem formatE_eq_iff {opc sel : BitVec 5} {imm : BitVec 19} {w : Word} :
    formatE opc sel imm = w ↔
      opc = fieldOpc w ∧ sel = fieldSel w ∧ 0 = w.extractLsb' 19 3 ∧ imm = fieldImm 19 w := by
  change (_ : BitVec (5 + 5 + 3 + 19)) = w ↔ _
  simp only [formatE, append_eq_iff, and_assoc]
  simp [fieldOpc, fieldSel, fieldImm, extractLsb'_of_slice]

theorem fields_formatB (opc : BitVec 5) (addr : DevAddr) (reg : RegAddr) (data : Byte) (f : BitVec 1) :
    fieldOpc (formatB opc addr reg data f) = opc ∧ fieldAddr (formatB opc addr reg data f) = addr ∧
      fieldReg (formatB opc addr reg data f) = reg ∧ fieldData (formatB opc addr reg data f) = data ∧
      fieldF (formatB opc addr reg data f) = f := by
  obtain ⟨hopc, haddr, hreg, hdata, hf, -⟩ := formatB_eq_iff.1 (Eq.refl (formatB opc addr reg data f))
  exact ⟨hopc.symm, haddr.symm, hreg.symm, hdata.symm, hf.symm⟩

theorem fields_formatE (opc sel : BitVec 5) (imm : BitVec 19) :
    fieldOpc (formatE opc sel imm) = opc ∧ fieldSel (formatE opc sel imm) = sel ∧
      fieldImm 19 (formatE opc sel imm) = imm := by
  obtain ⟨hopc, hsel, -, himm⟩ := formatE_eq_iff.1 (Eq.refl (formatE opc sel imm))
  exact ⟨hopc.symm, hsel.symm, himm.symm⟩

/-- A shorter immediate is a low slice of IMM (R66). -/
theorem fieldImm_eq_setWidth {n : Nat} (hn : n ≤ 19) (w : Word) : fieldImm n w = (fieldImm 19 w).setWidth n := by
  ext i hi
  simp [fieldImm, show i < 19 by omega]

theorem fieldImm_formatE {n : Nat} (hn : n ≤ 19) (opc sel : BitVec 5) (imm : BitVec n) :
    fieldImm n (formatE opc sel (imm.setWidth 19)) = imm := by
  obtain ⟨-, -, himm⟩ := fields_formatE opc sel (imm.setWidth 19)
  rw [fieldImm_eq_setWidth hn, himm, BitVec.setWidth_setWidth_of_le _ hn, BitVec.setWidth_eq]

theorem setWidth_fieldImm_eq_iff {n : Nat} (hn : n ≤ 19) (w : Word) :
    (fieldImm n w).setWidth 19 = fieldImm 19 w ↔ 0 = fieldImm 19 w &&& (BitVec.allOnes 19 <<< n) := by
  rw [fieldImm_eq_setWidth hn, setWidth_setWidth_eq_iff]

/-! The rows of the map (R66). -/

/-- The match column holds the opcode, and zero in every other field. -/
theorem opcodeMap_fixed : ∀ e ∈ opcodeMap, e.2.fixed =
    match e.2.cls with
    | .bus => formatB (.ofNat 5 e.1) 0 0 0 0
    | .engine => formatE (.ofNat 5 e.1) 0 0 := by
  decide

/-- A word meets a row's match and mask exactly when it is the word of the command that the row reads from it: field by
field, the mask holds ones where the encoder writes zeros, and zeros where it writes the operand (R67). -/
theorem row_matches_iff_encode {e : Nat × OpcodeRow} (he : e ∈ opcodeMap) (w : Word) :
    w &&& e.2.mask = e.2.fixed ↔ encode (e.2.instr w) = w := by
  rw [opcodeMap_fixed e he, eq_comm]
  simp only [opcodeMap, List.mem_cons, List.not_mem_nil, or_false] at he
  rcases he with rfl | rfl | rfl | rfl | rfl | rfl | rfl | he
  iterate 7
    · simp only [encode, formatB_eq_iff]
      simp [fieldOpc, fieldAddr, fieldReg, fieldData, fieldF, BitVec.extractLsb'_and, and_eq_self_of_allOnes]
  rcases he with rfl | rfl | rfl | rfl | rfl | rfl | rfl | rfl | rfl | rfl | rfl | rfl | rfl
  all_goals
    simp only [encode, formatE_eq_iff, setWidth_fieldImm_eq_iff, Nat.reduceLeDiff]
    simp [fieldOpc, fieldSel, fieldImm, BitVec.extractLsb'_and, and_eq_self_of_allOnes]

theorem opcodeRow_mem {opc : BitVec 5} {r : OpcodeRow} (h : opcodeRow opc = some r) : (opc.toNat, r) ∈ opcodeMap := by
  obtain ⟨l₁, l₂, hl, -⟩ := List.lookup_eq_some_iff.1 h
  simp [hl]

@[simp] theorem fieldOpc_encode (i : Instr) : fieldOpc (encode i) = i.opcode := by
  cases i with
  | busBegin | busEnd | rdb | rdw | wrb | ldcfg | stcfg => exact Laws.OpcodeField.opc_formatB ..
  | acqcal | setoss | rdtemp | rdpres | wrcal | setsrc | injut | injup | rdreg | acccfg | magcfg | rdacc | rdmag =>
    exact Laws.OpcodeField.opc_formatE ..

/-- The row of a command's opcode is of the command's class and reads the command back from its word. -/
theorem exists_row (i : Instr) :
    ∃ r, opcodeRow i.opcode = some r ∧ r.cls = i.portClass ∧ r.instr (encode i) = i := by
  cases i with
  | busBegin | busEnd | rdb | rdw | wrb | ldcfg | stcfg =>
    exact ⟨_, rfl, rfl, by simp [encode, fields_formatB]⟩
  | acqcal | setoss | rdtemp | rdpres | wrcal | setsrc | injut | injup | rdreg | acccfg | magcfg | rdacc | rdmag =>
    exact ⟨_, rfl, rfl, by simp [encode, fields_formatE, fieldImm_formatE]⟩

/-! The decoder (R68). -/

theorem decode_reserved {w : Word} (h : opcodeRow (fieldOpc w) = none) (k : PortClass) :
    decode k w = .error .reservedOpcode := by
  simp [decode, h]

theorem decode_wrongPort {k : PortClass} {w : Word} {r : OpcodeRow} (h : opcodeRow (fieldOpc w) = some r)
    (hk : r.cls ≠ k) : decode k w = .error .wrongPort := by
  simp [decode, h, hk]

/-- The word of any command, on a port of its class, is read as that command, up to the range of SEL. -/
theorem decode_encode (i : Instr) :
    decode i.portClass (encode i) = if i.wellFormed then .ok i else .error .selOutOfRange := by
  obtain ⟨r, hr, hcls, hinstr⟩ := exists_row i
  have hmatch : encode i &&& r.mask = r.fixed :=
    (row_matches_iff_encode (opcodeRow_mem hr) (encode i)).2 (congrArg encode hinstr)
  simp [decode, hr, hcls, hmatch, hinstr]

/-- Settles O2, from the map's rows reading every command back. -/
theorem decodeOfEncode : Obligations.DecodeOfEncode := by
  intro i hi
  rw [decode_encode, if_pos hi]

/-- What the decoder has checked of a word that it reads as a command. -/
theorem decode_ok {k : PortClass} {w : Word} {i : Instr} (h : decode k w = .ok i) :
    ∃ r, opcodeRow (fieldOpc w) = some r ∧ r.cls = k ∧ w &&& r.mask = r.fixed ∧ r.instr w = i ∧
      i.wellFormed = true := by
  unfold decode at h
  cases hr : opcodeRow (fieldOpc w) with
  | none => simp [hr] at h
  | some r =>
    simp only [hr] at h
    split_ifs at h with hk hm hw
    cases h
    exact ⟨r, rfl, not_not.1 hk, not_not.1 hm, rfl, hw⟩

/-- Settles O3: a word that meets its row is the word of the command the row reads. -/
theorem encodeOfDecode : Obligations.EncodeOfDecode := by
  intro k w i h
  obtain ⟨r, hr, -, hm, rfl, hw⟩ := decode_ok h
  exact ⟨(row_matches_iff_encode (opcodeRow_mem hr) w).1 hm, hw⟩

theorem fieldOpc_of_decode {k : PortClass} {w : Word} {i : Instr} (h : decode k w = .ok i) : fieldOpc w = i.opcode := by
  rw [← (encodeOfDecode k w i h).1, fieldOpc_encode]

/-- The opcodes of each port class (R62). -/
theorem opcode_range (i : Instr) :
    match i.portClass with
    | .bus => 0x01 ≤ i.opcode.toNat ∧ i.opcode.toNat ≤ 0x07
    | .engine => 0x10 ≤ i.opcode.toNat ∧ i.opcode.toNat ≤ 0x1C := by
  cases i <;> simp [Instr.portClass, Instr.opcode]

theorem decode_other_class {k k' : PortClass} {w : Word} {i : Instr} (h : decode k w = .ok i) (hk : k ≠ k') :
    decode k' w = .error .wrongPort := by
  obtain ⟨r, hr, rfl, -⟩ := decode_ok h
  exact decode_wrongPort hr hk

/-- Settles O4, by the class and the opcode of the command the word decodes to. -/
theorem portClassesSeparate : Obligations.PortClassesSeparate := by
  constructor
  all_goals
    intro w i h
    have hcls := Machine.decode_class h
    have hrange := opcode_range i
    rw [hcls, ← fieldOpc_of_decode h] at hrange
    obtain ⟨hlow, hhigh⟩ := hrange
    exact ⟨hcls, hlow, hhigh, decode_other_class h (by decide)⟩

/-- The reserved opcodes have no row (R69). -/
theorem opcodeRow_reserved {opc : BitVec 5}
    (h : opc = 0x00 ∨ (0x08 ≤ opc.toNat ∧ opc.toNat ≤ 0x0F) ∨ 0x1D ≤ opc.toNat) : opcodeRow opc = none := by
  refine List.lookup_eq_none_iff.2 fun e he => ?_
  have hkeys : ∀ e ∈ opcodeMap, (1 ≤ e.1 ∧ e.1 ≤ 7) ∨ (0x10 ≤ e.1 ∧ e.1 ≤ 0x1C) := by decide
  have hkey := hkeys e he
  have hopc : opc.toNat = 0 ∨ _ := h.imp_left fun h0 => by simp [h0]
  rw [bne_iff_ne]
  omega

theorem decode_encode_selOutOfRange {i : Instr} (h : i.wellFormed = false) :
    decode i.portClass (encode i) = .error .selOutOfRange := by
  simp [decode_encode, h]

/-- Settles O5, from the reserved opcodes' having no row and the words of ill-formed commands. -/
theorem reservedWordsIllegal : Obligations.ReservedWordsIllegal := by
  refine ⟨fun k w h => decode_reserved (opcodeRow_reserved h) k, fun sel imm h => ?_, fun sel h => ?_,
    fun sel data h => ?_⟩
  · exact decode_encode_selOutOfRange (i := .wrcal sel imm) (by simp [Instr.wellFormed]; omega)
  · exact decode_encode_selOutOfRange (i := .rdreg sel) (by simp [Instr.wellFormed]; omega)
  · exact decode_encode_selOutOfRange (i := .magcfg sel data) (by simp [Instr.wellFormed]; omega)

theorem encode_and_decode {k : PortClass} {i : Instr} {w : Word} (he : encode i = w)
    (hi : i.portClass = k ∧ i.wellFormed = true) : encode i = w ∧ decode k w = .ok i := by
  obtain ⟨rfl, hw⟩ := hi
  exact ⟨he, he ▸ decodeOfEncode i hw⟩

/-- Settles O1: the encoder's words by evaluation, and the decoder's readings from the round trip. -/
theorem workedEncodings : Obligations.WorkedEncodings := by
  refine ⟨fun p hp => encode_and_decode ?_ ?_, fun p hp => encode_and_decode ?_ ?_, rfl, rfl⟩
  all_goals
    revert p
    decide

namespace Machine

/-! The step of a requester whose word decodes (R68, R72). -/

theorem step_advance {s : State} {c : Requester} (h : s.nextEvent = .advance c) : step s = advance c s.dropEvent := by
  simp [step, perform, h]

theorem advancePort_of_decode {s : State} {n : Nat} {sl : Slot} {i : Instr} (hs : s.slot n = some sl)
    (hd : decode .bus sl.word = .ok i) : advancePort n s = exec i (s.actAs n) := by
  simp [advancePort, hs, hd]

theorem advanceSeq_of_decode {s : State} {w : Word} {i : Instr} (hw : s.ports.pendEng = some w)
    (hd : decode .engine w = .ok i) : advanceSeq s = exec i s := by
  simp [advanceSeq, hw, hd]

/-- Settles O7: the step is the requester's, which decodes its word; the frame is that of `dropEvent` and `actAs`. -/
theorem stepRunsDecodedCommand : Obligations.StepRunsDecodedCommand := by
  constructor
  · intro s n sl i he hs hd
    refine ⟨(step_advance he).trans (advancePort_of_decode (by simpa using hs) hd), ?_⟩
    simp
  · intro s w i he hw hd
    refine ⟨(step_advance he).trans (advanceSeq_of_decode (by simpa using hw) hd), ?_⟩
    simp

/-! The responses a step gives (R72). -/

/-- A step of a bus-family command gives no response, or one to its port, whose slot is then none. -/
theorem BusEffect.responses {i : Instr} {s t : State} (h : BusEffect i s t) :
    t.out.responses = s.out.responses ∨
    ∃ st d, t.out.responses = ⟨.bus s.out.actPort, st, d⟩ :: s.out.responses ∧ t.slot s.out.actPort = none := by
  cases h with
  | stay => exact .inl rfl
  | wait | prim | retargetPrim => exact .inl (by simp)
  | respond st d => exact .inr ⟨st, d, rfl, slot_respondPort_self st d s⟩
  | retarget a d _ _ => exact .inr ⟨.ok, d, rfl, slot_respondPort_self .ok d (s.retarget s.self a)⟩
  | release st d _ _ => exact .inr ⟨st, d, rfl, slot_respondPort_self st d (s.release s.self)⟩

/-- A step of an engine-family command gives no response, or one to the engine port, whose slot is then none. -/
theorem EngineEffect.responses {i : Instr} {s t : State} (h : EngineEffect i s t) :
    t.out.responses = s.out.responses ∨
    ∃ st d, t.out.responses = ⟨.engine, st, d⟩ :: s.out.responses ∧ t.ports.pendEng = none := by
  cases h with
  | stay | offBus | prim | release | retarget | wait => exact .inl rfl
  | respond e n st d _ => exact .inr ⟨st, d, rfl, rfl⟩

/-- Settles O55: of the moves of a step, a command's alone can give a response. -/
theorem oneResponsePerStep : Obligations.OneResponsePerStep := by
  intro s t hx
  rcases step_effects hx with ⟨n, i, he, hs, h⟩ | ⟨i, he, hw, h⟩ | ⟨c, kind, -, -, -, rfl⟩ | ⟨p, w, -, rfl⟩ | ⟨-, rfl⟩ |
    ⟨-, rfl⟩
  · rcases h.responses with hr | ⟨st, d, hr, hslot⟩
    · exact .inl (by simpa using hr)
    · exact .inr ⟨⟨.bus n, st, d⟩, by simpa using hr, .inl ⟨n, rfl, he, hs, hslot⟩⟩
  · rcases h.responses with hr | ⟨st, d, hr, hpend⟩
    · exact .inl (by simpa using hr)
    · exact .inr ⟨⟨.engine, st, d⟩, by simpa using hr, .inr ⟨rfl, he, hw, hpend⟩⟩
  · exact .inl (by simp)
  · exact .inl (by simp)
  · exact .inl (by simp)
  · exact .inl (by simp)

end Machine

end Sys2Proof
end

section
/-! PROOFS, family 40_bus_arbiter.md: the grant step and the bus-family commands (R76 to R96). -/

namespace Sys2Proof.Machine

/-! The grant step (R77). -/

theorem step_grant {s : State} {c : Requester} (h : s.nextEvent = .grant c) : step s = .next (s.dropEvent.grant c) := by
  simp [step, perform, h]

@[simp] theorem State.waitKind_dropEvent (s : State) (c : Requester) : s.dropEvent.waitKind c = s.waitKind c :=
  waitKind_congr (by simp) c

theorem grant_of_waiting {s : State} {c : Requester} {kind : WaitKind} (ho : s.arb.owner = none)
    (hk : s.waitKind c = some kind) : s.grant c = s.takeBus c (s.grantAddr kind) := by
  simp [State.grant, ho, hk]

theorem grant_of_not_enabled {s : State} {c : Requester} (h : s.arb.owner ≠ none ∨ s.waitKind c = none) :
    s.grant c = s := by
  rcases grant_cases c s with ⟨kind, ho, hk, -⟩ | ⟨-, he⟩
  · simp [ho, hk] at h
  · exact he

/-- Settles O11, by whether the grant is enabled. -/
theorem grantStep : Obligations.GrantStep := by
  intro s c he
  refine ⟨_, step_grant he, by simp, by simp, by simp, fun kind ho hk => ?_, fun h => ?_⟩
  · rw [grant_of_waiting (by simpa using ho) (by simpa using hk)]
    refine ⟨rfl, rfl, rfl, rfl, ?_, ?_, waitKind_takeBus_self .., fun c' hc => ?_, by simp⟩
    · rintro a rfl; rfl
    · rintro rfl; simp [State.grantAddr]
    · simp [waitKind_takeBus_ne hc.symm]
  · simp [grant_of_not_enabled (s := s.dropEvent) (c := c) (by simpa using h)]

/-! END (R86). -/

/-- Settles O13, by whether the requester is the owner. -/
theorem endCompletes : Obligations.EndCompletes := by
  refine ⟨fun s ho => ?_, fun s ho => ?_⟩
  · exact ⟨_, congrArg Host.Outcome.next (if_pos ho), ((SameButBus.refl s).release s.self).respondPort .ok 0, rfl, rfl⟩
  · exact ⟨_, congrArg Host.Outcome.next (if_neg ho), (SameButBus.refl s).respondPort .notOwner 0, rfl, rfl⟩

/-! The commands that acquire the bus, before their primitive (R76, R80, R83). -/

/-- What a bus-family command does once its requester is the owner: BEGIN's response, or the command's first primitive. -/
def portBody : Instr → State → State
  | .busBegin _ => State.respondPort .ok 0
  | .rdb reg => fun s => s.lastPrim (.read s.arb.activeAddr reg) zextData
  | .rdw reg _ => State.firstRead reg
  | .wrb reg data => fun s => s.lastPrim (.write s.arb.activeAddr reg data) fun _ => 0
  | .ldcfg a reg => fun s => s.lastPrim (.read a reg) zextData
  | .stcfg a reg data => fun s => s.lastPrim (.write a reg data) fun _ => 0
  | _ => id

theorem beforeBus_iff {ph : Phase} : ph.beforeBus = true ↔ ph = .issued ∨ ph = .awaiting := by
  cases ph <;> simp [Phase.beforeBus]

/-- Every bus-family command but END acquires the bus and goes on with its `portBody`. -/
theorem exec_beforeBus {i : Instr} {s : State} (hc : i.portClass = .bus) (hi : i ≠ .busEnd)
    (hp : s.phase.beforeBus = true) : exec i s = .next (s.withBus (acquireKind i) (portBody i)) := by
  cases i with
  | busBegin => rfl
  | busEnd => exact absurd rfl hi
  | rdb | wrb | ldcfg | stcfg =>
    rcases beforeBus_iff.1 hp with hp | hp <;>
      simp [exec, execRdb, execWrb, execLdcfg, execStcfg, hp, acquireKind, portBody]
  | rdw => rcases beforeBus_iff.1 hp with hp | hp <;> simp [exec, execRdw, hp, acquireKind, portBody]
  | _ => cases hc

theorem withBus_explicit_owner {s : State} (hp : s.phase = .issued) (ho : s.arb.owner = some s.self) (a : DevAddr)
    (body : State → State) : s.withBus (.explicit a) body = body (s.retarget s.self a) := by
  simp [State.withBus, hp, ho]

theorem withBus_granted {s : State} (hp : s.phase = .awaiting) (ho : s.arb.owner = some s.self) (kind : WaitKind)
    (body : State → State) : s.withBus kind body = body s := by
  simp [State.withBus, hp, ho]

theorem withBus_blocked {s : State} (hp : s.phase = .awaiting) (ho : s.arb.owner ≠ some s.self) (kind : WaitKind)
    (body : State → State) : s.withBus kind body = s := by
  simp [State.withBus, hp, ho]

theorem withBus_noTarget {s : State} (hp : s.phase = .issued) (ho : s.arb.owner ≠ some s.self)
    (hl : s.arb.lastV = false) (body : State → State) : s.withBus .auto body = s.respondPort .noTarget 0 := by
  simp [State.withBus, hp, ho, hl]

theorem withBus_waits {s : State} {kind : WaitKind} (hp : s.phase = .issued) (ho : s.arb.owner ≠ some s.self)
    (hl : kind = .auto → s.arb.lastV = true) (body : State → State) :
    s.withBus kind body = (s.enqueue s.self kind).setPhase .awaiting := by
  have hn : ¬(kind = .auto ∧ s.arb.lastV = false) := fun ⟨hk, hf⟩ => by simp [hl hk] at hf
  simp [State.withBus, hp, ho, hn]

/-- A command that must wait puts its requester into WAITQ under its kind, and nothing else of the arbiter changes. -/
theorem exec_waits {i : Instr} {s : State} {sl : Slot} (hc : i.portClass = .bus) (hi : i ≠ .busEnd)
    (hs : s.slot s.out.actPort = some sl) (hp : sl.phase = .issued) (ho : s.arb.owner ≠ some s.self)
    (hl : acquireKind i = .auto → s.arb.lastV = true) :
    ∃ t, exec i s = .next t ∧ PortGoesOn s t sl .awaiting ∧ t.arb = { s.arb with waitq := t.arb.waitq } ∧
      t.waitKind s.self = some (acquireKind i) ∧ (∀ c, c ≠ s.self → t.waitKind c = s.waitKind c) ∧
      t.out.order = s.out.order := by
  have hp : s.phase = .issued := (phase_of_slot hs).trans hp
  refine ⟨(s.enqueue s.self (acquireKind i)).setPhase .awaiting, ?_, ((SameButBus.refl s).enqueue _ _).setPhase hs _,
    ?_, ?_, fun c hne => ?_, by simp⟩
  · rw [exec_beforeBus hc hi (by rw [hp]; rfl), withBus_waits hp ho hl]
  · rw [State.setPhase_arb]; rfl
  · rw [setPhase_waitKind, waitKind_enqueue_self]
  · rw [setPhase_waitKind, waitKind_enqueue_ne hne.symm]

/-- Settles O21: at its await a command's requester must be the owner. -/
theorem awaitHasNoStep : Obligations.AwaitHasNoStep := by
  intro i s hc hi hp ho
  rw [exec_beforeBus hc hi (by rw [hp]; rfl), withBus_blocked hp ho]

/-- Settles O12: BEGIN by the owner, waiting, and granted. -/
theorem beginCompletes : Obligations.BeginCompletes := by
  refine ⟨fun s addr hp ho => ?_, fun s sl addr hs hp ho => ?_, fun s addr hp ho => ?_⟩
  · exact ⟨_, congrArg Host.Outcome.next (withBus_explicit_owner hp ho addr _),
      ((SameButBus.refl s).retarget s.self addr).respondPort .ok 0, rfl, rfl⟩
  · exact exec_waits rfl (by simp) hs hp ho (by simp [acquireKind])
  · exact ⟨_, congrArg Host.Outcome.next (withBus_granted hp ho _ _), (SameButBus.refl s).respondPort .ok 0, rfl, rfl⟩

/-- Settles O19, by whether an address has been active. -/
theorem autoBegin : Obligations.AutoBegin := by
  intro i h
  obtain ⟨hc, hi, hk⟩ : i.portClass = .bus ∧ i ≠ .busEnd ∧ acquireKind i = .auto := by
    rcases h with ⟨_, rfl⟩ | ⟨_, _, rfl⟩ | ⟨_, _, rfl⟩ <;> simp [Instr.portClass, acquireKind]
  refine ⟨fun s hp ho hl => ?_, fun s sl hs hp ho hl => ?_⟩
  · refine ⟨s.respondPort .noTarget 0, ?_, (SameButBus.refl s).respondPort .noTarget 0, rfl, rfl⟩
    rw [exec_beforeBus hc hi (by rw [hp]; rfl), hk, withBus_noTarget hp ho hl]
  · simpa only [hk] using exec_waits hc hi hs hp ho fun _ => hl

/-- Settles O20: an explicit acquire waits whether or not an address has been active. -/
theorem configTransferWaits : Obligations.ConfigTransferWaits := by
  intro i addr h s sl hs hp ho
  obtain ⟨hc, hi, hk⟩ : i.portClass = .bus ∧ i ≠ .busEnd ∧ acquireKind i = .explicit addr := by
    rcases h with ⟨_, rfl⟩ | ⟨_, _, rfl⟩ <;> simp [Instr.portClass, acquireKind]
  simpa only [hk] using exec_waits hc hi hs hp ho (by simp [hk])

end Sys2Proof.Machine
end

section
/-! PROOFS, family 40_bus_arbiter.md: the last primitive of a bus port and its response (R88 to R96, R170). -/

namespace Sys2Proof.Machine

/-! A last primitive by the transport's answer (R88). -/

theorem lastPrim_ok {s : State} {b : Byte} (ha : s.nextAnswer = .ok b) (p : Prim) (good : Byte → Data) :
    s.lastPrim p good = (s.transfer s.self p).setPhase (.done .ok (good b)) := by
  simp [State.lastPrim, ha]

theorem lastPrim_fail {s : State} {kind : FailKind} {code : Byte} (ha : s.nextAnswer = .fail kind code) (p : Prim)
    (good : Byte → Data) :
    s.lastPrim p good = (s.transfer s.self p).setPhase (.done kind.status (xportData p code)) := by
  simp [State.lastPrim, ha]

theorem firstRead_fail {s : State} {kind : FailKind} {code : Byte} (ha : s.nextAnswer = .fail kind code) (reg : RegAddr) :
    s.firstRead reg = (s.transfer s.self (.read s.arb.activeAddr reg)).setPhase
      (.done kind.status (xportData (.read s.arb.activeAddr reg) code)) := by
  simp [State.firstRead, ha]

/-! From the last primitive to the response. -/

/-- The bus-family commands with a primitive (R89 to R96). -/
def hasPrim : Instr → Bool
  | .rdb _ | .rdw _ _ | .wrb _ _ | .ldcfg _ _ | .stcfg _ _ _ => true
  | _ => false

/-- The bus as command `i` leaves it with its response: LDCFG and STCFG release it, the others keep it (R94 to R96). -/
def State.endTransfer (i : Instr) (s : State) : State := if releasesBus i then s.release s.self else s

theorem SameButBus.endTransfer (i : Instr) (s : State) : SameButBus s (s.endTransfer i) := by
  unfold State.endTransfer
  split
  · exact (SameButBus.refl s).release s.self
  · exact SameButBus.refl s

theorem exec_done {i : Instr} {s : State} {st : Status} {d : Data} (hi : hasPrim i = true) (hp : s.phase = .done st d) :
    exec i s = .next ((s.endTransfer i).respondPort st d) := by
  cases i with
  | rdb | rdw | wrb | ldcfg | stcfg =>
    simp [exec, execRdb, execRdw, execWrb, execLdcfg, execStcfg, hp, State.endTransfer, releasesBus]
  | _ => cases hi

/-- The last two steps of command `i` from `s`: to `t₁` its primitive `p`, performed on the bus as `u` has it, and to `t`
the response. -/
structure PrimThenAnswer (i : Instr) (s : State) (sl : Slot) (u : State) (p : Prim) (st : Status) (d : Data)
    (t₁ t : State) : Prop where
  prim : exec i s = .next t₁
  goesOn : PortGoesOn s t₁ sl (.done st d)
  primArb : t₁.arb = u.arb
  primOrder : t₁.out.order = .prim s.self p u.nextAnswer :: u.out.order
  answer : exec i t₁ = .next t
  answered : PortAnswered s t st d
  arb : t.arb = if releasesBus i then released u.arb else u.arb
  order : t.out.order = if releasesBus i then .release s.self :: t₁.out.order else t₁.out.order

theorem exists_primThenAnswer {i : Instr} {s u : State} {sl : Slot} {p : Prim} {st : Status} {d : Data}
    (hi : hasPrim i = true) (hs : s.slot s.out.actPort = some sl) (hu : SameButBus s u)
    (hx : exec i s = .next ((u.transfer u.self p).setPhase (.done st d))) :
    ∃ t₁ t, PrimThenAnswer i s sl u p st d t₁ t := by
  have hon := (hu.transfer u.self p).setPhase hs (.done st d)
  have hself : u.self = s.self := hu.portFrame.self_eq
  have hans : PortAnswered s _ st d :=
    (hon.toPortFrame.trans (SameButBus.endTransfer i _).portFrame).respondPort
      ((SameButBus.endTransfer i _).responses.trans hon.responses) st d
  refine ⟨_, _, hx, hon, by simp, by simp [hself], exec_done hi hon.phase_eq, hans, ?_, ?_⟩
  all_goals
    unfold State.endTransfer
    split
  · simp [State.release, released]
  · simp
  · simp [State.self, hu.actPort]
  · simp

/-! The points at which a command with a primitive comes to its part on the bus (R76). -/

theorem hasPrim_acquires {i : Instr} (h : hasPrim i = true) : i.portClass = .bus ∧ i ≠ .busEnd := by
  cases i with
  | rdb | rdw | wrb | ldcfg | stcfg => exact ⟨rfl, nofun⟩
  | _ => cases h

theorem exec_owner_auto {i : Instr} {s : State} {sl : Slot} (hi : hasPrim i = true) (hk : acquireKind i = .auto)
    (hs : s.slot s.out.actPort = some sl) (hp : sl.phase = .issued ∨ sl.phase = .awaiting)
    (ho : s.arb.owner = some s.self) : exec i s = .next (portBody i s) := by
  obtain ⟨hc, hne⟩ := hasPrim_acquires hi
  rw [← phase_of_slot hs] at hp
  rw [exec_beforeBus hc hne (beforeBus_iff.2 hp), hk, withBus_auto_owner hp ho]

theorem exec_granted {i : Instr} {s : State} {sl : Slot} (hi : hasPrim i = true) (hs : s.slot s.out.actPort = some sl)
    (hp : sl.phase = .awaiting) (ho : s.arb.owner = some s.self) : exec i s = .next (portBody i s) := by
  obtain ⟨hc, hne⟩ := hasPrim_acquires hi
  rw [← phase_of_slot hs] at hp
  rw [exec_beforeBus hc hne (beforeBus_iff.2 (.inr hp)), withBus_granted hp ho]

theorem exec_owner_explicit {i : Instr} {s : State} {sl : Slot} {a : DevAddr} (hi : hasPrim i = true)
    (hk : acquireKind i = .explicit a) (hs : s.slot s.out.actPort = some sl) (hp : sl.phase = .issued)
    (ho : s.arb.owner = some s.self) : exec i s = .next (portBody i (s.retarget s.self a)) := by
  obtain ⟨hc, hne⟩ := hasPrim_acquires hi
  rw [← phase_of_slot hs] at hp
  rw [exec_beforeBus hc hne (beforeBus_iff.2 (.inl hp)), hk, withBus_explicit_owner hp ho]

/-- A command whose part on the bus, from `u`, is its one and last primitive completes when the transport answers ok. -/
theorem exists_transfer_ok {i : Instr} {s u : State} {sl : Slot} {p : Prim} {good : Byte → Data} {b : Byte}
    (hi : hasPrim i = true) (hs : s.slot s.out.actPort = some sl) (hu : SameButBus s u)
    (hx : exec i s = .next (u.lastPrim p good)) (ha : u.nextAnswer = .ok b) :
    ∃ t₁ t, PrimThenAnswer i s sl u p .ok (good b) t₁ t :=
  exists_primThenAnswer hi hs hu (by rw [hx, lastPrim_ok ha])

/-- Settles O14: RDB's primitive and its response. -/
theorem rdbCompletes : Obligations.RdbCompletes := by
  intro s sl reg b hs hp ho ha
  obtain ⟨t₁, t, h⟩ := exists_transfer_ok rfl hs (SameButBus.refl s) (exec_owner_auto (i := .rdb reg) rfl rfl hs hp ho) ha
  exact ⟨t₁, t, h.prim, h.goesOn, h.primArb, ha ▸ h.primOrder, h.answer, h.answered, h.arb, h.order⟩

/-- Settles O16: WRB's primitive and its response. -/
theorem wrbCompletes : Obligations.WrbCompletes := by
  intro s sl reg data b hs hp ho ha
  obtain ⟨t₁, t, h⟩ :=
    exists_transfer_ok rfl hs (SameButBus.refl s) (exec_owner_auto (i := .wrb reg data) rfl rfl hs hp ho) ha
  exact ⟨t₁, t, h.prim, h.goesOn, h.primArb, ha ▸ h.primOrder, h.answer, h.answered, h.arb, h.order⟩

/-- Settles O17: LDCFG's primitive, and its response with the release, from the grant and after the owner's retarget. -/
theorem ldcfgCompletes : Obligations.LdcfgCompletes := by
  refine ⟨fun s sl addr reg b hs hp ho ha => ?_, fun s sl addr reg b hs hp ho ha => ?_⟩
  · obtain ⟨t₁, t, h⟩ :=
      exists_transfer_ok rfl hs (SameButBus.refl s) (exec_granted (i := .ldcfg addr reg) rfl hs hp ho) ha
    exact ⟨t₁, t, h.prim, h.goesOn, h.primArb, h.answer, h.answered, h.arb, by rw [h.order, h.primOrder, ha]; rfl⟩
  · obtain ⟨t₁, t, h⟩ := exists_transfer_ok rfl hs ((SameButBus.refl s).retarget s.self addr)
      (exec_owner_explicit (i := .ldcfg addr reg) rfl rfl hs hp ho) ha
    refine ⟨t₁, t, h.prim, h.answer, h.answered, h.arb, ?_⟩
    rw [h.order, h.primOrder, show (s.retarget s.self addr).nextAnswer = _ from ha]
    rfl

/-- Settles O18: as `ldcfgCompletes`. -/
theorem stcfgCompletes : Obligations.StcfgCompletes := by
  refine ⟨fun s sl addr reg data b hs hp ho ha => ?_, fun s sl addr reg data b hs hp ho ha => ?_⟩
  · obtain ⟨t₁, t, h⟩ :=
      exists_transfer_ok rfl hs (SameButBus.refl s) (exec_granted (i := .stcfg addr reg data) rfl hs hp ho) ha
    exact ⟨t₁, t, h.prim, h.goesOn, h.primArb, h.answer, h.answered, h.arb, by rw [h.order, h.primOrder, ha]; rfl⟩
  · obtain ⟨t₁, t, h⟩ := exists_transfer_ok rfl hs ((SameButBus.refl s).retarget s.self addr)
      (exec_owner_explicit (i := .stcfg addr reg data) rfl rfl hs hp ho) ha
    refine ⟨t₁, t, h.prim, h.answer, h.answered, h.arb, ?_⟩
    rw [h.order, h.primOrder, show (s.retarget s.self addr).nextAnswer = _ from ha]
    rfl

/-! A failed primitive (R88, R90, R170). -/

/-- The fields of R170's DATA; `w` is its bit 23. -/
theorem fields_xport (w : BitVec 1) (dev : DevAddr) (reg : RegAddr) (code : Byte) {d : Data}
    (hd : d = 0#40 ++ w ++ dev ++ reg ++ code) :
    d.extractLsb' 24 40 = 0 ∧ d.extractLsb' 23 1 = w ∧ d.extractLsb' 16 7 = dev ∧ d.extractLsb' 8 8 = reg ∧
      d.extractLsb' 0 8 = code := by
  have hd : (_ : BitVec (40 + 1 + 7 + 8 + 8)) = d := hd.symm
  simp only [append_eq_iff, and_assoc] at hd
  obtain ⟨hzero, hw, hdev, hreg, hcode⟩ := hd
  refine ⟨?_, ?_, ?_, ?_, hcode.symm⟩
  · simpa [extractLsb'_of_slice] using hzero.symm
  · simpa [extractLsb'_of_slice] using hw.symm
  · simpa [extractLsb'_of_slice] using hdev.symm
  · simpa [extractLsb'_of_slice] using hreg.symm

theorem FailKind.status_code (kind : FailKind) :
    (kind = .fatal → kind.status.code = 2) ∧ (kind = .retryable → kind.status.code = 3) := by
  cases kind <;> decide

/-- What R170 says of the DATA of a failed primitive. -/
theorem xportData_fields (p : Prim) (code : Byte) :
    (xportData p code).extractLsb' 0 8 = code ∧ (xportData p code).extractLsb' 16 7 = p.dev ∧
      (xportData p code).extractLsb' 24 40 = 0 ∧
      (∀ dev reg, p = .read dev reg →
        (xportData p code).extractLsb' 8 8 = reg ∧ (xportData p code).getLsbD 23 = false) ∧
      (∀ dev reg v, p = .write dev reg v →
        (xportData p code).extractLsb' 8 8 = reg ∧ (xportData p code).getLsbD 23 = true) := by
  have hbit (d : Data) : d.getLsbD 23 = (d.extractLsb' 23 1).getLsbD 0 := by simp
  cases p with
  | read dev reg =>
    obtain ⟨hzero, hw, hdev, hreg, hcode⟩ := fields_xport 0 dev reg code (d := xportData (.read dev reg) code) rfl
    refine ⟨hcode, hdev, hzero, ?_, nofun⟩
    rintro _ _ ⟨⟩
    exact ⟨hreg, by rw [hbit, hw]; rfl⟩
  | write dev reg v =>
    obtain ⟨hzero, hw, hdev, hreg, hcode⟩ := fields_xport 1 dev reg code (d := xportData (.write dev reg v) code) rfl
    refine ⟨hcode, hdev, hzero, nofun, ?_⟩
    rintro _ _ _ ⟨⟩
    exact ⟨hreg, by rw [hbit, hw]; rfl⟩

/-- Command `i` at `s` issues `p` on the bus as `u` has it: its next step is that primitive and, where the transport fails
it, the report of the failure as the response to give. -/
structure IssuesPrim (i : Instr) (s u : State) (p : Prim) : Prop where
  hasPrim : hasPrim i = true
  bus : SameButBus s u
  nextAnswer : u.nextAnswer = s.nextAnswer
  fails : ∀ kind code, u.nextAnswer = .fail kind code →
    exec i s = .next ((u.transfer u.self p).setPhase (.done kind.status (xportData p code)))

theorem IssuesPrim.of_lastPrim {i : Instr} {s u : State} {p : Prim} {good : Byte → Data} (hi : Machine.hasPrim i = true)
    (hu : SameButBus s u) (ha : u.nextAnswer = s.nextAnswer) (hx : exec i s = .next (u.lastPrim p good)) :
    IssuesPrim i s u p :=
  ⟨hi, hu, ha, fun _ _ hf => by rw [hx, lastPrim_fail hf]⟩

/-- RDB, RDW's first read and WRB, of the owner of an open transaction or from the grant. -/
theorem issuesPrim_auto {i : Instr} {s : State} {sl : Slot} {p : Prim} (hs : s.slot s.out.actPort = some sl)
    (hp : sl.phase = .issued ∨ sl.phase = .awaiting) (ho : s.arb.owner = some s.self)
    (h : (∃ reg, i = .rdb reg ∧ p = .read s.arb.activeAddr reg) ∨
      (∃ reg flip, i = .rdw reg flip ∧ p = .read s.arb.activeAddr reg) ∨
      (∃ reg data, i = .wrb reg data ∧ p = .write s.arb.activeAddr reg data)) : IssuesPrim i s s p := by
  rcases h with ⟨reg, rfl, rfl⟩ | ⟨reg, flip, rfl, rfl⟩ | ⟨reg, data, rfl, rfl⟩
  · exact .of_lastPrim rfl (.refl s) rfl (exec_owner_auto (i := .rdb reg) rfl rfl hs hp ho)
  · refine ⟨rfl, .refl s, rfl, fun kind code hf => ?_⟩
    rw [exec_owner_auto rfl rfl hs hp ho]
    exact congrArg _ (firstRead_fail hf reg)
  · exact .of_lastPrim rfl (.refl s) rfl (exec_owner_auto (i := .wrb reg data) rfl rfl hs hp ho)

/-- RDW's second read. -/
theorem issuesPrim_second {s : State} {sl : Slot} {b0 : Byte} (hs : s.slot s.out.actPort = some sl)
    (hp : sl.phase = .firstByte b0) (ho : s.arb.owner = some s.self) (reg : RegAddr) (flip : BitVec 1) :
    IssuesPrim (.rdw reg flip) s s (.read s.arb.activeAddr (reg + 1)) := by
  rw [← phase_of_slot hs] at hp
  exact .of_lastPrim (good := fun b1 => zextData (composeWord flip b0 b1)) rfl (.refl s) rfl
    (by simp [exec, execRdw, hp, requireOwner, ho, nextReg])

/-- LDCFG and STCFG from the grant. -/
theorem issuesPrim_granted {i : Instr} {s : State} {sl : Slot} {p : Prim} (hs : s.slot s.out.actPort = some sl)
    (hp : sl.phase = .awaiting) (ho : s.arb.owner = some s.self)
    (h : (∃ a reg, i = .ldcfg a reg ∧ p = .read a reg) ∨
      (∃ a reg data, i = .stcfg a reg data ∧ p = .write a reg data)) : IssuesPrim i s s p := by
  rcases h with ⟨a, reg, rfl, rfl⟩ | ⟨a, reg, data, rfl, rfl⟩
  · exact .of_lastPrim rfl (.refl s) rfl (exec_granted (i := .ldcfg a reg) rfl hs hp ho)
  · exact .of_lastPrim rfl (.refl s) rfl (exec_granted (i := .stcfg a reg data) rfl hs hp ho)

/-- LDCFG and STCFG of the owner of an open transaction, which they retarget. -/
theorem issuesPrim_retarget {i : Instr} {s : State} {sl : Slot} {p : Prim} {a : DevAddr}
    (hs : s.slot s.out.actPort = some sl) (hp : sl.phase = .issued) (ho : s.arb.owner = some s.self)
    (h : (∃ reg, i = .ldcfg a reg ∧ p = .read a reg) ∨ (∃ reg data, i = .stcfg a reg data ∧ p = .write a reg data)) :
    IssuesPrim i s (s.retarget s.self a) p := by
  have hu := (SameButBus.refl s).retarget s.self a
  rcases h with ⟨reg, rfl, rfl⟩ | ⟨reg, data, rfl, rfl⟩
  · exact .of_lastPrim rfl hu rfl (exec_owner_explicit (i := .ldcfg a reg) rfl rfl hs hp ho)
  · exact .of_lastPrim rfl hu rfl (exec_owner_explicit (i := .stcfg a reg data) rfl rfl hs hp ho)

/-- Settles O22: at each point the command issues its primitive, whose failure is then its response. -/
theorem portFailureReported : Obligations.PortFailureReported := by
  intro s sl i p kind code arb base hs ho ha hpoint
  obtain ⟨u, hissues, rfl, rfl⟩ : ∃ u, IssuesPrim i s u p ∧ u.arb = arb ∧ u.out.order = base := by
    rcases hpoint with ⟨rfl, rfl, ⟨hp, hi⟩ | ⟨reg, flip, b0, hp, rfl, rfl⟩ | ⟨hp, hi⟩⟩ | ⟨a, hp, rfl, rfl, hi⟩
    · exact ⟨s, issuesPrim_auto hs hp ho hi, rfl, rfl⟩
    · exact ⟨s, issuesPrim_second hs hp ho reg flip, rfl, rfl⟩
    · exact ⟨s, issuesPrim_granted hs hp ho hi, rfl, rfl⟩
    · exact ⟨_, issuesPrim_retarget hs hp ho hi, rfl, rfl⟩
  have hfail := hissues.nextAnswer.trans ha
  obtain ⟨t₁, t, h⟩ := exists_primThenAnswer hissues.hasPrim hs hissues.bus (hissues.fails kind code hfail)
  obtain ⟨hfatal, hretry⟩ := kind.status_code
  obtain ⟨hcode, hdev, hzero, hread, hwrite⟩ := xportData_fields p code
  refine ⟨t₁, t, _, _, h.prim, h.primArb, hfail ▸ h.primOrder, h.answer, h.answered, hfatal, hretry, hcode, hdev, hzero,
    hread, hwrite, ?_, ?_⟩
  · rintro (⟨a, reg, rfl⟩ | ⟨a, reg, data, rfl⟩) <;> exact ⟨h.arb, h.order⟩
  · rintro (⟨reg, rfl⟩ | ⟨reg, flip, rfl⟩ | ⟨reg, data, rfl⟩) <;> exact ⟨h.arb, h.order⟩

end Sys2Proof.Machine
end

section
/-! PROOFS, family 40_bus_arbiter.md: SEQ's use of the bus (R99 to R102), its failures (R170), and RDTEMP and RDPRES in bus
mode (R116, R126). -/

namespace Sys2Proof.Machine

/-! The step of an engine command whose slot is in use. -/

/-- What a failed command `i` writes besides its response: STAGE <- Idle for a reading (R101, R121, R135). -/
def State.failWrite (i : Instr) (s : State) : State :=
  match i with
  | .rdtemp | .rdpres => s.endCycle
  | _ => s

/-- The step of every engine command that uses the bus is `seqStep` of its list, once its slot is in use. -/
theorem exec_seqStep {i : Instr} (hu : usesSeq i = true) :
    ∃ onRelease finish, ∀ s j, s.ports.seq = some j →
      exec i s = s.seqStep (seqDev i) (seqList i s) onRelease finish (State.failWrite i) j := by
  cases i with
  | acqcal => exact ⟨_, _, fun s j hj => by simp only [exec, execAcqcal, hj]; rfl⟩
  | rdtemp => exact ⟨_, _, fun s j hj => by simp only [exec, execRdtemp, hj]; rfl⟩
  | rdpres => exact ⟨_, _, fun s j hj => by simp only [exec, execRdpres, hj]; rfl⟩
  | acccfg data => exact ⟨_, _, fun s j hj => by simp only [exec, execAcccfg, hj]; rfl⟩
  | magcfg sel data => exact ⟨_, _, fun s j hj => by simp only [exec, execMagcfg, hj]; rfl⟩
  | rdacc => exact ⟨_, _, fun s j hj => by simp only [exec, execRdacc, hj]; rfl⟩
  | rdmag => exact ⟨_, _, fun s j hj => by simp only [exec, execRdmag, hj]; rfl⟩
  | _ => cases hu

/-- Settles O45: `seqStep` at the await waits for the ownership. -/
theorem seqAwaitHasNoStep : Obligations.SeqAwaitHasNoStep := by
  intro i s j hu hj hp ho
  obtain ⟨onRelease, finish, hstep⟩ := exec_seqStep hu
  rw [hstep s j hj]
  simp [State.seqStep, hp, ho]

/-! A failed primitive of SEQ (R102, R170). -/

/-- SEQ's slot after a failed primitive: the error is kept for the response. -/
def Job.failed (j : Job) (p : Prim) (kind : FailKind) (code : Byte) : Job :=
  { j with phase := .running, failure := some (kind.status, xportData p code) }

theorem seqOp_fail {dev : DevAddr} {j : Job} {s : State} {op : SeqOp} {p : Prim} {kind : FailKind} {code : Byte}
    (hop : op.prim dev = some p) (ha : s.nextAnswer = .fail kind code) :
    s.seqOp dev j op = (s.transfer .seq p).setJob (j.failed p kind code) := by
  cases op with
  | read | write | trigger => cases hop; simp [State.seqOp, State.seqPrim, ha, Job.failed]
  | settle ms => cases hop

/-- Off the bus after a failed primitive, the step answers the failure. -/
theorem seqStep_answerFailure {dev : DevAddr} {list : Job → List SeqOp} {onRelease finish : Job → State → State}
    {onFail : State → State} {j : Job} {s : State} {st : Status} {d : Data} (hp : j.phase = .offBus)
    (hf : j.failure = some (st, d)) :
    s.seqStep dev list onRelease finish onFail j = .next ((onFail s).respondEngine st d) := by
  simp [State.seqStep, hp, hf]

theorem failWrite_frame (i : Instr) (s : State) :
    EngineFrame s (s.failWrite i) ∧ (s.failWrite i).arb = s.arb ∧ (s.failWrite i).out.order = s.out.order ∧
      (s.failWrite i).out.responses = s.out.responses := by
  unfold State.failWrite
  split <;> exact ⟨⟨rfl, rfl, rfl, rfl⟩, rfl, rfl, rfl⟩

theorem failWrite_eng_of_ne {i : Instr} (ht : i ≠ .rdtemp) (hp : i ≠ .rdpres) (s : State) : (s.failWrite i).eng = s.eng := by
  unfold State.failWrite
  split
  · exact absurd rfl ht
  · exact absurd rfl hp
  · rfl

/-- Settles O44: the failed primitive, the release, and the answer, each a step of `seqStep`. -/
theorem seqFailureReleases : Obligations.SeqFailureReleases := by
  intro i s j op p kind code hu hj hp ho hf hop hprim ha
  obtain ⟨onRelease, finish, hstep⟩ := exec_seqStep hu
  let t₁ := (s.transfer .seq p).setJob (j.failed p kind code)
  let t₂ := (t₁.release .seq).setJob { j.failed p kind code with phase := .offBus }
  have hprimStep : exec i s = .next t₁ := by rw [hstep s j hj, seqStep_op ho hp hf hop, seqOp_fail hprim ha]
  have hrelease : exec i t₁ = .next t₂ := (hstep t₁ _ rfl).trans (seqStep_failed ho (.inr rfl) rfl)
  have hanswer : exec i t₂ = .next ((t₂.failWrite i).respondEngine kind.status (xportData p code)) :=
    (hstep t₂ _ rfl).trans (seqStep_answerFailure rfl rfl)
  obtain ⟨hframe, harb, horder, hresponses⟩ := failWrite_frame i t₂
  have hst₂ : EngineFrame s t₂ := ⟨rfl, rfl, rfl, rfl⟩
  refine ⟨t₁, t₂, _, hprimStep, rfl, by simp [t₁, ha], hrelease, rfl, rfl, hanswer,
    (hst₂.trans hframe).respondEngine hresponses _ _, harb, horder, ?_, fun hnt hnp => failWrite_eng_of_ne hnt hnp t₂⟩
  rintro (rfl | rfl) <;> rfl

/-! The start of an engine command that uses the bus (R76, R99, R101). -/

/-- SEQ's slot as command `i` starts its bus sequence: RDTEMP begins a new cycle (R116), and RDPRES goes on in it with the
mode and B5 of this moment (R127). -/
def Job.startOf (i : Instr) (e : Engine) : Job :=
  match i with
  | .rdtemp => { Job.start with walk := some .idle }
  | .rdpres => { Job.start with mode := e.oss, b5 := e.b5, walk := some .temperatureRead }
  | _ => .start

theorem acquireSeq_waits {s : State} (ho : s.arb.owner ≠ some .seq) (dev : DevAddr) (j : Job) :
    s.acquireSeq dev j =
      (({ s with ports.engBusy := true }).enqueue .seq (.explicit dev)).setJob { j with phase := .awaiting } := by
  simp [State.acquireSeq, ho]

theorem exec_acquireSeq {i : Instr} {s : State} (hn : s.ports.seq = none)
    (h : (i = .acqcal ∧ s.eng.src = 0) ∨ (i = .rdtemp ∧ s.eng.src = 0) ∨
      (i = .rdpres ∧ s.eng.src = 0 ∧ s.eng.stage = .temperatureRead) ∨ (∃ data, i = .acccfg data) ∨
      (∃ sel data, i = .magcfg sel data ∧ sel.toNat ≤ 2) ∨
      (i = .rdacc ∧ s.eng.accCtrl.extractLsb' 4 4 ≠ 0) ∨ i = .rdmag) :
    exec i s = .next (s.acquireSeq (seqDev i) (Job.startOf i s.eng)) := by
  rcases h with ⟨rfl, hsrc⟩ | ⟨rfl, hsrc⟩ | ⟨rfl, hsrc, hstage⟩ | ⟨data, rfl⟩ | ⟨sel, data, rfl, hsel⟩ | ⟨rfl, hon⟩ | rfl
  · simp [exec, execAcqcal, hn, hsrc, seqDev, Job.startOf]
  · simp [exec, execRdtemp, hn, hsrc, seqDev, Job.startOf]
  · simp [exec, execRdpres, hn, State.startPres, Engine.b5Valid, hsrc, hstage, seqDev, Job.startOf]
  · simp [exec, execAcccfg, hn, seqDev, Job.startOf]
  · simp [exec, execMagcfg, hn, hsel, seqDev, Job.startOf]
  · have hon : accPoweredOff s.eng.accCtrl = false := by simpa [accPoweredOff] using hon
    simp [exec, execRdacc, hn, hon, seqDev, Job.startOf]
  · simp [exec, execRdmag, hn, seqDev, Job.startOf]

theorem startOf_fresh (i : Instr) (e : Engine) :
    (Job.startOf i e).step = 0 ∧ (Job.startOf i e).reads = [] ∧ (Job.startOf i e).failure = none := by
  unfold Job.startOf
  split <;> exact ⟨rfl, rfl, rfl⟩

/-- The walk of a command that starts is where the cycle stands, but that RDTEMP begins a new one. -/
theorem startOf_walk {i : Instr} {e : Engine} (ht : i ≠ .rdtemp) (hp : i = .rdpres → e.stage = .temperatureRead) :
    (Job.startOf i e).walk.getD e.stage = e.stage := by
  unfold Job.startOf
  split
  · exact absurd rfl ht
  · exact (hp rfl).symm
  · rfl

/-- Settles O32: the command acquires the bus, which SEQ does not own. -/
theorem engineCommandAcquires : Obligations.EngineCommandAcquires := by
  intro i s hn ho h
  obtain ⟨hstep, hreads, hfail⟩ := startOf_fresh i s.eng
  have hstage : i = .rdpres → s.eng.stage = .temperatureRead := by
    rintro rfl
    exact (by simpa using h : s.eng.src = 0 ∧ s.eng.stage = .temperatureRead).2
  refine ⟨_, { Job.startOf i s.eng with phase := .awaiting },
    (exec_acquireSeq hn h).trans (congrArg _ (acquireSeq_waits ho _ _)), ⟨⟨rfl, rfl, rfl, rfl⟩, rfl, rfl, rfl⟩, rfl, rfl,
    hstep, hreads, hfail, ?_, rfl, waitKind_enqueue_self .seq (.explicit (seqDev i)) _,
    fun c hc => waitKind_enqueue_ne hc.symm (.explicit (seqDev i)) _, rfl, rfl, ?_, fun ht => startOf_walk ht hstage⟩
  · rintro rfl; exact ⟨rfl, rfl⟩
  · rintro rfl; rfl

end Sys2Proof.Machine
end

section
/-! PROOFS, family 40_bus_arbiter.md: RDTEMP and RDPRES from the grant (R99, R116, R121 to R123, R126 to R128, R135). -/

namespace Sys2Proof.Machine

/-! The shape of both readings: a trigger write, a wait with the bus held, a stretch of reads, the release. -/

/-- SEQ's slot after the trigger write. -/
def Job.triggered (j : Job) (st : Stage) : Job := { j with phase := .running, step := j.step + 1, walk := some st }

/-- SEQ's slot after the wait. -/
def Job.settled (j : Job) : Job := { j with phase := .running, step := j.step + 1 }

theorem seqOp_trigger {s : State} {x : Byte} (ha : s.nextAnswer = .ok x) (dev : DevAddr) (j : Job) (reg : RegAddr)
    (v : Byte) (st : Stage) :
    s.seqOp dev j (.trigger reg v st) = (s.transfer .seq (.write dev reg v)).setJob (j.triggered st) := by
  simp [State.seqOp, State.seqPrim, ha, Job.triggered]

/-- The wait, the reads `l` and the release, from the state after the trigger write `op`. -/
theorem execTimes_wait_reads_release {i : Instr} {dev : DevAddr} {list : Job → List SeqOp}
    {onRelease finish : Job → State → State} {onFail : State → State}
    (hi : ∀ s j, s.ports.seq = some j → exec i s = s.seqStep dev list onRelease finish onFail j)
    {s : State} {j : Job} {op : SeqOp} {ms : Nat} {l : List (RegAddr × Byte)} {rest : List Answer}
    (hj : s.ports.seq = some j) (ho : s.arb.owner = some .seq) (hp : j.phase = .running)
    (hstep : j.step = 1) (hf : j.failure = none)
    (hlist : ∀ j' : Job, j'.mode = j.mode → list j' = op :: .settle ms :: l.map fun p => .read p.1)
    (ha : s.out.answers = (l.map fun p => Answer.ok p.2) ++ rest) :
    execTimes i (1 + (l.length + 1)) s =
      .next (onRelease { j.settled.after l with phase := .offBus }
        (((s.setJob j.settled).afterReads dev j.settled l).release .seq)) := by
  have hwait : exec i s = .next (s.setJob j.settled) := by
    rw [hi s j hj, seqStep_op (op := .settle ms) ho (.inr hp) hf (by simp [hlist j rfl, hstep])]
    rfl
  have hreads : execTimes i l.length (s.setJob j.settled) = .next ((s.setJob j.settled).afterReads dev j.settled l) := by
    refine execTimes_reads (fun s j _ hj => hi s j hj) l _ j.settled rest rfl rfl ho (.inl rfl) hf
      (fun k hk j' hm _ _ => ?_) ha
    simp [hlist j' hm, Job.settled, hstep, Nat.add_comm _ k, hk]
  rw [execTimes_add (execTimes_one hwait), execTimes_add hreads]
  refine execTimes_one ?_
  rw [hi ((s.setJob j.settled).afterReads dev j.settled l) (j.settled.after l) rfl]
  refine seqStep_release ho (.inr rfl) hf ?_
  rw [hlist (j.settled.after l) rfl]
  exact List.getElem?_eq_none (by simp [Job.after, Job.settled, hstep, Nat.add_comm 2])

/-- The end of a conversion that began at the grant: the bus is released, the bytes `f 0`, `f 1`, ... of the `n` reads stand
in SEQ's slot `j'`, and the trigger write of `v` and the reads have entered the transport order. -/
structure Conversion (s : State) (j : Job) (v x : Byte) (n : Nat) (f : Nat → Byte) (j' : Job) (t : State) : Prop where
  phase : j'.phase = .offBus
  failure : j'.failure = none
  mode : j'.mode = j.mode
  b5 : j'.b5 = j.b5
  byte : ∀ k, k < n → j'.byte (regAt (0xF6 + k)) = f k
  frame : EngineFrame s t
  responses : t.out.responses = s.out.responses
  arb : t.arb = released s.arb
  eng : t.eng = s.eng
  order : t.out.order = .release .seq ::
    (((readRun 0xF6 n f).map fun p => .prim .seq (.read Config.baroAddr p.1) (.ok p.2)).reverse ++
      .prim .seq (.write Config.baroAddr 0xF4 v) (.ok x) :: s.out.order)

theorem Conversion.setJob {s t : State} {j j' : Job} {v x : Byte} {n : Nat} {f : Nat → Byte}
    (h : Conversion s j v x n f j' t) (k : Job) : Conversion s j v x n f j' (t.setJob k) :=
  { h with frame := ⟨h.frame.pend, h.frame.events, h.frame.ticks, h.frame.actPort⟩ }

/-- From the grant, a command whose list is a conversion performs it, in one step up to the trigger write and the rest up to
the release. -/
theorem exists_conversion {i : Instr} {list : Job → List SeqOp} {onRelease finish : Job → State → State}
    {onFail : State → State}
    (hi : ∀ s j, s.ports.seq = some j → exec i s = s.seqStep Config.baroAddr list onRelease finish onFail j)
    {s : State} {j : Job} {v x : Byte} {st : Stage} {ms n : Nat} {f : Nat → Byte} {rest : List Answer} (hn : n ≤ 10)
    (hlist : ∀ j' : Job, j'.mode = j.mode →
      list j' = .trigger 0xF4 v st :: .settle ms :: (readRun 0xF6 n f).map fun p => .read p.1)
    (hg : SeqGranted s Config.baroAddr j)
    (ha : s.out.answers = .ok x :: ((readRun 0xF6 n f).map fun p => Answer.ok p.2) ++ rest) :
    ∃ u j' t, exec i s = .next u ∧ u.stageNow = st ∧ u.arb = s.arb ∧ u.eng = s.eng ∧
      execTimes i (n + 2) u = .next (onRelease j' t) ∧ Conversion s j v x n f j' t := by
  have hx : s.nextAnswer = .ok x := by simp [State.nextAnswer, ha]
  have htrigger : exec i s = .next ((s.transfer .seq (.write Config.baroAddr 0xF4 v)).setJob (j.triggered st)) := by
    rw [hi s j hg.seq, seqStep_op hg.owner (.inl hg.phase) hg.failure (by rw [hg.step, hlist j rfl]; rfl),
      seqOp_trigger hx]
  have hrest := execTimes_wait_reads_release hi (j := j.triggered st)
    (s := (s.transfer .seq (.write Config.baroAddr 0xF4 v)).setJob (j.triggered st)) rfl hg.owner rfl
    (congrArg (· + 1) hg.step) hg.failure hlist (rest := rest) (by simp [ha])
  rw [readRun_length, show 1 + (n + 1) = n + 2 by omega] at hrest
  refine ⟨_, _, _, htrigger, rfl, rfl, rfl, hrest, ?_⟩
  exact
    { phase := rfl
      failure := hg.failure
      mode := rfl
      b5 := rfl
      byte := fun k hk => byte_after_readRun (j.triggered st).settled f (by omega) hk
      frame := ⟨rfl, rfl, rfl, rfl⟩
      responses := rfl
      arb := rfl
      eng := rfl
      order := by simp [State.afterReads, hx] }

/-! RDTEMP. -/

theorem exec_rdtemp_of_seq {s : State} {j : Job} (hj : s.ports.seq = some j) :
    exec .rdtemp s = s.seqStep Config.baroAddr (fun _ => rdtempList)
      (fun j s => s.setJob { j with walk := some .temperatureRead }) (fun j s => s.finishTemp (j.wordBE 0xF6))
      State.endCycle j := by
  simp [exec, execRdtemp, hj]

/-- With the raw temperature in hand, the step is the arithmetic and the response. -/
theorem exec_rdtemp_offBus {s : State} {j : Job} (hj : s.ports.seq = some j) (hp : j.phase = .offBus)
    (hf : j.failure = none) : exec .rdtemp s = .next (s.finishTemp (j.wordBE 0xF6)) := by
  rw [exec_rdtemp_of_seq hj, seqStep_finish hp hf]

theorem finishTemp_some {s : State} {ut : BitVec 16} {r : TempRegs} (h : temperature s.eng.cal ut = some r) :
    s.finishTemp ut = { s with eng := { s.eng with
      ut := ut, x1 := r.x1, x2 := r.x2, b5 := r.b5, t := r.t, stage := .temperatureRead,
      tempWritten := true } }.respondEngine .ok (zextData r.t) := by
  simp [State.finishTemp, h]

theorem finishTemp_none {s : State} {ut : BitVec 16} (h : temperature s.eng.cal ut = none) :
    s.finishTemp ut = { s with eng := { s.eng with stage := .idle } }.respondEngine .divZero 1 := by
  simp [State.finishTemp, h, State.endCycle]

/-- Settles O36: the conversion, and the arithmetic with its two ends. -/
theorem rdtempBusCompletes : Obligations.RdtempBusCompletes := by
  intro s j x hi lo rest hg ha
  obtain ⟨u₁, j', t, htrigger, hwalk, harb, heng, hconv, hc⟩ :=
    exists_conversion (i := .rdtemp) (n := 2) (f := fun k => [hi, lo].getD k 0) (fun _ _ => exec_rdtemp_of_seq)
      (by omega) (fun _ _ => rfl) hg ha
  generalize hk : ({ j' with walk := some .temperatureRead } : Job) = k at hconv
  have hword : k.wordBE 0xF6 = hi ++ lo := by
    subst hk
    exact congrArg₂ word16 (hc.byte 0 (by omega)) (hc.byte 1 (by omega))
  have hu := hc.setJob k
  have hseq := State.setJob_ports_seq k t
  generalize t.setJob k = u at hconv hu hseq
  have hfinish : exec .rdtemp u = .next (u.finishTemp (hi ++ lo)) := by
    rw [← hword]
    exact exec_rdtemp_offBus hseq (hk ▸ hc.phase) (hk ▸ hc.failure)
  refine ⟨u₁, u, htrigger, hwalk, harb, heng, hconv, by simp [State.stageNow, hseq, ← hk], hu.arb, hu.eng, ?_,
    fun r hr => ?_, fun hr => ?_⟩
  · rw [hu.order]
    simp [readRun, List.range_succ, regAt]
  · rw [← hu.eng] at hr ⊢
    exact ⟨_, hfinish.trans (congrArg _ (finishTemp_some hr)), hu.frame.commit hu.responses _ .ok _, rfl, rfl, rfl⟩
  · rw [← hu.eng] at hr ⊢
    exact ⟨_, hfinish.trans (congrArg _ (finishTemp_none hr)), hu.frame.commit hu.responses _ .divZero _, rfl, rfl, rfl⟩

/-! RDPRES. -/

theorem exec_rdpres_of_seq {s : State} {j : Job} (hj : s.ports.seq = some j) :
    exec .rdpres s = s.seqStep Config.baroAddr (fun j => rdpresList j.mode)
      (fun j s => s.holdRaw j
        (composeUp (j.byte (regAt 0xF6)) (j.byte (regAt 0xF7)) (j.byte (regAt 0xF8)) j.mode))
      State.finishPres State.endCycle j := by
  simp [exec, execRdpres, hj]

/-- R126's trigger byte, as a sum. -/
theorem pressureTrigger_eq (m : BitVec 2) : pressureTrigger m = BitVec.ofNat 8 (0x34 + m.toNat * 64) := by
  revert m
  decide

/-- With the raw pressure in hand, the step computes the pressure. -/
theorem exec_rdpres_raw {s : State} {j : Job} (hj : s.ports.seq = some j) (hp : j.phase = .offBus)
    (hf : j.failure = none) (hw : j.walk = some .pressureRead) : exec .rdpres s = .next (s.computePres j) := by
  simp [exec_rdpres_of_seq hj, seqStep_finish hp hf, State.finishPres, hp, hw]

/-- With the pressure computed, the step commits it. -/
theorem exec_rdpres_computed {s : State} {j : Job} {r : PresRegs} (hj : s.ports.seq = some j)
    (hp : j.phase = .computed r) (hf : j.failure = none) : exec .rdpres s = .next (s.commitPres j.up r) := by
  simp [exec_rdpres_of_seq hj, State.seqStep, hp, hf, State.finishPres]

theorem computePres_some {s : State} {j : Job} {r : PresRegs} (h : pressure s.eng.cal j.b5 j.up j.mode = some r) :
    s.computePres j = s.setJob { j with phase := .computed r, walk := some .compensated } := by
  unfold State.computePres
  rw [h]

theorem computePres_none {s : State} {j : Job} (h : pressure s.eng.cal j.b5 j.up j.mode = none) :
    s.computePres j = { s with eng := { s.eng with stage := .idle } }.respondEngine .divZero 2 := by
  unfold State.computePres
  rw [h]
  rfl

/-- Settles O39: the conversion, and the computation with its two ends. -/
theorem rdpresBusCompletes : Obligations.RdpresBusCompletes := by
  intro s j x msb lsb xlsb rest hg ha
  obtain ⟨u₁, j', t, htrigger, hwalk, harb, heng, hconv, hc⟩ :=
    exists_conversion (i := .rdpres) (n := 3) (f := fun k => [msb, lsb, xlsb].getD k 0) (fun _ _ => exec_rdpres_of_seq)
      (by omega) (fun _ hm => by rw [hm]; rfl) hg ha
  have hup : composeUp (j'.byte (regAt 0xF6)) (j'.byte (regAt 0xF7)) (j'.byte (regAt 0xF8)) j'.mode =
      composeUp msb lsb xlsb j.mode := by
    rw [hc.byte 0 (by omega), hc.byte 1 (by omega), hc.byte 2 (by omega), hc.mode]
    rfl
  rw [hup, State.holdRaw] at hconv
  generalize composeUp msb lsb xlsb j.mode = up at hconv ⊢
  generalize hk : ({ j' with phase := .offBus, up := up, walk := some .pressureRead } : Job) = k at hconv
  have hu := hc.setJob k
  have hseq := State.setJob_ports_seq k t
  generalize t.setJob k = u at hconv hu hseq
  have hcompute : exec .rdpres u = .next (u.computePres k) := by
    subst hk
    exact exec_rdpres_raw hseq rfl hc.failure rfl
  have hpressure : pressure u.eng.cal k.b5 k.up k.mode = pressure s.eng.cal j.b5 up j.mode := by
    rw [hu.eng, ← hk, ← hc.mode, ← hc.b5]
  refine ⟨u₁, u, htrigger, hwalk, harb, heng, hconv, by simp [State.stageNow, hseq, ← hk], hu.arb, hu.eng, ?_,
    fun r hr => ?_, fun hr => ?_⟩
  · rw [hu.order, pressureTrigger_eq]
    simp [readRun, List.range_succ, regAt]
  · rw [← hpressure] at hr
    have hv := hu.setJob { k with phase := .computed r, walk := some .compensated }
    refine ⟨_, _, hcompute.trans (congrArg _ (computePres_some hr)), rfl, rfl, hu.eng,
      exec_rdpres_computed rfl rfl (hk ▸ hc.failure), hv.frame.commit hv.responses _ .ok _, rfl, rfl, rfl, ?_⟩
    rw [← hu.eng, ← hk]
    rfl
  · rw [← hpressure] at hr
    rw [← hu.eng]
    exact ⟨_, hcompute.trans (congrArg _ (computePres_none hr)), hu.frame.commit hu.responses _ .divZero _, rfl, rfl, rfl⟩

end Sys2Proof.Machine
end

section
/-! PROOFS, family 40_bus_arbiter.md: CONFIG and TIMEOUT are never produced (R97, R100, R166). -/

namespace Sys2Proof.Machine

/-! The shared operations keep `NoReserved`. -/

/-- What `NoReserved` looks at. -/
theorem NoReserved.congr {s t : State} (h : NoReserved s) (hr : t.out.responses = s.out.responses)
    (hp : t.ports.pend = s.ports.pend) (hj : t.ports.seq = s.ports.seq) : NoReserved t where
  answered := hr ▸ h.answered
  inSlot := hp ▸ h.inSlot
  inSeq := hj ▸ h.inSeq

theorem NoReserved.respondPort {s : State} (h : NoReserved s) {st : Status} (hst : st.produced = true) (d : Data) :
    NoReserved (s.respondPort st d) where
  answered := List.forall_mem_cons.2 ⟨hst, h.answered⟩
  inSlot sl hsl := h.inSlot sl (mem_eraseKey.1 hsl).1
  inSeq := h.inSeq

theorem NoReserved.respondEngine {s : State} (h : NoReserved s) {st : Status} (hst : st.produced = true) (d : Data) :
    NoReserved (s.respondEngine st d) where
  answered := List.forall_mem_cons.2 ⟨hst, h.answered⟩
  inSlot := h.inSlot
  inSeq := nofun

/-- A response about to be given by a bus port is of a produced status. -/
def Phase.produced (ph : Phase) : Prop := ∀ st d, ph = .done st d → st.produced = true

theorem NoReserved.insertSlot {s : State} (h : NoReserved s) {sl : Slot} (hsl : sl.phase.produced) :
    NoReserved { s with ports.pend := insertKey Slot.port sl s.ports.pend } where
  answered := h.answered
  inSlot sl' hsl' := by
    rcases mem_insertKey hsl' with rfl | hsl'
    · exact hsl
    · exact h.inSlot sl' hsl'
  inSeq := h.inSeq

theorem NoReserved.setPhase {s : State} (h : NoReserved s) {ph : Phase} (hph : ph.produced) : NoReserved (s.setPhase ph) := by
  unfold State.setPhase
  split
  · exact h.insertSlot hph
  · exact h

/-- The failure SEQ keeps for its response is of a produced status. -/
def Job.produced (j : Job) : Prop := ∀ st d, j.failure = some (st, d) → st.produced = true

theorem NoReserved.setJob {s : State} (h : NoReserved s) {j : Job} (hj : j.produced) : NoReserved (s.setJob j) where
  answered := h.answered
  inSlot := h.inSlot
  inSeq j' hj' := by
    cases hj'
    exact hj

theorem NoReserved.transfer {s : State} (h : NoReserved s) (c : Requester) (p : Prim) : NoReserved (s.transfer c p) :=
  h.congr rfl rfl rfl

theorem NoReserved.retarget {s : State} (h : NoReserved s) (c : Requester) (a : DevAddr) : NoReserved (s.retarget c a) :=
  h.congr rfl rfl rfl

theorem NoReserved.enqueue {s : State} (h : NoReserved s) (c : Requester) (kind : WaitKind) :
    NoReserved (s.enqueue c kind) := h.congr rfl rfl rfl

theorem NoReserved.release {s : State} (h : NoReserved s) (c : Requester) : NoReserved (s.release c) :=
  h.congr rfl rfl rfl

theorem FailKind.status_produced (kind : FailKind) : kind.status.produced = true := by
  cases kind <;> rfl

/-! The bus-family commands. -/

theorem NoReserved.lastPrim {s : State} (h : NoReserved s) (p : Prim) (good : Byte → Data) :
    NoReserved (s.lastPrim p good) := by
  have ht := h.transfer s.self p
  rcases lastPrim_cases p good s with ⟨b, -, he⟩ | ⟨kind, code, -, he⟩ <;> rw [he]
  · exact ht.setPhase (by rintro _ _ ⟨⟩; rfl)
  · exact ht.setPhase (by rintro _ _ ⟨⟩; exact kind.status_produced)

theorem NoReserved.firstRead {s : State} (h : NoReserved s) (reg : RegAddr) : NoReserved (s.firstRead reg) := by
  have ht := h.transfer s.self (.read s.arb.activeAddr reg)
  rcases firstRead_cases reg s with ⟨b, -, he⟩ | ⟨kind, code, -, he⟩ <;> rw [he]
  · exact ht.setPhase nofun
  · exact ht.setPhase (by rintro _ _ ⟨⟩; exact kind.status_produced)

theorem NoReserved.withBus {s : State} (h : NoReserved s) (kind : WaitKind) {body : State → State}
    (hb : ∀ u, NoReserved u → NoReserved (body u)) : NoReserved (s.withBus kind body) := by
  rcases withBus_cases kind body s with ⟨-, -, -, he⟩ | ⟨a, -, -, -, he⟩ | ⟨-, -, he⟩ | ⟨-, -, -, -, he⟩ |
    ⟨-, -, -, he⟩ | ⟨-, -, he⟩ <;> rw [he]
  · exact hb s h
  · exact hb _ (h.retarget _ _)
  · exact hb s h
  · exact h.respondPort rfl 0
  · exact (h.enqueue _ _).setPhase nofun
  · exact h

/-- A response about to be given by the acting port is of a produced status. -/
theorem NoReserved.phase {s : State} (h : NoReserved s) : s.phase.produced := by
  intro st d hp
  unfold State.phase at hp
  split at hp
  · next sl hs => exact h.inSlot sl (slot_mem hs) st d hp
  · cases hp

theorem NoReserved.execBus {i : Instr} {s t : State} (h : NoReserved s) (hc : i.portClass = .bus)
    (hx : exec i s = .next t) : NoReserved t := by
  have release := h.release s.self
  cases i with
  | busBegin a => cases hx; exact h.withBus _ fun u hu => hu.respondPort rfl 0
  | busEnd =>
    cases hx
    split
    · exact release.respondPort rfl 0
    · exact h.respondPort rfl 0
  | rdb reg =>
    cases hx
    split
    · next st d hp => exact h.respondPort (h.phase st d hp) d
    · exact h.withBus _ fun u hu => hu.lastPrim _ _
  | rdw reg flip =>
    simp only [exec, execRdw] at hx
    split at hx
    · next st d hp => cases hx; exact h.respondPort (h.phase st d hp) d
    · obtain ⟨-, rfl⟩ := requireOwner_next.1 hx
      exact h.lastPrim _ _
    · cases hx; exact h.withBus _ fun u hu => hu.firstRead reg
  | wrb reg data =>
    cases hx
    split
    · next st d hp => exact h.respondPort (h.phase st d hp) d
    · exact h.withBus _ fun u hu => hu.lastPrim _ _
  | ldcfg a reg =>
    cases hx
    split
    · next st d hp => exact release.respondPort (h.phase st d hp) d
    · exact h.withBus _ fun u hu => hu.lastPrim _ _
  | stcfg a reg data =>
    cases hx
    split
    · next st d hp => exact release.respondPort (h.phase st d hp) d
    · exact h.withBus _ fun u hu => hu.lastPrim _ _
  | _ => cases hc

/-! The engine-family commands. -/

theorem NoReserved.acquireSeq {s : State} (h : NoReserved s) (dev : DevAddr) {j : Job} (hj : j.failure = none) :
    NoReserved (s.acquireSeq dev j) := by
  have hj (ph : SeqPhase) : Job.produced { j with phase := ph } := fun st d hf => by simp [hj] at hf
  have hbusy : NoReserved { s with ports.engBusy := true } := h.congr rfl rfl rfl
  rcases acquireSeq_cases dev j s with ⟨-, he⟩ | ⟨-, he⟩ <;> rw [he]
  · exact (hbusy.retarget .seq dev).setJob (hj _)
  · exact (hbusy.enqueue .seq _).setJob (hj _)

/-- A step of a begun bus sequence, from what the command's own parts of it keep. -/
theorem NoReserved.seqStep {s t : State} (h : NoReserved s) {j : Job} (hj : s.ports.seq = some j) {dev : DevAddr}
    {list : Job → List SeqOp} {onRelease finish : Job → State → State} {onFail : State → State}
    (hrel : ∀ j' u, j'.produced → NoReserved u → NoReserved (onRelease j' u)) (hfin : NoReserved (finish j s))
    (hfail : NoReserved (onFail s)) (hx : s.seqStep dev list onRelease finish onFail j = .next t) : NoReserved t := by
  have hjp : j.produced := h.inSeq j hj
  have release := h.release .seq
  rcases seqStep_cases hx with ⟨-, -, rfl⟩ | ⟨-, -, rfl⟩ | ⟨st, d, -, -, hf, rfl⟩ | ⟨-, -, -, rfl⟩
  · rcases seqOnBus_cases dev list onRelease j s with ⟨f, -, he⟩ | ⟨op, -, -, he⟩ | ⟨-, -, he⟩ <;> rw [he]
    · exact release.setJob hjp
    · obtain ⟨j', -, hf', -, hop⟩ := seqOp_cases dev j op s
      have hj' : j'.produced := by
        intro st d hst
        rcases hf' with hf' | ⟨kind, d', hf'⟩
        · exact hjp st d (hf' ▸ hst)
        · obtain ⟨rfl, -⟩ : kind.status = st ∧ d' = d := by simpa [hf'] using hst
          exact kind.status_produced
      rcases hop with ⟨p, -, -, he⟩ | he <;> rw [he]
      · exact (h.transfer .seq p).setJob hj'
      · exact h.setJob hj'
    · exact hrel _ _ hjp release
  · exact h
  · exact hfail.respondEngine (hjp st d hf) d
  · exact hfin

/-- A commit and its response. -/
theorem NoReserved.commit {s : State} (h : NoReserved s) (e : Engine) {st : Status} (hst : st.produced = true) (d : Data) :
    NoReserved ({ s with eng := e }.respondEngine st d) :=
  NoReserved.respondEngine (s := { s with eng := e }) (h.congr rfl rfl rfl) hst d

theorem NoReserved.finishTemp {s : State} (h : NoReserved s) (ut : BitVec 16) : NoReserved (s.finishTemp ut) := by
  unfold State.finishTemp
  split
  · exact h.commit { s.eng with stage := .idle } rfl 1
  · exact h.commit _ rfl _

theorem NoReserved.startPres {s : State} (h : NoReserved s) : NoReserved s.startPres := by
  unfold State.startPres
  split
  · split
    · exact NoReserved.setJob (s := { s with ports.engBusy := true }) (h.congr rfl rfl rfl) nofun
    · exact h.acquireSeq _ rfl
  · exact h.respondEngine rfl _

theorem NoReserved.finishPres {s : State} (h : NoReserved s) {j : Job} (hj : j.produced) : NoReserved (s.finishPres j) := by
  unfold State.finishPres
  split
  · exact h.commit _ rfl _
  · split
    · exact h.setJob hj
    · unfold State.computePres
      split
      · exact h.commit { s.eng with stage := .idle } rfl 2
      · exact h.setJob hj

theorem NoReserved.execEngine {i : Instr} {s t : State} (h : NoReserved s) (hc : i.portClass = .engine)
    (hx : exec i s = .next t) : NoReserved t := by
  have keep (j' : Job) (u : State) (hj : j'.produced) (hu : NoReserved u) : NoReserved (u.setJob j') := hu.setJob hj
  have endCycle : NoReserved s.endCycle := h.congr rfl rfl rfl
  cases i with
  | setoss m => cases hx; exact h.commit _ rfl 0
  | setsrc m => cases hx; exact h.commit _ rfl 0
  | injut m => cases hx; exact h.commit _ rfl 0
  | injup m => cases hx; exact h.commit _ rfl 0
  | wrcal sel imm =>
    cases hx
    split
    · exact h.commit _ rfl 0
    · exact h.respondEngine rfl _
  | rdreg sel =>
    cases hx
    split
    · split
      · exact h.respondEngine rfl _
      · exact NoReserved.respondEngine (s := s.draw) (h.congr rfl rfl rfl) rfl _
    · exact h.respondEngine rfl _
  | acqcal =>
    simp only [exec, execAcqcal] at hx
    split at hx
    · cases hx
      split
      · exact h.commit _ rfl 0
      · exact h.acquireSeq _ rfl
    · next j hj => exact h.seqStep hj keep (h.commit _ rfl 0) h hx
  | rdtemp =>
    simp only [exec, execRdtemp] at hx
    split at hx
    · cases hx
      split
      · exact h.finishTemp _
      · exact h.acquireSeq _ rfl
    · next j hj =>
      refine h.seqStep hj (fun j' u hj' hu => ?_) (h.finishTemp _) endCycle hx
      exact hu.setJob hj'
  | rdpres =>
    simp only [exec, execRdpres] at hx
    split at hx
    · cases hx; exact h.startPres
    · next j hj =>
      refine h.seqStep hj (fun j' u hj' hu => ?_) (h.finishPres (h.inSeq j hj)) endCycle hx
      exact hu.setJob hj'
  | acccfg data =>
    simp only [exec, execAcccfg] at hx
    split at hx
    · cases hx; exact h.acquireSeq _ rfl
    · next j hj => exact h.seqStep hj keep (h.commit _ rfl 0) h hx
  | magcfg sel data =>
    simp only [exec, execMagcfg] at hx
    split at hx
    · cases hx
      split
      · exact h.acquireSeq _ rfl
      · exact h.respondEngine rfl _
    · next j hj => exact h.seqStep hj keep (h.respondEngine rfl 0) h hx
  | rdacc =>
    simp only [exec, execRdacc] at hx
    split at hx
    · cases hx
      split
      · exact h.respondEngine rfl _
      · exact h.acquireSeq _ rfl
    · next j hj => exact h.seqStep hj keep (h.respondEngine rfl _) h hx
  | rdmag =>
    simp only [exec, execRdmag] at hx
    split at hx
    · cases hx; exact h.acquireSeq _ rfl
    · next j hj => exact h.seqStep hj keep (h.respondEngine rfl _) h hx
  | _ => cases hc

/-! Every move. -/

theorem NoReserved.accept {s : State} (h : NoReserved s) (p : Port) (w : Word) : NoReserved (s.accept p w) := by
  rcases accept_cases p w s with he | ⟨n, -, -, -, he⟩ | ⟨-, -, he⟩ <;> rw [he]
  · exact h
  · exact h.insertSlot nofun
  · exact h.congr rfl rfl rfl

theorem NoReserved.advancePort {s t : State} (h : NoReserved s) {n : Nat} (hx : advancePort n s = .next t) :
    NoReserved t := by
  have hact : NoReserved (s.actAs n) := h.congr rfl rfl rfl
  rcases advancePort_cases hx with ⟨-, rfl⟩ | ⟨sl, e, -, -, rfl⟩ | ⟨sl, i, -, hd, hx⟩
  · exact h
  · exact hact.respondPort rfl _
  · exact hact.execBus (decode_class hd) hx

theorem NoReserved.advanceSeq {s t : State} (h : NoReserved s) (hx : advanceSeq s = .next t) : NoReserved t := by
  rcases advanceSeq_cases hx with ⟨-, rfl⟩ | ⟨w, e, -, -, rfl⟩ | ⟨w, i, -, hd, hx⟩
  · exact h
  · exact h.respondEngine rfl _
  · exact h.execEngine (decode_class hd) hx

/-- Settles O53: each kind of move keeps `NoReserved`. -/
theorem reservedStatusesNotProduced : Obligations.ReservedStatusesNotProduced := by
  intro s t h hx
  have hdrop : NoReserved s.dropEvent := h.congr (by simp) (by simp) (by simp)
  rcases step_cases hx with ⟨p, w, -, rfl⟩ | ⟨n, -, hx⟩ | ⟨-, hx⟩ | ⟨c, -, rfl⟩ | ⟨-, rfl⟩
  · exact hdrop.accept p w
  · exact hdrop.advancePort hx
  · exact hdrop.advanceSeq hx
  · exact hdrop.congr (by simp) (by simp) (by simp)
  · exact ⟨hdrop.answered, nofun, nofun⟩

end Sys2Proof.Machine
end

section
/-! PROOFS, family 41_engine_config.md. When an engine command commits registers (R101, R177), and the commands that
complete in one step with no bus access: the setters (R106 to R110), ACQCAL and RDTEMP with SRC = 1 (R103, R104, R112). -/

namespace Sys2Proof.Machine

/-- Settles O49: of the effects of an engine command's step, the response alone writes registers. -/
theorem errorsCommitNothing : Obligations.ErrorsCommitNothing := by
  intro i s t hc hx
  cases exec_engine hc hx with
  | stay | offBus | prim | release | retarget | wait => exact ⟨fun _ => rfl, fun _ _ _ => .inl rfl⟩
  | respond e n st d he =>
    refine ⟨fun h => absurd h (List.cons_ne_self _ _), fun r hr hne => ?_⟩
    obtain ⟨rfl, -⟩ := List.cons.inj hr
    exact he.resolve_left hne

/-- A step that commits the registers `e` and answers OK, with DATA 0, does nothing else. -/
theorem commit_completes (s : State) (e : Engine) :
    ∃ t, Host.Outcome.next (φ := Fault) (ρ := Refusal) ({ s with eng := e }.respondEngine .ok 0) = .next t ∧
      EngineAnswered s t .ok 0 ∧ t.arb = s.arb ∧ t.out.order = s.out.order ∧ t.eng = e :=
  ⟨_, rfl, (EngineFrame.refl s).commit rfl e .ok 0, rfl, rfl, rfl⟩

/-- Settles O25: each of the four is a commit, in every state. -/
theorem settersComplete : Obligations.SettersComplete :=
  ⟨fun s mode => commit_completes s { s.eng with oss := mode },
    fun s src => commit_completes s { s.eng with src := src, stage := .idle },
    fun s imm => commit_completes s { s.eng with injUt := imm },
    fun s imm => commit_completes s { s.eng with injUp := imm }⟩

theorem exec_acqcal_injected {s : State} (hseq : s.ports.seq = none) (hsrc : s.eng.src = 1) :
    exec .acqcal s = .next (s.commitCal calDefault) := by
  simp [exec, execAcqcal, hseq, hsrc]

/-- Settles O33: with SRC = 1 ACQCAL is the commit of CAL_DEFAULT. -/
theorem acqcalInjectedCompletes : Obligations.AcqcalInjectedCompletes := by
  intro s hseq hsrc
  rw [exec_acqcal_injected hseq hsrc]
  exact commit_completes s { s.eng with cal := calDefault, stage := .idle }

theorem exec_rdtemp_injected {s : State} (hseq : s.ports.seq = none) (hsrc : s.eng.src = 1) :
    exec .rdtemp s = .next (s.finishTemp s.eng.injUt) := by
  simp [exec, execRdtemp, hseq, hsrc]

/-- Settles O46: both steps commit, or fail by, the temperature of the one LUT and the one raw word. -/
theorem rdtempDeterministic : Obligations.RdtempDeterministic := by
  intro s s' hseq hseq' hsrc hsrc' hcal hut
  rw [exec_rdtemp_injected hseq hsrc, exec_rdtemp_injected hseq' hsrc', ← hut]
  cases h : temperature s.eng.cal s.eng.injUt with
  | none =>
    rw [finishTemp_none h, finishTemp_none (hcal ▸ h)]
    exact ⟨_, _, .divZero, 1, rfl, rfl, (EngineFrame.refl s).commit rfl _ _ _, (EngineFrame.refl s').commit rfl _ _ _,
      nofun⟩
  | some r =>
    rw [finishTemp_some h, finishTemp_some (hcal ▸ h)]
    exact ⟨_, _, .ok, zextData r.t, rfl, rfl, (EngineFrame.refl s).commit rfl _ _ _,
      (EngineFrame.refl s').commit rfl _ _ _, fun _ => ⟨rfl, rfl, rfl, rfl, rfl⟩⟩

end Sys2Proof.Machine
end

section
/-! PROOFS, family 42_temperature.md. The temperature stage is exact (R117, R119), its vectors with the pressure stage's
(L1.1, V-P), and RDTEMP with SRC = 1 (R116, R121). -/

namespace Sys2Proof.Machine

/-! Quotients and wraps of bounded integers. -/

theorem abs_fdiv_le_abs (a b : Int) : |fdiv a b| ≤ |a| := by
  obtain ⟨d, rfl | rfl⟩ := b.eq_nat_or_neg
  · rw [fdiv, Int.fdiv_eq_ediv_of_nonneg a d.cast_nonneg]
    exact Int.abs_ediv_le_abs a d
  · rw [fdiv, ← Int.neg_fdiv_neg, neg_neg, Int.fdiv_eq_ediv_of_nonneg (-a) d.cast_nonneg]
    simpa using Int.abs_ediv_le_abs (-a) d

/-- A bound of the dividend, in units of the divisor, bounds the floor of the quotient. -/
theorem abs_fdiv_le {a b n : Int} (hb : 0 < b) (h : |a| ≤ n * b) : |fdiv a b| ≤ n := by
  rw [fdiv, Int.fdiv_eq_ediv_of_nonneg a hb.le]
  obtain ⟨hlo, hhi⟩ := abs_le.1 h
  exact abs_le.2 ⟨Int.le_ediv_of_mul_le hb (by linarith), Int.ediv_le_of_le_mul hb hhi⟩

/-- No wrap (R8) changes an integer bounded below 2^31. -/
theorem w32_exact {x n : Int} (h : |x| ≤ n) (hn : n < 2 ^ 31) : w32 x = x ∧ |w32 x| ≤ n := by
  obtain ⟨hlo, hhi⟩ := abs_le.1 h
  have hx : w32 x = x := by
    unfold w32
    omega
  exact ⟨hx, hx.symm ▸ h⟩

theorem w32_w32 (x : Int) : w32 (w32 x) = w32 x := by
  unfold w32
  omega

/-! No assignment of `temperature` wraps (R119). -/

theorem abs_toInt16_le (v : BitVec 16) : |v.toInt| ≤ 2 ^ 15 :=
  abs_le.2 ⟨v.le_toInt, v.toInt_lt.le⟩

theorem tempX1_exact (c : Calib) (ut : BitVec 16) :
    tempX1 c ut = fdiv (((ut.toNat : Int) - c.AC6) * c.AC5) 32768 ∧ |tempX1 c ut| ≤ 2 ^ 17 := by
  have hdiff : |(ut.toNat : Int) - c.AC6| ≤ 2 ^ 16 := by
    rw [Calib.AC6, abs_le]
    omega
  have hAC5 : |c.AC5| ≤ 2 ^ 16 := by
    rw [Calib.AC5, abs_le]
    omega
  refine w32_exact (abs_fdiv_le (by decide) ?_) (by decide)
  calc |((ut.toNat : Int) - c.AC6) * c.AC5| = |(ut.toNat : Int) - c.AC6| * |c.AC5| := abs_mul _ _
    _ ≤ 2 ^ 16 * 2 ^ 16 := by gcongr
    _ = 2 ^ 17 * 32768 := by norm_num

theorem tempX2_exact (c : Calib) (ut : BitVec 16) :
    tempX2 c ut = fdiv (c.MC * 2048) (tempDen c ut) ∧ |tempX2 c ut| ≤ 2 ^ 26 := by
  refine w32_exact ((abs_fdiv_le_abs _ _).trans ?_) (by decide)
  have hMC : |c.MC| ≤ 2 ^ 15 := abs_toInt16_le c.mc
  rw [abs_mul, show |(2048 : Int)| = 2048 from rfl]
  omega

/-- R119's bound of B5, as the sum of those of X1 and X2, which T's bound needs. -/
theorem tempB5_exact (c : Calib) (ut : BitVec 16) :
    tempB5 c ut = tempX1 c ut + tempX2 c ut ∧ |tempB5 c ut| ≤ 2 ^ 17 + 2 ^ 26 :=
  w32_exact ((abs_add_le _ _).trans (add_le_add (tempX1_exact c ut).2 (tempX2_exact c ut).2)) (by decide)

theorem tempT_exact (c : Calib) (ut : BitVec 16) :
    tempT c ut = fdiv (tempB5 c ut + 8) 16 ∧ |tempT c ut| ≤ 2 ^ 23 - 1 := by
  refine w32_exact (abs_fdiv_le (by decide) ?_) (by decide)
  obtain ⟨hlo, hhi⟩ := abs_le.1 (tempB5_exact c ut).2
  rw [abs_le]
  omega

/-! What `temperature` answers (R117). -/

theorem temperature_eq_none_iff {c : Calib} {ut : BitVec 16} : temperature c ut = none ↔ tempX1 c ut + c.MD = 0 := by
  unfold temperature tempDen
  split <;> simpa

/-- The registers read back as the integers assigned. -/
theorem temperature_toInt {c : Calib} {ut : BitVec 16} {r : TempRegs} (h : temperature c ut = some r) :
    r.x1.toInt = tempX1 c ut ∧ r.x2.toInt = tempX2 c ut ∧ r.b5.toInt = tempB5 c ut ∧ r.t.toInt = tempT c ut := by
  obtain ⟨-, ⟨⟩⟩ := Option.ite_none_left_eq_some.1 h
  simp [pattern32_toInt, tempX1, tempX2, tempB5, tempT, w32_w32]

/-- Settles O28: each assignment is exact, and `fdiv` is the rational floor. -/
theorem temperatureExact : Obligations.TemperatureExact := by
  intro c ut x1
  obtain ⟨hx1, hx1le⟩ := tempX1_exact c ut
  obtain ⟨hx2, hx2le⟩ := tempX2_exact c ut
  obtain ⟨hb5, hb5le⟩ := tempB5_exact c ut
  obtain ⟨ht, htle⟩ := tempT_exact c ut
  have hfloor : tempX1 c ut = x1 := by
    rw [hx1, fdiv_eq_floor]
    simp only [x1]
    norm_num
  refine ⟨hfloor ▸ temperature_eq_none_iff, fun r hr => ?_⟩
  obtain ⟨hrx1, hrx2, hrb5, hrt⟩ := temperature_toInt hr
  rw [hrx1, hrx2, hrb5, hrt]
  refine ⟨hfloor, ?_, hb5, ?_, hx1le, hx2le, by omega, by omega⟩
  · rw [hx2, fdiv_eq_floor, tempDen, hfloor]
    norm_num
  · rw [ht, fdiv_eq_floor]
    norm_num

/-! The vectors of 95_test_vectors.md. -/

/-- Settles O31, by evaluation of the two stages on each vector. -/
theorem goldenVectors : Obligations.GoldenVectors := by
  unfold Obligations.GoldenVectors
  decide

/-! RDTEMP with SRC = 1. -/

/-- Settles O35: the one step is the arithmetic on INJ_UT with its two ends. -/
theorem rdtempInjectedCompletes : Obligations.RdtempInjectedCompletes := by
  intro s hseq hsrc
  refine ⟨_, exec_rdtemp_injected hseq hsrc, ?_⟩
  cases h : temperature s.eng.cal s.eng.injUt with
  | none =>
    rw [finishTemp_none h]
    exact ⟨rfl, rfl, nofun, fun _ => ⟨(EngineFrame.refl s).commit rfl _ _ _, rfl⟩⟩
  | some r =>
    rw [finishTemp_some h]
    refine ⟨rfl, rfl, ?_, nofun⟩
    rintro _ ⟨⟩
    exact ⟨(EngineFrame.refl s).commit rfl _ _ _, rfl⟩

end Sys2Proof.Machine
end

section
/-! PROOFS, family 43_pressure.md. The raw pressure is composed exactly (R128), the pressure stage assigns the integers of
R129 to R132, and RDPRES off the bus: the stage check (R134), and the walk with SRC = 1 (R126, R127, R131, R135). -/

namespace Sys2Proof.Machine

/-! The composed raw pressure (R128). -/

/-- Of the triple's 24 bits, the shift leaves the upper 16 + m. -/
theorem triple_div_lt (msb lsb xlsb : Byte) (m : BitVec 2) :
    (msb.toNat * 65536 + lsb.toNat * 256 + xlsb.toNat) / 2 ^ (8 - m.toNat) < 2 ^ (16 + m.toNat) := by
  have hsplit : 2 ^ (8 - m.toNat) * 2 ^ (16 + m.toNat) = 16777216 := by
    rw [← pow_add, show 8 - m.toNat + (16 + m.toNat) = 24 by omega]
    norm_num
  apply Nat.div_lt_of_lt_mul
  omega

theorem composeUp_toNat (msb lsb xlsb : Byte) (m : BitVec 2) :
    (composeUp msb lsb xlsb m).toNat = (msb.toNat * 65536 + lsb.toNat * 256 + xlsb.toNat) / 2 ^ (8 - m.toNat) := by
  rw [composeUp, BitVec.toNat_ofNat]
  refine Nat.mod_eq_of_lt ((triple_div_lt msb lsb xlsb m).trans_le ?_)
  exact Nat.pow_le_pow_right (by decide) (by omega)

/-- Settles O29: the 19 bits hold the whole quotient, which is the floor. -/
theorem composeUpExact : Obligations.ComposeUpExact := by
  intro msb lsb xlsb m
  rw [composeUp_toNat]
  refine ⟨?_, triple_div_lt msb lsb xlsb m⟩
  exact_mod_cast (Rat.floor_natCast_div_natCast _ _).symm

/-! The pressure stage (R129 to R132). -/

theorem u32_u32 (x : Int) : u32 (u32 x) = u32 x := Int.emod_emod x _

theorem pressure_eq_none_iff {c : Calib} {b5 : Reg32} {up : BitVec 19} {m : BitVec 2} :
    pressure c b5 up m = none ↔ (presPart2 c (presPart1 c b5.toInt m) up.toNat m).b4 = 0 := by
  simp [pressure]

/-- The registers read back as the integers assigned, B4 and B7 as unsigned ones. -/
theorem pressure_toInt {c : Calib} {b5 : Reg32} {up : BitVec 19} {m : BitVec 2} {r : PresRegs}
    (h : pressure c b5 up m = some r) :
    let q1 := presPart1 c b5.toInt m
    let q2 := presPart2 c q1 up.toNat m
    let q4 := presPart4 (presQuotient q2.b4 q2.b7)
    r.b6.toInt = q1.b6 ∧ r.b3.toInt = q1.b3 ∧ r.x3.toInt = q2.x3 ∧ (r.b4.toNat : Int) = q2.b4 ∧
      (r.b7.toNat : Int) = q2.b7 ∧ r.x1.toInt = q4.x1 ∧ r.x2.toInt = q4.x2 ∧ r.p.toInt = q4.p := by
  obtain ⟨-, ⟨⟩⟩ := Option.ite_none_left_eq_some.1 h
  simp only [pattern32_toInt, pattern32_toNat]
  exact ⟨w32_w32 _, w32_w32 _, w32_w32 _, u32_u32 _, u32_u32 _, w32_w32 _, w32_w32 _, w32_w32 _⟩

/-- Settles O30: the integers are those of the model's parts, part by part. -/
theorem pressureFormula : Obligations.PressureFormula := by
  intro c b5 up m
  let q1 := presPart1 c b5.toInt m
  let q2 := presPart2 c q1 up.toNat m
  refine ⟨q1.b6, q1.b3, q2.x3, q2.b4, q2.b7, presQuotient q2.b4 q2.b7, rfl, ?b3, ?x3, ?b4, ?b7, rfl,
    pressure_eq_none_iff, fun r hr => ?regs⟩
  case b3 => simp [q1, presPart1, shl]
  case x3 => simp [q2, presPart2]
  case b4 => simp [q2, presPart2]
  case b7 => simp [q2, presPart2]
  case regs =>
    obtain ⟨hb6, hb3, hx3, hb4, hb7, hx1, hx2, hp⟩ := pressure_toInt hr
    rw [hx1, hx2, hp]
    exact ⟨hb6, hb3, hx3, hb4, hb7, rfl, rfl, rfl⟩

/-! RDPRES off the bus (R126, R127, R134). -/

theorem Engine.b5Valid_iff_code {e : Engine} : e.b5Valid = true ↔ e.stage.code = 2 := by
  unfold Engine.b5Valid
  cases e.stage <;> decide

theorem exec_rdpres_of_seq_none {s : State} (hseq : s.ports.seq = none) : exec .rdpres s = .next s.startPres := by
  simp [exec, execRdpres, hseq]

/-- Settles O37: without a valid B5 the first step is the error response alone. -/
theorem rdpresStageOrder : Obligations.RdpresStageOrder := by
  intro s hseq hstage
  have hstart : s.startPres = s.respondEngine .stageOrder (zextData s.eng.stage.code) :=
    if_neg (mt Engine.b5Valid_iff_code.1 hstage)
  rw [exec_rdpres_of_seq_none hseq, hstart]
  exact ⟨_, rfl, (EngineFrame.refl s).respondEngine rfl _ _, rfl, rfl, rfl⟩

/-- SEQ's slot after RDPRES's first step with SRC = 1: it samples as with the bus, and PressureRequested comes at once
(R127). -/
def Job.requested (e : Engine) : Job :=
  { Job.startOf .rdpres e with phase := .offBus, walk := some .pressureRequested }

/-- SEQ's slot with the raw pressure in hand. -/
def Job.withRaw (j : Job) (up : BitVec 19) : Job := { j with phase := .offBus, up := up, walk := some .pressureRead }

/-- RDPRES's first step with SRC = 1. -/
def State.requestPres (s : State) : State := ({ s with ports.engBusy := true }).setJob (Job.requested s.eng)

theorem EngineFrame.setJob {s t : State} (h : EngineFrame s t) (j : Job) : EngineFrame s (t.setJob j) :=
  ⟨h.pend, h.events, h.ticks, h.actPort⟩

theorem EngineFrame.requestPres (s : State) : EngineFrame s s.requestPres := ⟨rfl, rfl, rfl, rfl⟩

theorem exec_rdpres_injected {s : State} (hseq : s.ports.seq = none) (hstage : s.eng.stage = .temperatureRead)
    (hsrc : s.eng.src = 1) : exec .rdpres s = .next s.requestPres := by
  simp [exec_rdpres_of_seq_none hseq, State.startPres, Engine.b5Valid, hstage, hsrc, State.requestPres, Job.requested,
    Job.startOf]

/-- Off the bus with the pressure requested, the step takes UP from INJ_UP, with no shift (R128). -/
theorem exec_rdpres_requested {s : State} {j : Job} (hj : s.ports.seq = some j) (hp : j.phase = .offBus)
    (hf : j.failure = none) (hw : j.walk = some .pressureRequested) :
    exec .rdpres s = .next (s.setJob (j.withRaw s.eng.injUp)) := by
  simp [exec_rdpres_of_seq hj, seqStep_finish hp hf, State.finishPres, hp, hw, State.holdRaw, Job.withRaw]

/-- Settles O38: request, raw pressure and computation are a step each, then the commit. -/
theorem rdpresInjectedCompletes : Obligations.RdpresInjectedCompletes := by
  intro s hseq hstage hsrc
  have hframe := (EngineFrame.requestPres s).setJob ((Job.requested s.eng).withRaw s.eng.injUp)
  refine ⟨_, _, _, exec_rdpres_injected hseq hstage hsrc, rfl, rfl, exec_rdpres_requested rfl rfl rfl rfl, rfl, rfl,
    exec_rdpres_raw rfl rfl rfl rfl, fun r hr => ?_, fun hr => ?_⟩
  · rw [computePres_some (r := r)]
    · exact ⟨rfl, rfl, _, exec_rdpres_computed rfl rfl rfl, (hframe.setJob _).commit rfl _ .ok _, rfl, rfl, rfl, rfl⟩
    · exact hr
  · rw [computePres_none]
    · exact ⟨hframe.commit rfl _ .divZero _, rfl, rfl, rfl⟩
    · exact hr

end Sys2Proof.Machine
end

section
/-! PROOFS, family 44_multi_axis_client.md: ACCCFG and MAGCFG (R151, R153, R154), RDACC and RDMAG (R152, R155 to R158) from
the grant. -/

namespace Sys2Proof.Machine

/-! The two shapes of a client transaction: one write, or a list of reads; then the release and the response. -/

/-- SEQ's slot after a write. -/
def Job.wrote (j : Job) : Job := { j with phase := .running, step := j.step + 1 }

/-- SEQ's slot after the release. -/
def Job.leftBus (j : Job) : Job := { j with phase := .offBus }

/-- The state after SEQ has performed one write at `dev`, answered ok. -/
def State.afterWrite (dev : DevAddr) (reg : RegAddr) (v : Byte) (j : Job) (s : State) : State :=
  (s.transfer .seq (.write dev reg v)).setJob j.wrote

/-- SEQ between the release and the response, after a sequence that ended with `j` in its slot. -/
def State.offBus (j : Job) (s : State) : State := (s.release .seq).setJob j.leftBus

theorem EngineFrame.afterWrite (dev : DevAddr) (reg : RegAddr) (v : Byte) (j : Job) (s : State) :
    EngineFrame s (s.afterWrite dev reg v j) := ⟨rfl, rfl, rfl, rfl⟩

theorem EngineFrame.afterReads (dev : DevAddr) (j : Job) (l : List (RegAddr × Byte)) (s : State) :
    EngineFrame s (s.afterReads dev j l) := ⟨rfl, rfl, rfl, rfl⟩

theorem EngineFrame.offBus {s u : State} (h : EngineFrame s u) (j : Job) : EngineFrame s (u.offBus j) :=
  ⟨h.pend, h.events, h.ticks, h.actPort⟩

theorem seqOp_write {s : State} {x : Byte} (ha : s.nextAnswer = .ok x) (dev : DevAddr) (j : Job) (reg : RegAddr)
    (v : Byte) : s.seqOp dev j (.write reg v) = s.afterWrite dev reg v j := by
  simp [State.seqOp, State.seqPrim, ha, State.afterWrite, Job.wrote]

section
variable {i : Instr} {dev : DevAddr} {finish : Job → State → State} {onFail : State → State} {s : State} {j : Job}

/-- From the grant, a command whose list is one write performs it, releases the bus and goes to its work off the bus. -/
theorem exec_write_release_finish {reg : RegAddr} {v x : Byte}
    (hi : ∀ s j, s.ports.seq = some j →
      exec i s = s.seqStep dev (fun _ => [.write reg v]) State.setJob finish onFail j)
    (hg : SeqGranted s dev j) (ha : s.nextAnswer = .ok x) :
    exec i s = .next (s.afterWrite dev reg v j) ∧
    exec i (s.afterWrite dev reg v j) = .next ((s.afterWrite dev reg v j).offBus j.wrote) ∧
    exec i ((s.afterWrite dev reg v j).offBus j.wrote) =
      .next (finish j.wrote.leftBus ((s.afterWrite dev reg v j).offBus j.wrote)) := by
  refine ⟨?_, ?_, (hi _ _ rfl).trans (seqStep_finish rfl hg.failure)⟩
  · rw [hi s j hg.seq, seqStep_op hg.owner (.inl hg.phase) hg.failure (by rw [hg.step]; rfl), seqOp_write ha]
  · exact (hi _ _ rfl).trans
      (seqStep_release hg.owner (.inr rfl) hg.failure (List.getElem?_eq_none (by simp [Job.wrote])))

/-- From the grant, a command whose list is the reads `l` performs them, releases the bus and goes to its work off the bus.
The list may depend on the engine's registers `s.eng` and on the bytes read so far. -/
theorem exec_reads_release_finish {list : Job → List SeqOp}
    (hi : ∀ u j, u.eng = s.eng → u.ports.seq = some j → exec i u = u.seqStep dev list State.setJob finish onFail j)
    (hg : SeqGranted s dev j) {l : List (RegAddr × Byte)} (hl : l ≠ [])
    (hlist : ∀ k j', k ≤ l.length → j'.reads = (l.take k).reverse → (list j')[k]? = (l.map fun p => .read p.1)[k]?)
    {rest : List Answer} (ha : s.out.answers = (l.map fun p => Answer.ok p.2) ++ rest) :
    execTimes i (l.length + 1) s = .next ((s.afterReads dev j l).offBus (j.after l)) ∧
    exec i ((s.afterReads dev j l).offBus (j.after l)) =
      .next (finish (j.after l).leftBus ((s.afterReads dev j l).offBus (j.after l))) := by
  have hreads : execTimes i l.length s = .next (s.afterReads dev j l) := by
    refine execTimes_reads (e := s.eng) hi l s j rest rfl hg.seq hg.owner (.inr ⟨hg.phase, hl⟩) hg.failure
      (fun k hk j' _ _ hr => ?_) ha
    rw [hg.step, Nat.zero_add, hlist k j' hk.le (by rw [hr, hg.reads, List.append_nil])]
    simp [hk]
  have hdone : (list (j.after l))[(j.after l).step]? = none := by
    have hstep : (j.after l).step = l.length := by simp [Job.after, hg.step]
    rw [hstep, hlist _ _ le_rfl (by simp [Job.after, hg.reads])]
    simp
  refine ⟨?_, (hi ((s.afterReads dev j l).offBus (j.after l)) (j.after l).leftBus rfl rfl).trans
    (seqStep_finish rfl hg.failure)⟩
  rw [execTimes_add hreads]
  exact execTimes_one ((hi (s.afterReads dev j l) (j.after l) rfl rfl).trans
    (seqStep_release hg.owner (.inr rfl) hg.failure hdone))

end

/-! ACCCFG and MAGCFG. -/

theorem exec_acccfg_of_seq {s : State} {j : Job} (data : Byte) (hj : s.ports.seq = some j) :
    exec (.acccfg data) s = s.seqStep Config.accAddr (fun _ => [.write (regAt 0x20) data]) State.setJob
      (fun _ s => { s with eng.accCtrl := data }.respondEngine .ok 0) id j := by
  simp [exec, execAcccfg, hj]

theorem exec_magcfg_of_seq {s : State} {j : Job} (sel : BitVec 5) (data : Byte) (hj : s.ports.seq = some j) :
    exec (.magcfg sel data) s = s.seqStep Config.magAddr (fun _ => [.write (regAt sel.toNat) data]) State.setJob
      (fun _ s => s.respondEngine .ok 0) id j := by
  simp [exec, execMagcfg, hj]

/-- Settles O40: the write, the release, and the commit of the byte with the response. -/
theorem acccfgCompletes : Obligations.AcccfgCompletes := by
  intro s j data x hg ha
  obtain ⟨hwrite, hrelease, hfinish⟩ := exec_write_release_finish (fun _ _ => exec_acccfg_of_seq data) hg ha
  have hframe := (EngineFrame.afterWrite Config.accAddr (regAt 0x20) data j s).offBus j.wrote
  refine ⟨_, _, _, hwrite, hrelease, rfl, hfinish, hframe.commit rfl _ .ok 0, rfl, rfl, ?_⟩
  rw [← ha]
  rfl

/-- Settles O41: the write, the release, and the response. -/
theorem magcfgCompletes : Obligations.MagcfgCompletes := by
  intro s j sel data x _ hg ha
  obtain ⟨hwrite, hrelease, hfinish⟩ := exec_write_release_finish (fun _ _ => exec_magcfg_of_seq sel data) hg ha
  have hframe := (EngineFrame.afterWrite Config.magAddr (regAt sel.toNat) data j s).offBus j.wrote
  refine ⟨_, _, _, hwrite, hrelease, hfinish, hframe.respondEngine rfl .ok 0, rfl, rfl, ?_⟩
  rw [← ha, ← BitVec.ofNat_toNat]
  rfl

/-! RDMAG. -/

theorem exec_rdmag_of_seq {s : State} {j : Job} (hj : s.ports.seq = some j) :
    exec .rdmag s = s.seqStep Config.magAddr (fun _ => rdmagList) State.setJob
      (fun j s => s.respondEngine .ok
        (magData Config.magAxisOrder (j.wordBE 0x03) (j.wordBE 0x05) (j.wordBE 0x07))) id j := by
  simp [exec, execRdmag, hj]

/-- A word put below `x` is its high byte and then its low byte. -/
theorem append_word16 {n : Nat} (x : BitVec n) (hi lo : Byte) : x ++ word16 hi lo = x ++ hi ++ lo := by
  rw [word16, BitVec.append_assoc]
  rfl

/-- R74's packing of a triple, written out by bytes. -/
theorem tripleData_word16 (xh xl yh yl zh zl : Byte) :
    tripleData (word16 xh xl) (word16 yh yl) (word16 zh zl) = 0#16 ++ zh ++ zl ++ yh ++ yl ++ xh ++ xl := by
  rw [tripleData, append_word16, append_word16, append_word16]

/-- Settles O43: the six reads, the release, and the triple of the words the reads gave. -/
theorem rdmagCompletes : Obligations.RdmagCompletes := by
  intro s j f rest hg ha
  have hrun : (readRun 0x03 6 f).map (fun p => SeqOp.read p.1) = rdmagList := List.map_map
  have hanswers : (readRun 0x03 6 f).map (fun p => Answer.ok p.2) = (List.range 6).map fun k => Answer.ok (f k) :=
    List.map_map
  obtain ⟨hreads, hfinish⟩ := exec_reads_release_finish (l := readRun 0x03 6 f)
    (fun _ _ _ => exec_rdmag_of_seq) hg (by simp [readRun]) (fun _ _ _ _ => by rw [hrun]) (by rw [ha, hanswers])
  rw [readRun_length] at hreads
  have hword (k : Nat) (hk : k + 1 < 6) :
      (j.after (readRun 0x03 6 f)).leftBus.wordBE (0x03 + k) = word16 (f k) (f (k + 1)) :=
    congrArg₂ word16 (byte_after_readRun j f (by omega) (by omega)) (byte_after_readRun j f (by omega) hk)
  have hx : (j.after (readRun 0x03 6 f)).leftBus.wordBE 0x03 = word16 (f 0) (f 1) := hword 0 (by omega)
  have hy : (j.after (readRun 0x03 6 f)).leftBus.wordBE 0x05 = word16 (f 2) (f 3) := hword 2 (by omega)
  have hz : (j.after (readRun 0x03 6 f)).leftBus.wordBE 0x07 = word16 (f 4) (f 5) := hword 4 (by omega)
  rw [hx, hy, hz] at hfinish
  have hframe := (EngineFrame.afterReads Config.magAddr j (readRun 0x03 6 f) s).offBus (j.after (readRun 0x03 6 f))
  refine ⟨_, _, _, hreads, hfinish, hframe.respondEngine rfl .ok _, fun ho => ?_, fun ho => ?_, rfl, rfl, ?_⟩
  · rw [ho, ← tripleData_word16]
    rfl
  · rw [ho, ← tripleData_word16]
    rfl
  · exact congrArg (fun l => BusEvent.release .seq :: (l.reverse ++ s.out.order)) List.map_map

/-! RDACC. -/

theorem exec_rdacc_of_seq {s : State} {j : Job} (hj : s.ports.seq = some j) :
    exec .rdacc s = s.seqStep Config.accAddr (rdaccList s.eng.accCtrl) State.setJob
      (fun j s => s.respondEngine .ok (tripleData (axisValue j 0) (axisValue j 1) (axisValue j 2))) id j := by
  simp [exec, execRdacc, hj]

/-- A register that was read once gives the byte read there. -/
theorem Job.byte?_of_mem {j : Job} (hn : (j.reads.map Prod.fst).Nodup) {reg : RegAddr} {b : Byte}
    (h : (reg, b) ∈ j.reads) : j.byte? reg = some b := by
  obtain ⟨l₁, l₂, hl⟩ := List.append_of_mem h
  refine List.lookup_eq_some_iff.2 ⟨l₁, l₂, hl, fun p hp => bne_iff_ne.2 fun he => ?_⟩
  rw [hl, List.map_append, List.nodup_append] at hn
  exact hn.2.2 p.1 (List.mem_map_of_mem hp) reg (by simp) he.symm

theorem Job.byte?_eq_none {j : Job} {reg : RegAddr} (h : ∀ p ∈ j.reads, p.1 ≠ reg) : j.byte? reg = none :=
  List.lookup_eq_none_iff.2 fun p hp => bne_iff_ne.2 (h p hp).symm

/-- The two reads of axis `a`, low byte first. -/
def axisRun (lo hi : Nat → Byte) (a : Nat) : List (RegAddr × Byte) :=
  [(regAt (0x28 + 2 * a), lo a), (regAt (0x29 + 2 * a), hi a)]

/-- RDACC's reads: the status, then those of the axes that `g` gates on. -/
def rdaccRun (g : Nat → Bool) (status : Byte) (lo hi : Nat → Byte) : List (RegAddr × Byte) :=
  (regAt 0x27, status) :: ([0, 1, 2].filter g).flatMap (axisRun lo hi)

theorem flatMap_filter_eq {α β : Type} (g : α → Bool) (f : α → List β) (l : List α) :
    (l.filter g).flatMap f = l.flatMap fun a => if g a then f a else [] := by
  induction l with
  | nil => rfl
  | cons a l ih => cases hg : g a <;> simp [hg, ih]

section
variable {g : Nat → Bool} {status ctrl : Byte} {lo hi : Nat → Byte} {j : Job}

theorem rdaccRun_length : (rdaccRun g status lo hi).length = 1 + 2 * ([0, 1, 2].filter g).length := by
  simp [rdaccRun, axisRun, List.length_flatMap]
  omega

theorem rdaccRun_map {β : Type} (f : RegAddr × Byte → β) :
    (rdaccRun g status lo hi).map f =
      f (regAt 0x27, status) :: ([0, 1, 2].filter g).flatMap fun a => (axisRun lo hi a).map f := by
  rw [rdaccRun, List.map_cons, List.map_flatMap]

/-- RDACC's reads are at some of the registers 0x27, 0x28, ..., 0x2D, in that order. -/
theorem rdaccRun_nodup : ((rdaccRun g status lo hi).map Prod.fst).Nodup := by
  have hsub := (List.filter_sublist (p := g) (l := [0, 1, 2])).flatMap (axisRun lo hi)
  refine ((hsub.cons_cons (regAt 0x27, status)).map Prod.fst).nodup ?_
  show [regAt 0x27, regAt 0x28, regAt 0x29, regAt 0x2A, regAt 0x2B, regAt 0x2C, regAt 0x2D].Nodup
  decide

/-- Once the status is read, RDACC's list is the reads of `rdaccRun`. -/
theorem rdaccList_of_status (hg : ∀ a, a < 3 → g a = (status.getLsbD a && ctrl.getLsbD a))
    (hstatus : j.byte? (regAt 0x27) = some status) :
    rdaccList ctrl j = (rdaccRun g status lo hi).map fun p => .read p.1 := by
  have haxis (a : Nat) (ha : a < 3) :
      axisReads ctrl status a = if g a then (axisRun lo hi a).map fun p => .read p.1 else [] := by
    rw [hg a ha]
    rfl
  rw [rdaccRun_map, flatMap_filter_eq]
  simp [rdaccList, hstatus, haxis]

/-- As RDACC's reads go on, its list gives them one after the other, and nothing after the last. -/
theorem rdaccList_getElem? (hg : ∀ a, a < 3 → g a = (status.getLsbD a && ctrl.getLsbD a)) {k : Nat}
    (hr : j.reads = ((rdaccRun g status lo hi).take k).reverse) :
    (rdaccList ctrl j)[k]? = ((rdaccRun g status lo hi).map fun p => SeqOp.read p.1)[k]? := by
  cases k with
  | zero => rfl
  | succ k =>
    rw [rdaccList_of_status hg (Job.byte?_of_mem ?_ (by simp [hr, rdaccRun]))]
    rw [hr, List.map_reverse, List.nodup_reverse]
    exact rdaccRun_nodup.sublist ((List.take_sublist _ _).map _)

/-- A gated axis is its word, low byte first (R155). -/
theorem axisValue_of_gated (hr : j.reads = (rdaccRun g status lo hi).reverse) {a : Nat} (ha : a < 3) (hga : g a = true) :
    axisValue j a = hi a ++ lo a := by
  have hn : (j.reads.map Prod.fst).Nodup := by
    rw [hr, List.map_reverse, List.nodup_reverse]
    exact rdaccRun_nodup
  have hmem (p : RegAddr × Byte) (hp : p ∈ axisRun lo hi a) : p ∈ j.reads := by
    rw [hr, List.mem_reverse]
    exact List.mem_cons_of_mem _ (List.mem_flatMap.2 ⟨a, List.mem_filter.2 ⟨by simp; omega, hga⟩, hp⟩)
  have hlo : j.byte? (regAt (0x28 + 2 * a)) = some (lo a) := Job.byte?_of_mem hn (hmem _ (by simp [axisRun]))
  have hhi : j.byte? (regAt (0x29 + 2 * a)) = some (hi a) := Job.byte?_of_mem hn (hmem _ (by simp [axisRun]))
  simp [axisValue, hlo, hhi, word16]

/-- An axis that is not gated is zero: none of the registers read is its own (R155). -/
theorem axisValue_of_not_gated (hr : j.reads = (rdaccRun g status lo hi).reverse) {a : Nat} (ha : a < 3)
    (hga : g a = false) : axisValue j a = 0#16 := by
  have hnone : j.byte? (regAt (0x28 + 2 * a)) = none := by
    refine Job.byte?_eq_none fun p hp => ?_
    rw [hr, List.mem_reverse] at hp
    rcases List.mem_cons.1 hp with rfl | hp
    · rw [Ne, regAt_inj (by omega) (by omega)]
      omega
    · obtain ⟨b, hb, hp⟩ := List.mem_flatMap.1 hp
      obtain ⟨hb, hgb⟩ := List.mem_filter.1 hb
      have hb3 : b < 3 := by simp at hb; omega
      have hne : b ≠ a := by rintro rfl; simp [hga] at hgb
      rcases List.mem_pair.1 hp with rfl | rfl <;> rw [Ne, regAt_inj (by omega) (by omega)] <;> omega
  simp [axisValue, hnone]

theorem axisValue_of_rdaccRun (hr : j.reads = (rdaccRun g status lo hi).reverse) {a : Nat} (ha : a < 3) :
    axisValue j a = if g a then hi a ++ lo a else 0#16 := by
  cases hga : g a with
  | true => exact axisValue_of_gated hr ha hga
  | false => exact axisValue_of_not_gated hr ha hga

end

/-- Powered off, RDACC is one step, the zero triple (R152). -/
theorem exec_rdacc_poweredOff {s : State} (hseq : s.ports.seq = none) (hoff : s.eng.accCtrl.extractLsb' 4 4 = 0) :
    exec .rdacc s = .next (s.respondEngine .ok 0) := by
  simp [exec, execRdacc, hseq, accPoweredOff, hoff, tripleData]

/-- Settles O42: off, the response at once; on, the gated reads, the release, and the triple of the axes' values. -/
theorem rdaccCompletes : Obligations.RdaccCompletes := by
  refine ⟨fun s hseq hoff => ?_, fun s j status g lo hi rest hg hgate ha => ?_⟩
  · exact ⟨_, exec_rdacc_poweredOff hseq hoff, (EngineFrame.refl s).respondEngine rfl .ok 0, rfl, rfl, rfl⟩
  · obtain ⟨hreads, hfinish⟩ := exec_reads_release_finish (l := rdaccRun g status lo hi)
      (fun u j he hj => by rw [exec_rdacc_of_seq hj, he]) hg (List.cons_ne_nil _ _)
      (fun _ _ _ hr => rdaccList_getElem? hgate hr) (rest := rest)
      (by rw [ha, rdaccRun_map]; rfl)
    have hvalue (a : Nat) (ha : a < 3) := axisValue_of_rdaccRun (g := g) (status := status) (lo := lo) (hi := hi)
      (j := (j.after (rdaccRun g status lo hi)).leftBus) (by simp [Job.leftBus, Job.after, hg.reads]) ha
    rw [hvalue 0 (by omega), hvalue 1 (by omega), hvalue 2 (by omega)] at hfinish
    rw [rdaccRun_length, Nat.add_right_comm] at hreads
    have hframe := (EngineFrame.afterReads Config.accAddr j (rdaccRun g status lo hi) s).offBus
      (j.after (rdaccRun g status lo hi))
    refine ⟨_, _, hreads, hfinish, hframe.respondEngine rfl .ok _, rfl, rfl, ?_⟩
    refine congrArg (fun l : List BusEvent => .release .seq :: (l.reverse ++ s.out.order)) ?_
    exact rdaccRun_map _

end Sys2Proof.Machine
end

section
/-! PROOFS, family 60_exceptions.md. The machine never stops (R174, R177); the ILLEGAL word (R167); the codes of the
statuses and stages (R166, R21). -/

namespace Sys2Proof.Machine

/-! The one fault, a transfer by a requester that does not own the bus, and where the invariant rules it out. -/

/-- A port between RDW's two reads owns the bus. -/
theorem Consistent.owner_of_firstByte {s : State} (h : Consistent s) {b : Byte} (hp : s.phase = .firstByte b) :
    s.arb.owner = some s.self := by
  cases hs : s.slot s.out.actPort with
  | none => simp [State.phase, hs] at hp
  | some sl =>
    rw [phase_of_slot hs] at hp
    have hagrees := h.slots _ _ hs
    simp only [State.slotAgrees, hp, slot_port hs] at hagrees
    exact hagrees.2

/-- SEQ inside its bus sequence owns the bus. -/
theorem Consistent.owner_of_running {s : State} (h : Consistent s) {j : Job} (hj : s.ports.seq = some j)
    (hp : j.phase = .running) : s.arb.owner = some .seq := by
  have hagrees := h.seq
  simp only [State.seqAgrees, hj, hp] at hagrees
  obtain ⟨_, -, -, howner, -⟩ := hagrees
  exact howner

/-! A next state of every command, and so of every move. -/

/-- Of the bus-family commands RDW alone can stop, at its second read. -/
theorem Consistent.exists_exec_bus {s : State} (h : Consistent s) {i : Instr} (hc : i.portClass = .bus) :
    ∃ t, exec i s = .next t := by
  cases i with
  | busBegin | busEnd | rdb | wrb | ldcfg | stcfg => exact ⟨_, rfl⟩
  | rdw reg flip =>
    cases hp : s.phase with
    | issued | awaiting => exact ⟨_, exec_beforeBus rfl (by simp) (by simp [hp, Phase.beforeBus])⟩
    | firstByte b0 =>
      simp only [exec, execRdw, hp]
      exact ⟨_, requireOwner_next.2 ⟨h.owner_of_firstByte hp, rfl⟩⟩
    | done st d => exact ⟨_, exec_rdw_done hp reg flip⟩
  | _ => cases hc

/-- A begun bus sequence has a next step if SEQ, when inside its list, is the owner. -/
theorem exists_seqStep {s : State} {j : Job} (howner : j.phase = .running → s.arb.owner = some .seq) (dev : DevAddr)
    (list : Job → List SeqOp) (onRelease finish : Job → State → State) (onFail : State → State) :
    ∃ t, s.seqStep dev list onRelease finish onFail j = .next t := by
  unfold State.seqStep
  cases hp : j.phase with
  | awaiting => exact ⟨_, rfl⟩
  | running => exact ⟨_, requireOwner_next.2 ⟨howner hp, rfl⟩⟩
  | offBus | computed => cases j.failure <;> exact ⟨_, rfl⟩

/-- The first step of an engine command, and the one step of those that use no bus. -/
theorem exists_exec_engine_first {s : State} {i : Instr} (hc : i.portClass = .engine)
    (hn : usesSeq i = true → s.ports.seq = none) : ∃ t, exec i s = .next t := by
  cases i with
  | setoss | wrcal | setsrc | injut | injup | rdreg => exact ⟨_, rfl⟩
  | acqcal | rdtemp | rdpres | acccfg | magcfg | rdacc | rdmag =>
    simp only [exec, execAcqcal, execRdtemp, execRdpres, execAcccfg, execMagcfg, execRdacc, execRdmag, hn rfl]
    exact ⟨_, rfl⟩
  | _ => cases hc

/-- The engine commands that use the bus can stop at a primitive alone, which SEQ issues as the owner. -/
theorem Consistent.exists_exec_engine {s : State} (h : Consistent s) {i : Instr} (hc : i.portClass = .engine) :
    ∃ t, exec i s = .next t := by
  by_cases hu : usesSeq i = true
  · cases hj : s.ports.seq with
    | none => exact exists_exec_engine_first hc fun _ => hj
    | some j =>
      obtain ⟨onRelease, finish, hstep⟩ := exec_seqStep hu
      rw [hstep s j hj]
      exact exists_seqStep (h.owner_of_running hj) ..
  · exact exists_exec_engine_first hc fun hu' => absurd hu' hu

/-- A word that decodes to no command is answered in its requester's step (R68, R167). -/
theorem advancePort_of_illegal {s : State} {n : Nat} {sl : Slot} {e : Illegal} (hs : s.slot n = some sl)
    (hd : decode .bus sl.word = .error e) :
    advancePort n s = .next ((s.actAs n).respondPort .illegal (zextData sl.word)) := by
  simp [advancePort, hs, hd]

theorem advanceSeq_of_illegal {s : State} {w : Word} {e : Illegal} (hw : s.ports.pendEng = some w)
    (hd : decode .engine w = .error e) : advanceSeq s = .next (s.respondEngine .illegal (zextData w)) := by
  simp [advanceSeq, hw, hd]

theorem Consistent.exists_advancePort {s : State} (h : Consistent s) (n : Nat) :
    ∃ t, Machine.advancePort n s = .next t := by
  cases hs : s.slot n with
  | none => exact ⟨s, by simp [Machine.advancePort, hs]⟩
  | some sl =>
    cases hd : decode .bus sl.word with
    | error e => exact ⟨_, advancePort_of_illegal hs hd⟩
    | ok i =>
      rw [advancePort_of_decode hs hd]
      exact (h.actAs n).exists_exec_bus (decode_class hd)

theorem Consistent.exists_advanceSeq {s : State} (h : Consistent s) : ∃ t, Machine.advanceSeq s = .next t := by
  cases hw : s.ports.pendEng with
  | none => exact ⟨s, by simp [Machine.advanceSeq, hw]⟩
  | some w =>
    cases hd : decode .engine w with
    | error e => exact ⟨_, advanceSeq_of_illegal hw hd⟩
    | ok i =>
      rw [advanceSeq_of_decode hw hd]
      exact h.exists_exec_engine (decode_class hd)

/-- Settles O52: a requester's step alone could stop, and the invariant rules out its one fault. -/
theorem stepNeverStops : Obligations.StepNeverStops := by
  intro s h
  unfold step
  cases s.nextEvent with
  | issue | grant | reset => exact ⟨_, rfl⟩
  | advance c =>
    cases c with
    | port n => exact h.dropEvent.exists_advancePort n
    | seq => exact h.dropEvent.exists_advanceSeq

/-! The ILLEGAL word (R167). -/

theorem accept_engine_taken {s : State} (hs : s.ports.pendEng = none) (w : Word) :
    (s.accept .engine w).ports.pendEng = some w := by
  simp [State.accept, hs]

/-- Settles O8: the response is the whole step, and it leaves the port free. -/
theorem illegalWordAnswered : Obligations.IllegalWordAnswered := by
  refine ⟨rfl, fun s n sl e he hs hd => ?_, fun s w e he hw hd => ?_⟩
  · have hanswered := (SameButBus.refl (s.dropEvent.actAs n)).respondPort .illegal (zextData sl.word)
    exact ⟨_, (step_advance he).trans (advancePort_of_illegal (by simpa using hs) hd), hanswered, by simp, by simp,
      fun w hn => slot_accept_self hn hanswered.slot w⟩
  · have hanswered := (EngineFrame.refl s.dropEvent).respondEngine rfl .illegal (zextData w)
    exact ⟨_, (step_advance he).trans (advanceSeq_of_illegal (by simpa using hw) hd), hanswered, by simp, by simp,
      by simp, accept_engine_taken hanswered.pendEng⟩

/-! The codes (R166, R21). -/

/-- Settles O6, by evaluation of the two tables. -/
theorem responseAndStageCodes : Obligations.ResponseAndStageCodes := ⟨rfl, rfl⟩

end Sys2Proof.Machine
end

section
/-! PROOFS, family 70_reset_and_hazards.md: reset (R226 to R228). -/

namespace Sys2Proof.Machine

theorem step_reset {s : State} (h : s.nextEvent = .reset) : step s = .next s.dropEvent.resetMachine := by
  simp [step, perform, h]

/-- Settles O10: the reset states are those of R227, and using up the move adds neither to the order nor to the responses. -/
theorem resetStep : Obligations.ResetStep := by
  intro s he
  refine ⟨_, step_reset he, State.resetMachine_arb _, State.resetMachine_ports _, ?_⟩
  rw [State.resetMachine_eng]
  exact ⟨rfl, rfl, rfl, rfl, rfl, rfl, rfl, rfl, rfl, by simp, by simp⟩

end Sys2Proof.Machine
end
